-- ==== Sys2Proof/Word.lean ====
section
/-! DEFINITION. The word types of dct_8x8_fwd: bytes, 16-bit dimension registers, the binary64 values of the real-valued
buffers, the plane kind and the symbol. -/

namespace Sys2Proof

/-- A byte of `RASTER` or `STREAM`, and the 8-bit registers `CMD` and `STATUS` (R9, R29, R32). -/
abbrev Byte := BitVec 8

/-- The 16-bit registers `WIDTH` and `HEIGHT` (R30). -/
abbrev Half := BitVec 16

/-- A binary64 value as the real-valued buffers hold it (R14). A finite value is the rational number it is, so that equal
values are equal data; no rule reads a part of a real or the sign of a zero (R57), so there is one zero (log 7).
Infinities and NaN stand outside every unit's domain (R15): they exist here only so that an overflowing binary64
operation has a result, which every operation then refuses to read. -/
inductive Real64 where
  | fin (q : Rat)
  | inf (negative : Bool)
  | nan
deriving DecidableEq, Repr

/-- Is the value finite, that is inside the domain of R15? -/
def Real64.isFinite : Real64 → Bool
  | .fin _ => true
  | _ => false

/-- The plane kind of `CMD.PLANE` (R29) and of the sample sequences `YS` and `CS` (R193): 0 is Y (luminance), 1 is CbCr
(chrominance). -/
inductive Plane where
  | luma
  | chroma
deriving DecidableEq, Repr

/-- A run-length symbol (R27, R155): a natural run and an integer value, neither bounded by the buffer. -/
structure Symbol where
  run : Nat
  value : Int
deriving DecidableEq, Repr, Inhabited

/-- The symbol list of one block. -/
abbrev Record := List Symbol

end Sys2Proof
end

