-- ==== Sys2Proof/Syntax.lean ====
section
/-! DEFINITION. The operations of dct_8x8_fwd (R3, R71): one constructor for each row of spec/opcode_table.json. -/

namespace Sys2Proof

/-- The fourteen operations. Every operation has fixed operand and result buffers (R72); the only operand a command
carries is the plane kind of the two quantizers, since `PLANE` is ignored by every other operation (R73). -/
inductive Instr where
  /-- `RGB2YCC` (R102) -/
  | rgb2ycc
  /-- `YCC2RGB` (R105) -/
  | ycc2rgb
  /-- `CDOWN2` (R111) -/
  | cdown2
  /-- `CUP2` (R114) -/
  | cup2
  /-- `DCT8F` (R123) -/
  | dct8f
  /-- `DCT8I` (R125) -/
  | dct8i
  /-- `QFWD.Y`, `QFWD.C` (R136) -/
  | qfwd (plane : Plane)
  /-- `QINV.Y`, `QINV.C` (R138) -/
  | qinv (plane : Plane)
  /-- `ZZF` (R151) -/
  | zzf
  /-- `ZZI` (R153) -/
  | zzi
  /-- `RLEE` (R157) -/
  | rlee
  /-- `RLED` (R161) -/
  | rled
  /-- `FWR` (R172) -/
  | fwr
  /-- `FPR` (R178) -/
  | fpr
deriving DecidableEq, Repr

end Sys2Proof
end

