-- ==== Sys2Proof/Config.lean ====
section
/-! DEFINITION. What an implementation fixes: the parameters of R10 as a type, the language in which an evaluation order of
a real-valued formula is written (R14), and the free values of the machine. The spec's own parameter values and the
tables stand in Machine/Tables.lean. -/

namespace Sys2Proof

/-- `ROUND_TIE` (R13): where `x` is half-way between two integers, the even one, the one farther from zero, or the upper. -/
inductive RoundTie where
  | halfEven
  | halfAway
  | halfUp
deriving DecidableEq, Repr

/-- `CAST8` (R106): how a clamped real becomes a byte. -/
inductive CastMode where
  | trunc
  | round
deriving DecidableEq, Repr

/-- `PARTITION` (R197, R199): how a plane is cut into blocks. -/
inductive Partition where
  | linear
  | tiled
deriving DecidableEq, Repr

/-- `ODD_DIM_POLICY` (R115, R116): what `CUP2` leaves in an odd last column or row. -/
inductive OddDim where
  | fault
  | replicate
deriving DecidableEq, Repr

/-- The open parameters of R10 but for `NUM` (`Datapath` in Machine/Formulas.lean) and `MAX_STREAM` (unbounded, log 9).
A table is its 64 entries in row-major order (R135). -/
structure Params where
  roundTie : RoundTie
  cast8 : CastMode
  qtLuma : Vector Nat 64
  qtChroma : Vector Nat 64
  /-- `DEQUANT_LEGACY_LUMA_ONLY` (R139) -/
  legacyDequant : Bool
  /-- `VALUE_WRAP` (R173) -/
  valueWrap : Bool
  partition : Partition
  oddDim : OddDim
deriving DecidableEq, Repr

/-- A number written over the cosines of R122: entry `j` is the rational factor of `c_j = cos(j·π/16)`. -/
abbrev CosSum := Vector Rat 8

/-- The constants of the real-valued formulas: a decimal literal `num / den` as the rules print it (R101, R104), `C(k)` of
R121, the basis cosine `cb(u, x)` of R122, and the two scale factors of R128. An implementation that computes the sums in
another way (R124) may hold other constants, such as the sum or the quotient of two cosines: those are `cosSum`. -/
inductive Const where
  | lit (num : Int) (den : Nat)
  | norm (k : Nat)
  | cosBasis (u x : Nat)
  /-- `2 / sqrt(64)` -/
  | quarter
  /-- `1 / sqrt(64)` -/
  | eighth
  | cosSum (q : CosSum)
deriving DecidableEq, Repr, Inhabited

/-- A way to evaluate a formula: an arithmetic expression over the formula's operands (numbered from 0) and constants.
`fma a b c` is `a * b + c` rounded once: the source fixes no fused operations (R14). -/
inductive Expr where
  | operand (i : Nat)
  | const (c : Const)
  | neg (a : Expr)
  | add (a b : Expr)
  | sub (a b : Expr)
  | mul (a b : Expr)
  | div (a : Expr) (c : Const)
  | fma (a b c : Expr)
deriving DecidableEq, Repr, Inhabited

/-- The six channel formulas of R101 and R104. -/
inductive Channel where
  | y
  | cb
  | cr
  | red
  | green
  | blue
deriving DecidableEq, Repr

/-- A place where a real-valued formula is evaluated: a channel of a pixel, coefficient `(u, v)` of `DCT8F`, sample `(x, y)`
of `DCT8I`. A pixel's place in the image is no part of it: its result "depends only on the three input values at (x, y) and
on the constants" (R100). -/
inductive Site where
  | pixel (ch : Channel)
  | dctF (u v : Nat)
  | dctI (x y : Nat)
deriving DecidableEq, Repr

/-- The registers and buffers that reset does not write (R38, R251). -/
inductive Unwritten where
  | blk
  | seq
  | sym
  | width
  | height
  | len
deriving DecidableEq, Repr

/-- FREE VALUE (log 4, log 6): the evaluation an implementation uses at a site. "the binary64 result of a rule is any value
obtainable by evaluating its formula in binary64 in some order" (R14, U10), and a transform may compute the same sums "in
any other way" (R124). The machine uses it only where it is one of these (`isEvaluation`, Machine/Formulas.lean). -/
opaque Config.freeExpr : Site → Expr

/-- FREE VALUE (log 5): what an implementation has for the basis cosine `cb(u, x)`. The order in which the argument
`(2x+1)·u·π/16` is evaluated, and the cosine routine, are open (R14, U10, N7). The machine uses it only where it is near
enough to R122's value (Machine/Formulas.lean). -/
opaque Config.freeCosine : Nat → Nat → Rat

/-- FREE VALUE (log 5): what an implementation has for `C(0) = 1/sqrt(2)` (R121, U10), used likewise. -/
opaque Config.freeNorm : Rat

/-- FREE VALUE (log 5, log 6): what an implementation has for another constant of a transform, used likewise. -/
opaque Config.freeCosSum : CosSum → Rat

/-- FREE VALUE (log 24): the integer that rounding or casting a NaN or an infinity would give. No rule states one (R15) and
no operation takes it on operands of its domain. -/
opaque Config.integerOfNonFinite : Int

/-- FREE VALUE (log 3): does a register that reset does not write still hold, after reset number `n`, what it held before?
It "counts as unspecified" then (R251), so a claim may assume neither. Reset 0 is power-on. -/
opaque Config.survives : Unwritten → Nat → Bool

/-- FREE VALUE (log 1, log 3): `BLK` after reset number `n`, element by element (R38: unspecified). -/
opaque Config.resetBlk : Nat → Nat → Rat

/-- FREE VALUE (log 1, log 3): `SEQ` after reset number `n`, element by element (R38: unspecified). -/
opaque Config.resetSeq : Nat → Nat → Rat

/-- FREE VALUE (log 1, log 3): `SYM` after reset number `n` (R38: unspecified). -/
opaque Config.resetSym : Nat → Record

/-- FREE VALUE (log 1, log 3): `WIDTH` after reset number `n` (R38: unspecified). -/
opaque Config.resetWidth : Nat → Half

/-- FREE VALUE (log 1, log 3): `HEIGHT` after reset number `n` (R38: unspecified). -/
opaque Config.resetHeight : Nat → Half

/-- FREE VALUE (log 1, log 3): `LEN` after reset number `n` (R38: unspecified). -/
opaque Config.resetLen : Nat → Nat

end Sys2Proof
end

