-- ==== Sys2Proof/Program.lean ====
section
/-! DEFINITION. What the sequencer does one step at a time, and what the host may ask of it. The spec's programs are listings
of these steps (R88, R200, R209). -/

namespace Sys2Proof

/-- One step of the sequencer. -/
inductive SeqStep where
  /-- write `CMD`, which starts an operation (R29) -/
  | cmd (w : Byte)
  /-- `LDBLK <seq>, <n>` (R196) -/
  | ldblk (seq : Plane) (n : Nat)
  /-- `STBLK <seq>, <n>` (R203) -/
  | stblk (seq : Plane) (n : Nat)
  /-- `PUSHSYM` (R198) -/
  | pushsym
  /-- `POPSYM <b>` (R208) -/
  | popsym (b : Nat)
  /-- the dimension check of `compress` on the host's numbers (R192) -/
  | checkDims (w h : Nat)
  /-- the block count check of `decompress` (R207), after which the block loops of R209 follow -/
  | checkCount
  /-- the serialisation of `convertRgbToYcbcr`, which the spec does not define (R202, U21) -/
  | serialise
deriving DecidableEq, Repr

/-- What the host asks of the block (R191, R202, R250, R254). `len` is the length the host writes into `LEN`. -/
inductive HostCall where
  | compress (w h : Nat) (raster : List Byte)
  | decompress (stream : List Byte) (len : Nat)
  | convert (w h : Nat) (raster : List Byte)
  /-- a listing of steps issued as it stands, with no reset before it (R88; runs k and l of P6 in 95_test_vectors.md) -/
  | issue (steps : List SeqStep)
  /-- the reset of R250 -/
  | reset
deriving DecidableEq, Repr

end Sys2Proof
end

