-- ==== Sys2Proof/WellFormed.lean ====
section
/-! DEFINITION. Well-formedness. A term of `Instr` is well formed by construction: its only operand, `Plane`, has no value that
the command word cannot carry (R72). The checks here are on what comes from outside: command words, symbols to be
written, parameters and host calls. -/

namespace Sys2Proof

/-- A legal command word (R70, R73): the reserved field is 0 and `OP` is not one of the two reserved codes. -/
def commandWellFormed (w : Byte) : Bool :=
  w.extractLsb' 5 3 == 0 && w.extractLsb' 0 4 != 0x0#4 && w.extractLsb' 0 4 != 0xF#4

/-- A symbol that the two stream bytes carry without change of meaning (R181): run in 0..255, value in -128..127, and not
the pair (0, 0), which would read as a delimiter. -/
def Symbol.wellFormed (s : Symbol) : Bool :=
  s.run ≤ 255 && -128 ≤ s.value && s.value ≤ 127 && !(s.run == 0 && s.value == 0)

/-- "Any value of the parameter must have all 64 entries integers >= 1" (R86). -/
def Params.wellFormed (P : Params) : Bool :=
  P.qtLuma.toList.all (1 ≤ ·) && P.qtChroma.toList.all (1 ≤ ·)

/-- The host's duty (R262): three bytes for each pixel, and `LEN` equal to the number of bytes supplied. -/
def HostCall.wellFormed : HostCall → Bool
  | .compress w h raster => raster.length == 3 * (w * h)
  | .decompress stream len => len == stream.length
  | .convert w h raster => raster.length == 3 * (w * h)
  | .issue _ => true
  | .reset => true

end Sys2Proof
end

