-- ==== Sys2Proof/Decode.lean ====
section
/-! DEFINITION. The command word (R70 to R73, R90): decode, total on any byte and rejecting by name, and encode. -/

namespace Sys2Proof

/-- Why a command word is no operation (R73). -/
inductive Reject where
  /-- `CMD[7:5]` is not zero -/
  | reservedField
  /-- `OP` is 0x0 or 0xF -/
  | reservedOp
deriving DecidableEq, Repr

/-- `CMD[3:0]`, the operation code (R70). -/
def opField (w : Byte) : BitVec 4 := w.extractLsb' 0 4

/-- `CMD[4]`, the plane kind (R70). -/
def planeField (w : Byte) : Plane := if w.getLsbD 4 then .chroma else .luma

/-- `CMD[7:5]`, reserved (R70). -/
def reservedField (w : Byte) : BitVec 3 := w.extractLsb' 5 3

/-- The operation of a code of R71, with the plane kind the command carries. -/
def decodeOp (op : Nat) (plane : Plane) : Option Instr :=
  match op with
  | 0x1 => some .rgb2ycc
  | 0x2 => some .ycc2rgb
  | 0x3 => some .cdown2
  | 0x4 => some .cup2
  | 0x5 => some .dct8f
  | 0x6 => some .dct8i
  | 0x7 => some (.qfwd plane)
  | 0x8 => some (.qinv plane)
  | 0x9 => some .zzf
  | 0xA => some .zzi
  | 0xB => some .rlee
  | 0xC => some .rled
  | 0xD => some .fwr
  | 0xE => some .fpr
  | _ => none

/-- The operation a command word selects (R71), or why it selects none (R73). -/
def decode (w : Byte) : Except Reject Instr :=
  if reservedField w ≠ 0 then .error .reservedField
  else match decodeOp (opField w).toNat (planeField w) with
    | some i => .ok i
    | none => .error .reservedOp

/-- The first operation of a byte string and the bytes after it: every command is one byte long (R70). -/
def decodeBytes : List Byte → Option (Instr × List Byte)
  | [] => none
  | w :: rest =>
    match decode w with
    | .ok i => some (i, rest)
    | .error _ => none

/-- The code of an operation (R71). -/
def Instr.op : Instr → BitVec 4
  | .rgb2ycc => 0x1
  | .ycc2rgb => 0x2
  | .cdown2 => 0x3
  | .cup2 => 0x4
  | .dct8f => 0x5
  | .dct8i => 0x6
  | .qfwd _ => 0x7
  | .qinv _ => 0x8
  | .zzf => 0x9
  | .zzi => 0xA
  | .rlee => 0xB
  | .rled => 0xC
  | .fwr => 0xD
  | .fpr => 0xE

/-- The `PLANE` bit of an operation: its operand for the quantizers, 0 for the others, which ignore the bit (R73). -/
def Instr.planeBit : Instr → BitVec 1
  | .qfwd .chroma | .qinv .chroma => 1
  | .qfwd .luma | .qinv .luma => 0
  | .rgb2ycc | .ycc2rgb | .cdown2 | .cup2 | .dct8f | .dct8i | .zzf | .zzi | .rlee | .rled | .fwr | .fpr => 0

/-- The command word of an operation (R70): reserved zero, then `PLANE`, then `OP`. -/
def encode (i : Instr) : Byte := 0#3 ++ i.planeBit ++ i.op

/-- The operation that `decode` reads from a table row's bits: every row is the one byte of R70. -/
def decodeTableWord (nbits w : Nat) : Option Instr :=
  if nbits = 8 then (decodeBytes [BitVec.ofNat 8 w]).map Prod.fst else none

end Sys2Proof
end

