-- ==== Sys2Proof/Machine/Numerics.lean ====
section
/-! DEFINITION. Numbers: the record `NUM` of R14, the rounding of R13, and the binary64 instance. Each binary64 operation is the
exact rational result rounded once. -/

namespace Sys2Proof.Machine

/-- The numeric record `NUM` of R14: "fields `add`, `sub`, `mul`, `div`, `cos`, `sqrt`, `rnd`, `pi`", with the fused
multiply-add that the source leaves open, the embedding of the integers, and the comparison and truncation of R106.
The instances are `b64` below and `exactNum` in Machine/Exact.lean. -/
structure Num (α : Type) where
  ofInt : Int → α
  add : α → α → α
  sub : α → α → α
  mul : α → α → α
  div : α → α → α
  fma : α → α → α → α
  sqrt : α → α
  cos : α → α
  pi : α
  le : α → α → Bool
  isFinite : α → Bool
  rnd : RoundTie → α → Int
  trunc : α → Int

/-- The integer that the tie rule takes for `f + 1/2` (R13). -/
def tieBreak (tie : RoundTie) (f : Int) : Int :=
  match tie with
  | .halfEven => if f % 2 = 0 then f else f + 1
  | .halfAway => if 0 ≤ f then f + 1 else f
  | .halfUp => f + 1

/-- `rnd` of R13 on rationals. -/
def roundRat (tie : RoundTie) (q : Rat) : Int :=
  let f := q.floor
  if q - f < 1 / 2 then f else if 1 / 2 < q - f then f + 1 else tieBreak tie f

/-- `trunc` of R13 on rationals: the fractional part dropped. -/
def truncRat (q : Rat) : Int := if 0 ≤ q then q.floor else q.ceil

/-- `2 ^ e` for an integer `e`. -/
def pow2 (e : Int) : Rat := if 0 ≤ e then ((2 ^ e.toNat : Nat) : Rat) else mkRat 1 (2 ^ (-e).toNat)

/-- The `e` with `2 ^ e ≤ |q| < 2 ^ (e + 1)`, for `q` not zero. -/
def ilog2 (q : Rat) : Int :=
  let e : Int := (Nat.log2 q.num.natAbs : Int) - (Nat.log2 q.den : Int)
  if pow2 e ≤ |q| then e else e - 1

/-- The exponent of one unit in the last place of binary64 at `q`: 53 significant bits, and no unit below `2 ^ (-1074)`. -/
def ulpExp (q : Rat) : Int := max (ilog2 q - 52) (-1074)

/-- Rounding of an exact result to binary64, to nearest with ties to even; from `2 ^ 1024` on the result is an infinity. -/
def round64 (q : Rat) : Real64 :=
  if q = 0 then .fin 0
  else
    let r : Rat := roundRat .halfEven (q / pow2 (ulpExp q)) * pow2 (ulpExp q)
    if pow2 1024 ≤ |r| then .inf (decide (r < 0)) else .fin r

/-- Is a value one that binary64 has? -/
def wf64 : Real64 → Bool
  | .fin q => round64 q == .fin q
  | .inf _ => true
  | .nan => true

/-- `q` itself if binary64 has it, and otherwise 0: how a free rational becomes a free finite binary64 value. -/
def finite64 (q : Rat) : Real64 := .fin (if round64 q = .fin q then q else 0)

def neg64 : Real64 → Real64
  | .fin a => .fin (-a)
  | .inf s => .inf (!s)
  | .nan => .nan

def add64 : Real64 → Real64 → Real64
  | .fin a, .fin b => round64 (a + b)
  | .fin _, .inf s => .inf s
  | .inf s, .fin _ => .inf s
  | .inf s, .inf t => if s = t then .inf s else .nan
  | .nan, _ => .nan
  | _, .nan => .nan

def sub64 (a b : Real64) : Real64 := add64 a (neg64 b)

/-- The infinity of sign `s` times the sign of `a`; NaN for zero. -/
def infTimes (s : Bool) (a : Rat) : Real64 := if a = 0 then .nan else .inf (s != decide (a < 0))

def mul64 : Real64 → Real64 → Real64
  | .fin a, .fin b => round64 (a * b)
  | .fin a, .inf s => infTimes s a
  | .inf s, .fin b => infTimes s b
  | .inf s, .inf t => .inf (s != t)
  | .nan, _ => .nan
  | _, .nan => .nan

/-- No rule divides by zero (R136); NaN stands there because the sign of a zero is not kept (log 7). -/
def div64 : Real64 → Real64 → Real64
  | .fin a, .fin b => if b = 0 then .nan else round64 (a / b)
  | .fin _, .inf _ => .fin 0
  | .inf s, .fin b => infTimes s b
  | .inf _, .inf _ => .nan
  | .nan, _ => .nan
  | _, .nan => .nan

/-- `a * b + c` rounded once. -/
def fma64 : Real64 → Real64 → Real64 → Real64
  | .fin a, .fin b, .fin c => round64 (a * b + c)
  | a, b, c => add64 (mul64 a b) c

/-- The integer square root by binary digits, from bit `k` down. -/
def isqrtFrom (n : Nat) : Nat → Nat → Nat
  | 0, r => if (r + 1) * (r + 1) ≤ n then r + 1 else r
  | k + 1, r =>
    let r' := r + 2 ^ (k + 1)
    isqrtFrom n k (if r' * r' ≤ n then r' else r)

/-- The integer square root. -/
def isqrt (n : Nat) : Nat := isqrtFrom n (Nat.log2 n / 2 + 1) 0

/-- The correctly rounded square root: 65 or more bits of the root and a sticky half unit where it is not exact. -/
def sqrt64 : Real64 → Real64
  | .fin q =>
    if q < 0 then .nan
    else if q = 0 then .fin 0
    else
      let n := q.num.natAbs * q.den * 4 ^ 64
      let r := isqrt n
      let sticky := if r * r = n then 0 else 1
      round64 (mkRat (2 * r + sticky : Nat) (2 * q.den * 2 ^ 64))
  | .inf false => .inf false
  | .inf true => .nan
  | .nan => .nan

/-- The Taylor sum of the cosine in fixed point: `term` is `± x ^ (2k) / (2k)!` in units of `1 / scale`, `square` is `x ^ 2`
likewise. -/
def cosSum (scale square : Int) : Nat → Nat → Int → Int → Int
  | 0, _, _, sum => sum
  | n + 1, k, term, sum =>
    cosSum scale square n (k + 1) (-(term * square / (scale * ((2 * k + 1) * (2 * k + 2))))) (sum + term)

/-- The cosine of a rational to far more than 53 bits (log 25). -/
def cosRat (q : Rat) : Rat :=
  let m := q.ceil.natAbs + 1
  let bits := 192 + 4 * m
  let scale : Int := 2 ^ bits
  mkRat (cosSum scale (q.num * q.num * scale / ((q.den * q.den : Nat) : Int)) (60 + 4 * m) 0 scale 0) (2 ^ bits)

/-- The correctly rounded cosine (R128: "`cos` correctly rounded or as the platform's library gives it"). -/
def cos64 : Real64 → Real64
  | .fin q => round64 (cosRat q)
  | .inf _ => .nan
  | .nan => .nan

/-- "`pi` is the binary64 nearest to π" (R128). -/
def pi64 : Real64 := .fin (mkRat 884279719003555 (2 ^ 48))

def le64 : Real64 → Real64 → Bool
  | .fin a, .fin b => a ≤ b
  | .inf s, .inf t => s || !t
  | .inf s, .fin _ => s
  | .fin _, .inf s => !s
  | .nan, _ => false
  | _, .nan => false

/-- An integer as a binary64 value (exact up to `2 ^ 53`, rounded beyond; log 23). -/
def ofInt64 (n : Int) : Real64 := round64 n

/-- `rnd` on a binary64 value (R13); free where the value is not finite (R15, log 24). -/
def rnd64 (tie : RoundTie) : Real64 → Int
  | .fin q => roundRat tie q
  | .inf _ => Config.integerOfNonFinite
  | .nan => Config.integerOfNonFinite

/-- `trunc` on a binary64 value (R13); free where the value is not finite (R15, log 24). -/
def trunc64 : Real64 → Int
  | .fin q => truncRat q
  | .inf _ => Config.integerOfNonFinite
  | .nan => Config.integerOfNonFinite

/-- The binary64 instance of `NUM` (R14, R127). -/
def b64 : Num Real64 where
  ofInt := ofInt64
  add := add64
  sub := sub64
  mul := mul64
  div := div64
  fma := fma64
  sqrt := sqrt64
  cos := cos64
  pi := pi64
  le := le64
  isFinite := Real64.isFinite
  rnd := rnd64
  trunc := trunc64

/-- A free rational as the binary64 value it is, if binary64 has it and it lies within `tolerance` of `center`; and
otherwise `other`. -/
def nearOr (center tolerance free : Rat) (other : Real64) : Real64 :=
  if round64 free = .fin free ∧ |free - center| ≤ tolerance then .fin free else other

/-- A value within `bound` of 0, and 0 in the place of any other. -/
def nearZero (bound : Rat) : Real64 → Real64
  | .fin q => if |q| ≤ bound then .fin q else .fin 0
  | .inf _ => .fin 0
  | .nan => .fin 0

end Sys2Proof.Machine
end

