-- ==== Sys2Proof/Machine/State.lean ====
section
/-! DEFINITION. The state of dct_8x8_fwd (R22, R39), the reasons the model stops, and the state after reset (R38). -/

namespace Sys2Proof.Machine

/-- A block or a scan vector: 64 reals, a block in row-major order (R11, R25, R26). -/
abbrev Block := Vector Real64 64

/-- A memory of `α` in canonical form: addresses strictly rising; an address that is not listed holds no value (R38, U12;
log 2). -/
abbrev Mem (α : Type) := List (Nat × α)

/-- A byte memory: `RASTER`, `STREAM`. -/
abbrev ByteMem := List Host.Cell

/-- The places that can hold no value or a value outside the domain; named in refusals. -/
inductive Place where
  | blk
  | seq
  | width
  | height
  | len
  | raster
  | planeY
  | planeCb
  | planeCr
  | planeCbh
  | planeCrh
  | stream
  | blkList
deriving DecidableEq, Repr

/-- Why the model stops with a fault. The faults of R221 are none of these: the machine records them in `STATUS` and
`ERRINFO` and goes on to a next state (R226). -/
inductive Fault where
  /-- `POPSYM b` (R208) where `BLKLIST` has no element `b`. Raised by `popsym`; safe: the sequencer's own listing never
  does it, since R207 compares the counts first (log 18). -/
  | noSuchRecord (b : Nat)
deriving DecidableEq, Repr

/-- Why the model gives a step no meaning. -/
inductive Refusal where
  /-- An operation that has no meaning yet. Raised by `exec`'s refused arms; safe. -/
  | notModelled (mnemonic : String)
  /-- A read of an element that holds no value: "refuse; never assume zero" (R38, U11, U12). Raised by the operations and
  moves that read the place; safe. -/
  | noValue (place : Place) (index : Nat)
  /-- A real operand that is infinite or NaN: "an operation given one has no meaning in this spec and a model refuses it"
  (R15, U9). Raised by the operations that read the place; safe. -/
  | nonFinite (place : Place) (index : Nat)
  /-- A write of `CMD` while `STATUS.BUSY` is 1: "cannot occur in the model; refuse" (U15). Raised by `issue`; safe. -/
  | busy
  /-- The serialisation of `convertRgbToYcbcr`: "refuse: not specified" (U21, R202). Raised by the sequencer; safe. -/
  | serialisation
deriving DecidableEq, Repr

/-- The working counters inside the units (R35). Each operation that uses one sets it to its start value; it means nothing
after the operation ends (log 10). -/
structure Work where
  /-- `RUN` of rle_encoder -/
  run : Nat
  /-- `K` of rle_encoder -/
  k : Nat
  /-- `POS` of rle_decoder -/
  pos : Nat
  /-- `WPTR` of bitstream_frame_writer -/
  wptr : Nat
  /-- `RPTR` of bitstream_frame_parser -/
  rptr : Nat
  /-- `OPEN` of bitstream_frame_parser -/
  openSyms : Record
deriving DecidableEq, Repr

/-- The start values of R35. -/
def Work.start : Work := ⟨0, 0, 0, 0, 0, []⟩

/-- The whole state (R22, R39). `none` in a register or list is the spec's own "holds no value" that a fault leaves in the
results of the operation that raised it (R226). `resets`, `pending` and `inbox` are the model's own (log 3,
log 12). -/
structure State where
  /-- `BLK` (R25) -/
  blk : Block
  /-- `SEQ` (R26) -/
  seq : Option Block
  /-- `SYM` (R27) -/
  sym : Record
  /-- `CMD` (R29) -/
  cmd : Byte
  /-- `WIDTH` (R30) -/
  width : Option Half
  /-- `HEIGHT` (R30) -/
  height : Option Half
  /-- `LEN` (R31) -/
  len : Option Nat
  /-- `STATUS` (R32) -/
  status : Byte
  /-- `ERRINFO` (R33) -/
  errinfo : Nat
  /-- the working counters (R35) -/
  work : Work
  /-- `OPIDX` (R28) -/
  opidx : Nat
  /-- `RASTER` (R51) -/
  raster : ByteMem
  /-- `PLANE_Y` (R52) -/
  planeY : Mem Real64
  /-- `PLANE_CB` (R52) -/
  planeCb : Mem Real64
  /-- `PLANE_CR` (R52) -/
  planeCr : Mem Real64
  /-- `PLANE_CBH` (R53) -/
  planeCbh : Mem Real64
  /-- `PLANE_CRH` (R53) -/
  planeCrh : Mem Real64
  /-- `STREAM` (R54) -/
  stream : ByteMem
  /-- `BLKLIST` (R55) -/
  blkList : Option (List Record)
  /-- how many resets there have been since power-on; numbers the free values of the registers that reset does not write
  (R251; log 3) -/
  resets : Nat
  /-- the steps of the current invocation that are still to be done, first one first (R28, R200, R209) -/
  pending : List SeqStep
  /-- what the host has asked for and the sequencer has not yet taken up (R191, R254, R262) -/
  inbox : List HostCall
deriving DecidableEq, Repr

/-- A buffer of free binary64 values. -/
def freshBlock (free : Nat → Rat) : Block := Vector.ofFn fun i => finite64 (free i.val)

/-- The state after power-on (R38): `CMD`, `STATUS`, `ERRINFO`, `BLKLIST`, `OPIDX` as stated; the registers R38 calls unspecified hold free
values (log 1), the memories no value (log 2), the working counters their start values (log 10); nothing is running
(R252). -/
def State.reset : State where
  blk := freshBlock (Config.resetBlk 0)
  seq := some (freshBlock (Config.resetSeq 0))
  sym := Config.resetSym 0
  cmd := 0x00
  width := some (Config.resetWidth 0)
  height := some (Config.resetHeight 0)
  len := some (Config.resetLen 0)
  status := 0x00
  errinfo := 0
  work := Work.start
  opidx := 0
  raster := []
  planeY := []
  planeCb := []
  planeCr := []
  planeCbh := []
  planeCrh := []
  stream := []
  blkList := some []
  resets := 0
  pending := []
  inbox := []

end Sys2Proof.Machine
end

