-- ==== Sys2Proof/Machine/Flags.lean ====
section
/-! DEFINITION. `STATUS` (R32): its fields and how a start, an end and a fault write them. There are no condition codes and no
other flags (R34). -/

namespace Sys2Proof.Machine

/-- `STATUS.BUSY`, bit 0. -/
def busyBit (st : Byte) : Bool := st.getLsbD 0

/-- `STATUS.DONE`, bit 1. -/
def doneBit (st : Byte) : Bool := st.getLsbD 1

/-- `STATUS[3:2]`, reserved, read 0. -/
def reservedBits (st : Byte) : BitVec 2 := st.extractLsb' 2 2

/-- `STATUS.ERR`, bits 7:4. -/
def errField (st : Byte) : BitVec 4 := st.extractLsb' 4 4

/-- The faults of R221. -/
inductive ErrCode where
  | dimensionError
  | malformedStream
  | valueRange
  | blockOverflow
  | contractViolation
  | illegalOperation
deriving DecidableEq, Repr

/-- The code of a fault in `STATUS.ERR` (R221). -/
def ErrCode.code : ErrCode → BitVec 4
  | .dimensionError => 1
  | .malformedStream => 2
  | .valueRange => 3
  | .blockOverflow => 4
  | .contractViolation => 5
  | .illegalOperation => 6

/-- `STATUS` from its fields, the reserved bits 0. -/
def statusOf (err : BitVec 4) (done busy : Bool) : Byte :=
  err ++ 0#2 ++ BitVec.ofBool done ++ BitVec.ofBool busy

/-- A write of `CMD` that starts an operation: `BUSY` 1, `DONE` 0 (R32). -/
def statusStart (st : Byte) : Byte := statusOf (errField st) false true

/-- An operation ends without fault: `BUSY` 0, `DONE` 1 (R32). -/
def statusDone (st : Byte) : Byte := statusOf (errField st) true false

/-- A fault (R226): `ERR` its code, `BUSY` 0, and `DONE` 0, as it is after every fault (R226; P6 of 95_test_vectors.md;
log 14). -/
def statusFault (e : ErrCode) : Byte := statusOf e.code false false

/-- Has a fault been recorded (R227)? -/
def State.faulted (s : State) : Bool := errField s.status != 0

end Sys2Proof.Machine
end

