-- ==== Sys2Proof/Machine/Cosines.lean ====
section
/-! DEFINITION. The cosines of R122 as printed, how far an implementation's constants may lie from them, and exact arithmetic
on sums of rational multiples of them. -/

namespace Sys2Proof.Machine

/-- `c_j = cos(j·π/16)` for `j = 0 .. 7`, as R122 prints them. -/
def basisDigits : Vector Rat 8 :=
  #v[1, mkRat 98078528040323043 (10 ^ 17), mkRat 92387953251128674 (10 ^ 17), mkRat 83146961230254524 (10 ^ 17),
    mkRat 70710678118654752 (10 ^ 17), mkRat 55557023301960229 (10 ^ 17), mkRat 38268343236508984 (10 ^ 17),
    mkRat 19509032201612833 (10 ^ 17)]

/-- The sign and the `j` of `cb(u, x) = ± c_j` for `n = (2x+1)·u`: the table of R122. -/
def basisIndex (n : Nat) : Bool × Nat :=
  let m := n % 32
  if m ≤ 8 then (false, m) else if m ≤ 16 then (true, 16 - m) else if m ≤ 24 then (true, m - 16) else (false, 32 - m)

/-- `cb(u, x)` as R122 prints it. -/
def basisValue (u x : Nat) : Rat :=
  let (negative, j) := basisIndex ((2 * x + 1) * u)
  if negative then -basisDigits[j]?.getD 0 else basisDigits[j]?.getD 0

/-- How far an implementation's `cb(u, x)` may lie from R122's value. DESIGN CHOICE (log 5): R14, D5 and N7 leave open the
order in which the argument is evaluated and the cosine routine; every order of `(2x+1)·u·π/16` and the printed digits
lie inside, with room for the routine's own last digits. -/
def basisTolerance (u x : Nat) : Rat := (((2 * x + 1) * u + 8 : Nat) : Rat) * pow2 (-53)

/-- `1/sqrt(2)` as R121 prints it. -/
def normValue : Rat := mkRat 70710678118654752 (10 ^ 17)

/-! ### Sums of rational multiples of the cosines

`cos(a) * cos(b) = (cos(a - b) + cos(a + b)) / 2` makes them closed under multiplication, and every constant of the transforms
is one: `C(0) = 1/sqrt(2) = c_4`. -/

/-- The factor of `c_j`. -/
def coeff (p : CosSum) (j : Nat) : Rat := p[j]?.getD 0

/-- The rational number `q`. -/
def cosRational (q : Rat) : CosSum := Vector.ofFn fun k => if k.val = 0 then q else 0

/-- `cos(n·π/16)`; `c_8` is 0. -/
def cosUnit (n : Nat) : CosSum :=
  Vector.ofFn fun k => if k.val = (basisIndex n).2 then (if (basisIndex n).1 then -1 else 1) else 0

def cosAdd (p q : CosSum) : CosSum := Vector.zipWith (· + ·) p q

def cosScale (r : Rat) (p : CosSum) : CosSum := p.map (r * ·)

/-- The terms of a sum that are not zero: each factor with the number of its cosine. -/
def cosTerms (p : CosSum) : List (Rat × Nat) :=
  ((List.range 8).map fun j => (coeff p j, j)).filter fun t => t.1 ≠ 0

/-- The sum of the sums that `f` gives for the terms of `p`. -/
def cosFlatMap (p : CosSum) (f : Rat → Nat → CosSum) : CosSum :=
  (cosTerms p).foldl (fun sum t => cosAdd sum (f t.1 t.2)) (cosRational 0)

/-- `c_i * c_j`. -/
def cosUnitMul (i j : Nat) : CosSum := cosScale (1 / 2) (cosAdd (cosUnit (max i j - min i j)) (cosUnit (i + j)))

def cosMul (p q : CosSum) : CosSum :=
  cosFlatMap p fun a i => cosFlatMap q fun b j => cosScale (a * b) (cosUnitMul i j)

/-- `p` with `π/16` replaced by `k·π/16`: for odd `k` a conjugate of `p`. -/
def cosConjugate (k : Nat) (p : CosSum) : CosSum := cosFlatMap p fun a j => cosScale a (cosUnit (k * j))

/-- `1 / p`, where `p` is not zero: the product of the other conjugates over the product of all of them, which is rational. -/
def cosInv (p : CosSum) : Option CosSum :=
  let others := [3, 5, 7, 9, 11, 13, 15].foldl (fun q k => cosMul q (cosConjugate k p)) (cosRational 1)
  let r := cosScale (1 / coeff (cosMul p others) 0) others
  if cosMul p r = cosRational 1 then some r else none

/-- The value of a sum with the cosines as R122 prints them. -/
def cosSumValue (p : CosSum) : Rat := ((List.range 8).map fun j => coeff p j * basisDigits[j]?.getD 0).sum

/-- The sum of the magnitudes of the factors. -/
def cosSumSize (p : CosSum) : Rat := ((List.range 8).map fun j => |coeff p j|).sum

/-- How far an implementation's value of a sum may lie from its value with R122's cosines. DESIGN CHOICE (log 5, log 6): room
for the correctly rounded value, and for the sum of the rounded terms. -/
def cosSumTolerance (p : CosSum) : Rat := 16 * cosSumSize p * pow2 (-53)

end Sys2Proof.Machine
end

