-- ==== Sys2Proof/Machine/Algorithms.lean ====
section
/-! DEFINITION. What R124 asks of another way to compute a sum of the transforms: that it is the same sum, and that it is
accurate enough for R133. -/

namespace Sys2Proof.Machine

/-- The exact value of a constant. -/
def exactConst : Const → CosSum
  | .lit num den => cosRational ((num : Rat) / (den : Rat))
  | .norm k => if k = 0 then cosUnit 4 else cosRational 1
  | .cosBasis u x => cosUnit ((2 * x + 1) * u)
  | .quarter => cosRational (1 / 4)
  | .eighth => cosRational (1 / 8)
  | .cosSum q => q

/-- What an expression of a transform is over the reals: a number, or a sum of multiples of operands. -/
inductive Linear where
  | number (p : CosSum)
  | multiples (terms : List (Nat × CosSum))
deriving DecidableEq, Repr

/-- The terms with `p` times operand `i` added. -/
def addTerm (i : Nat) (p : CosSum) : List (Nat × CosSum) → List (Nat × CosSum)
  | [] => [(i, p)]
  | (j, q) :: rest => if i = j then (j, cosAdd p q) :: rest else (j, q) :: addTerm i p rest

/-- The sum of two numbers or of two sums of multiples. A number is never added to multiples of operands: no term of the sums
of R123 and R125 is a number, and so an all-zero block gives an all-zero block whatever the rounding. -/
def Linear.add : Linear → Linear → Option Linear
  | .number p, .number q => some (.number (cosAdd p q))
  | .multiples ts, .multiples us => some (.multiples (us.foldr (fun t ws => addTerm t.1 t.2 ws) ts))
  | .number _, .multiples _ => none
  | .multiples _, .number _ => none

def Linear.scale (p : CosSum) : Linear → Linear
  | .number q => .number (cosMul p q)
  | .multiples ts => .multiples (ts.map fun t => (t.1, cosMul p t.2))

/-- The product, where one factor is a number. -/
def Linear.mul : Linear → Linear → Option Linear
  | .number p, b => some (b.scale p)
  | .multiples ts, .number q => some ((Linear.multiples ts).scale q)
  | .multiples _, .multiples _ => none

def Linear.isZero : Linear → Bool
  | .number p => p == cosRational 0
  | .multiples ts => ts.all fun t => t.2 == cosRational 0

/-- What an expression is over the reals, if it multiplies no operand by another and adds no number to one. -/
def linearOf : Expr → Option Linear
  | .operand i => some (.multiples [(i, cosRational 1)])
  | .const c => some (.number (exactConst c))
  | .neg a => (linearOf a).map (Linear.scale (cosRational (-1)))
  | .add a b => (linearOf a).bind fun l => (linearOf b).bind l.add
  | .sub a b => (linearOf a).bind fun l => (linearOf b).bind fun m => l.add (m.scale (cosRational (-1)))
  | .mul a b => (linearOf a).bind fun l => (linearOf b).bind l.mul
  | .div a c => (linearOf a).bind fun l => (cosInv (exactConst c)).map fun r => l.scale r
  | .fma a b c => ((linearOf a).bind fun l => (linearOf b).bind l.mul).bind fun l => (linearOf c).bind l.add

/-- Are two expressions "the same sums" (R124): the same linear form over the reals? Terms may have been added and cancelled,
and the identities between the cosines used. -/
def sameSums (e e' : Expr) : Bool := (linearOf (.sub e e')).any Linear.isZero

/-- What is known of a constant: a rational, and how far both its exact value and an implementation's may lie from it. -/
structure Known where
  value : Rat
  slack : Rat
deriving DecidableEq, Repr

/-- What is known of a constant that another way to compute a transform may use. -/
def constKnown : Const → Option Known
  | .lit num den =>
    if |num| ≤ 2 ^ 53 ∧ 0 < den ∧ den ≤ 2 ^ 53 then
      some ⟨(num : Rat) / (den : Rat), |(num : Rat) / (den : Rat)| * pow2 (-53)⟩
    else none
  | .norm k => if k = 0 then some ⟨normValue, 4 * pow2 (-53)⟩ else some ⟨1, 0⟩
  | .cosBasis u x => if u < 8 ∧ x < 8 then some ⟨basisValue u x, basisTolerance u x⟩ else none
  | .quarter => some ⟨1 / 4, 0⟩
  | .eighth => some ⟨1 / 8, 0⟩
  | .cosSum q => if pow2 (-500) ≤ cosSumSize q ∧ cosSumSize q ≤ pow2 500 then some ⟨cosSumValue q, cosSumTolerance q⟩ else none

/-- What is known of an expression: how large its exact value can be, and how far its binary64 value can lie from it. -/
structure Bound where
  size : Rat
  err : Rat
deriving DecidableEq, Repr

/-- The bound after one rounding to binary64; none where the value might overflow. -/
def Bound.rounded (b : Bound) : Option Bound :=
  if b.size + b.err ≤ pow2 1023 then some ⟨b.size, b.err + (b.size + b.err) * pow2 (-53) + pow2 (-1074)⟩ else none

/-- The bound of an exact sum, and of an exact difference. -/
def Bound.add (a b : Bound) : Bound := ⟨a.size + b.size, a.err + b.err⟩

/-- The bound of an exact product. -/
def Bound.mul (a b : Bound) : Bound := ⟨a.size * b.size, a.size * b.err + b.size * a.err + a.err * b.err⟩

/-- The bound of an exact quotient by a constant; none where the constant might be zero. -/
def Bound.div (a : Bound) (c : Known) : Option Bound :=
  let least := |c.value| - c.slack
  if 0 < least then some ⟨a.size / least, a.err / least + a.size * (2 * c.slack) / (least * least)⟩ else none

/-- The running error analysis of an expression, for operands up to `range` in magnitude. -/
def errorBound (range : Rat) : Expr → Option Bound
  | .operand _ => some ⟨range, 0⟩
  | .const c => (constKnown c).map fun k => ⟨|k.value| + k.slack, 2 * k.slack⟩
  | .neg a => (errorBound range a).bind Bound.rounded
  | .add a b => (errorBound range a).bind fun x => (errorBound range b).bind fun y => (x.add y).rounded
  | .sub a b => (errorBound range a).bind fun x => (errorBound range b).bind fun y => (x.add y).rounded
  | .mul a b => (errorBound range a).bind fun x => (errorBound range b).bind fun y => (x.mul y).rounded
  | .div a c => (errorBound range a).bind fun x => (constKnown c).bind fun k => (x.div k).bind Bound.rounded
  | .fma a b c =>
    (errorBound range a).bind fun x => (errorBound range b).bind fun y => (errorBound range c).bind fun z =>
      ((x.mul y).add z).rounded

/-- The samples for which R133 guarantees its tolerance: "at most 255.5". -/
def forwardRange : Rat := 511 / 2

/-- The coefficients of such samples: at most 2044 (R130), and what the forward transform may be off. -/
def inverseRange : Rat := 2045

/-- How far one element may be off for R133 to hold: the forward errors of a block grow at most eightfold through the inverse
transform, whose matrix is orthogonal (R126), and the inverse adds its own, so that nine of these stay within 1e-6. DESIGN
CHOICE (log 6): R133 states the two transforms' tolerance together. -/
def roundTripShare : Rat := mkRat 1 (10 ^ 7)

/-- Is an expression accurate enough for R133, on operands up to `range`? -/
def isAccurate (range : Rat) (e : Expr) : Bool := (errorBound range e).any fun b => b.err ≤ roundTripShare

/-- The magnitudes that the model takes as "far below the binary64 range" (R15), which ends at 2^1024: room for the sums of 64
terms. DESIGN CHOICE (log 6). -/
def wideRange : Rat := pow2 1000

/-- "Finite inputs produce finite outputs" (R15): on operands up to `wideRange` no value on the way overflows. -/
def staysFinite (e : Expr) : Bool := (errorBound wideRange e).isSome

end Sys2Proof.Machine
end

