-- ==== Sys2Proof/Machine/Formulas.lean ====
section
/-! DEFINITION. The real-valued formulas (R101, R104, R123, R125) in the evaluation order the rules print (R128), what counts as
another evaluation of the same formula (R14, R124), and the datapath of the machine. -/

namespace Sys2Proof.Machine

/-- The literal `num / den`. -/
def lit (num : Int) (den : Nat) : Expr := .const (.lit num den)

/-- The sum of a list of terms, accumulated from the left. -/
def sumExpr : List Expr → Expr
  | [] => lit 0 1
  | t :: ts => ts.foldl .add t

/-- The colour formulas exactly as printed: operands 0, 1, 2 are R, G, B going forward (R101) and Y, Cb, Cr going back
(R104). -/
def channelExpr : Channel → Expr
  | .y =>
    .add (.add (.mul (lit 299 1000) (.operand 0)) (.mul (lit 587 1000) (.operand 1))) (.mul (lit 114 1000) (.operand 2))
  | .cb =>
    .add (.add (.sub (.mul (lit (-168736) 1000000) (.operand 0)) (.mul (lit 331264 1000000) (.operand 1)))
      (.mul (lit 5 10) (.operand 2))) (lit 128 1)
  | .cr =>
    .add (.sub (.sub (.mul (lit 5 10) (.operand 0)) (.mul (lit 418688 1000000) (.operand 1)))
      (.mul (lit 81312 1000000) (.operand 2))) (lit 128 1)
  | .red => .add (.operand 0) (.mul (lit 14 10) (.sub (.operand 2) (lit 128 1)))
  | .green =>
    .sub (.sub (.operand 0) (.mul (lit 343 1000) (.sub (.operand 1) (lit 128 1))))
      (.mul (lit 711 1000) (.sub (.operand 2) (lit 128 1)))
  | .blue => .add (.operand 0) (.mul (lit 1765 1000) (.sub (.operand 1) (lit 128 1)))

/-- The term of `f[x][y]` in `F[u][v]` (R123, R128). -/
def dctFTerm (u v j : Nat) : Expr :=
  .mul (.mul (.const (.cosBasis u (j / 8))) (.const (.cosBasis v (j % 8)))) (.operand j)

/-- `F[u][v]` (R123) in the order of R128: `((C(u) * C(v)) * (2 / sqrt(64))) * s`. -/
def dctFExpr (u v : Nat) : Expr :=
  .mul (.mul (.mul (.const (.norm u)) (.const (.norm v))) (.const .quarter)) (sumExpr ((List.range 64).map (dctFTerm u v)))

/-- The term of `H[u][v]` in `f[x][y]` (R125, R128): `((2 * ((C(u) * C(v)) / sqrt(64))) * cb(u,x) * cb(v,y)) * H[u][v]`. -/
def dctITerm (x y j : Nat) : Expr :=
  .mul (.mul (.mul (.mul (lit 2 1) (.mul (.mul (.const (.norm (j / 8))) (.const (.norm (j % 8)))) (.const .eighth)))
    (.const (.cosBasis (j / 8) x))) (.const (.cosBasis (j % 8) y))) (.operand j)

/-- `f[x][y]` (R125) in the order of R128. -/
def dctIExpr (x y : Nat) : Expr := sumExpr ((List.range 64).map (dctITerm x y))

/-- The reference evaluation of each formula. -/
def refExpr : Site → Expr
  | .pixel ch => channelExpr ch
  | .dctF u v => dctFExpr u v
  | .dctI x y => dctIExpr x y

/-- The value of an expression. -/
def evalExpr {α : Type} (N : Num α) (const : Const → α) (operand : Nat → α) : Expr → α
  | .operand i => operand i
  | .const c => const c
  | .neg a => N.sub (N.ofInt 0) (evalExpr N const operand a)
  | .add a b => N.add (evalExpr N const operand a) (evalExpr N const operand b)
  | .sub a b => N.sub (evalExpr N const operand a) (evalExpr N const operand b)
  | .mul a b => N.mul (evalExpr N const operand a) (evalExpr N const operand b)
  | .div a c => N.div (evalExpr N const operand a) (const c)
  | .fma a b c => N.fma (evalExpr N const operand a) (evalExpr N const operand b) (evalExpr N const operand c)

/-- A factor of a product: an operand, a constant, one over a constant, or the difference `operand i - c` that R104 prints in
parentheses. -/
inductive Factor where
  | operand (i : Nat)
  | const (c : Const)
  | recip (c : Const)
  | offset (i : Nat) (c : Const)
deriving DecidableEq, Repr

/-- A signed product of factors. -/
structure Product where
  negative : Bool
  factors : List Factor
deriving DecidableEq, Repr

def Product.flip (p : Product) : Product := ⟨!p.negative, p.factors⟩

def Product.times (p q : Product) : Product := ⟨p.negative != q.negative, p.factors ++ q.factors⟩

/-- All products of one from each list. -/
def timesAll (ps qs : List Product) : List Product := ps.flatMap fun p => qs.map p.times

/-- The signed products that an expression adds up when it is multiplied out. Nothing is merged or cancelled, and the
difference of an operand and a constant stays one factor. -/
def expandExpr : Expr → List Product
  | .operand i => [⟨false, [.operand i]⟩]
  | .const c => [⟨false, [.const c]⟩]
  | .neg a => (expandExpr a).map Product.flip
  | .add a b => expandExpr a ++ expandExpr b
  | .sub (.operand i) (.const c) => [⟨false, [.offset i c]⟩]
  | .sub a b => expandExpr a ++ (expandExpr b).map Product.flip
  | .mul a b => timesAll (expandExpr a) (expandExpr b)
  | .div a c => timesAll (expandExpr a) [⟨false, [.recip c]⟩]
  | .fma a b c => timesAll (expandExpr a) (expandExpr b) ++ expandExpr c

/-- The same product, its factors in any order. -/
def Product.same (p q : Product) : Bool := p.negative == q.negative && p.factors.isPerm q.factors

/-- The list without its first product that is the same as `p`, if there is one. -/
def takeProduct (p : Product) : List Product → Option (List Product)
  | [] => none
  | q :: qs => if p.same q then some qs else (takeProduct p qs).map (q :: ·)

/-- The same products, each as often, in any order. -/
def sameProducts : List Product → List Product → Bool
  | [], qs => qs.isEmpty
  | p :: ps, qs =>
    match takeProduct p qs with
    | some qs' => sameProducts ps qs'
    | none => false

/-- Is `e` an evaluation of the formula of a site "in some order" (R14)? It is when it adds up the products that the printed
formula adds up: additions and multiplications in any order and grouping, fused or not; no term added, dropped or
cancelled. In the colour formulas no two products share a factor and `Cb - 128`, `Cr - 128` are computed as such, so nothing
is multiplied out or taken out (log 4). -/
def isRearrangement (site : Site) (e : Expr) : Bool := sameProducts (expandExpr e) (expandExpr (refExpr site))

/-- May an implementation evaluate the sum of a transform as `e` does? R124: it may compute "the same sums in any other way",
in any order (R14), by rows and columns, by whatever identities between the cosines, "as long as the result meets rule R133"
on operands up to `range`; and finite samples far below the binary64 range give finite results (R15; log 6). The printed order
of R128 may always be used. -/
def isTransform (range : Rat) (site : Site) (e : Expr) : Bool :=
  e == refExpr site || (sameSums e (refExpr site) && isAccurate range e && staysFinite e)

/-- May an implementation evaluate the formula of a site as `e` does? The colour formulas in any order (R14), the sums of the
transforms in any other way too (R124). -/
def isEvaluation (site : Site) (e : Expr) : Bool :=
  match site with
  | .pixel _ => isRearrangement site e
  | .dctF _ _ => isTransform forwardRange site e
  | .dctI _ _ => isTransform inverseRange site e

/-- The constants as R128 computes them. -/
def refConst {α : Type} (N : Num α) : Const → α
  | .lit num den => N.div (N.ofInt num) (N.ofInt den)
  | .norm k => if k = 0 then N.div (N.ofInt 1) (N.sqrt (N.ofInt 2)) else N.ofInt 1
  | .cosBasis u x => N.cos (N.div (N.mul (N.ofInt (((2 * x + 1) * u : Nat) : Int)) N.pi) (N.ofInt 16))
  | .quarter => N.div (N.ofInt 2) (N.sqrt (N.ofInt 64))
  | .eighth => N.div (N.ofInt 1) (N.sqrt (N.ofInt 64))
  | .cosSum q =>
    (List.range 8).foldl (fun sum j =>
      N.add sum (N.mul (N.div (N.ofInt (coeff q j).num) (N.ofInt (coeff q j).den))
        (N.cos (N.div (N.mul (N.ofInt j) N.pi) (N.ofInt 16))))) (N.ofInt 0)

/-- The constants of the machine: the rational ones as R128 computes them; the irrational ones free near the values that
R121 and R122 print, and R128's where the free value is not near (DESIGN CHOICE, log 5). Another constant of a transform
(R124) is free near its value likewise, and its rounded value where the free one is not near. -/
def machineConst : Const → Real64
  | .lit num den => refConst b64 (.lit num den)
  | .norm k =>
    if k = 0 then nearOr normValue (4 * pow2 (-53)) Config.freeNorm (refConst b64 (.norm 0)) else refConst b64 (.norm k)
  | .cosBasis u x =>
    if u = 0 then refConst b64 (.cosBasis u x)
    else nearOr (basisValue u x) (basisTolerance u x) (Config.freeCosine u x) (refConst b64 (.cosBasis u x))
  | .quarter => refConst b64 .quarter
  | .eighth => refConst b64 .eighth
  | .cosSum q =>
    nearOr (cosSumValue q) (cosSumTolerance q) (Config.freeCosSum q) (round64 (cosSumValue q))

/-- The evaluation the machine uses at a site: the free one where it is an evaluation of the site's formula. -/
def machineExpr (site : Site) : Expr :=
  if isEvaluation site (Config.freeExpr site) then Config.freeExpr site else refExpr site

/-- The value of a constant block, if the operands are one. -/
def constantBlock (operand : Nat → Real64) : Option Rat :=
  match operand 0 with
  | .fin c => if (List.range 64).all fun j => operand j == .fin c then some c else none
  | .inf _ => none
  | .nan => none

/-- How large a coefficient other than `F[0][0]` may come out on a constant block: R129 says "around 1e-13 or less". DESIGN
CHOICE (log 31): R128's own order reaches 1.4e-12, and other orders of R14 reach 3.2e-12. -/
def flatBound : Rat := mkRat 5 (10 ^ 12)

/-- The value that an implementation may have for a site's formula: `v`, but where R129 excludes it, on a constant block of a
sample up to 255, the exact value 0. -/
def admitValue (site : Site) (operand : Nat → Real64) (v : Real64) : Real64 :=
  match site with
  | .pixel _ => v
  | .dctF u w =>
    match constantBlock operand with
    | none => v
    | some c => if (u = 0 ∧ w = 0) ∨ 255 < |c| then v else nearZero flatBound v
  | .dctI _ _ => v

/-- A numeric datapath: the parameter `NUM` of R10 with the choices R14 leaves to it, and what the rules say of its values
beyond that. -/
structure Datapath (α : Type) where
  num : Num α
  expr : Site → Expr
  const : Const → α
  permit : Site → (Nat → α) → α → α

/-- The datapath of the machine: binary64, in an order and with last bits that are not known (R14, R127), within R129. -/
def machineDatapath : Datapath Real64 := ⟨b64, machineExpr, machineConst, admitValue⟩

/-- The reference datapath of R128, for running tests. -/
def referenceDatapath : Datapath Real64 := ⟨b64, refExpr, refConst b64, fun _ _ v => v⟩

/-- The value of a site's formula on a datapath. -/
def evalSite {α : Type} (D : Datapath α) (site : Site) (operand : Nat → α) : α :=
  D.permit site operand (evalExpr D.num D.const operand (D.expr site))

/-- The settings a unit works with: its datapath and the parameters. -/
structure Setting where
  datapath : Datapath Real64
  params : Params

end Sys2Proof.Machine
end

