-- ==== Sys2Proof/Machine/Tables.lean ====
section
/-! DEFINITION. The constant tables of 30_encoding.md and the parameter values of R10. No operation writes them (R24). -/

namespace Sys2Proof.Machine

/-- `ZZ` (R84): the row-major index of each scan position. -/
def zz : Vector Nat 64 :=
  #v[ 0,  1,  8, 16,  9,  2,  3, 10,
     17, 24, 32, 25, 18, 11,  4,  5,
     12, 19, 26, 33, 40, 48, 41, 34,
     27, 20, 13,  6,  7, 14, 21, 28,
     35, 42, 49, 56, 57, 50, 43, 36,
     29, 22, 15, 23, 30, 37, 44, 51,
     58, 59, 52, 45, 38, 31, 39, 46,
     53, 60, 61, 54, 47, 55, 62, 63]

/-- `ZZINV` (R85): the scan position of each row-major index. -/
def zzinv : Vector Nat 64 :=
  #v[ 0,  1,  5,  6, 14, 15, 27, 28,
      2,  4,  7, 13, 16, 26, 29, 42,
      3,  8, 12, 17, 25, 30, 41, 43,
      9, 11, 18, 24, 31, 40, 44, 53,
     10, 19, 23, 32, 39, 45, 52, 54,
     20, 22, 33, 38, 46, 51, 55, 60,
     21, 34, 37, 47, 50, 56, 59, 61,
     35, 36, 48, 49, 57, 58, 62, 63]

/-- The default of `QT_LUMA` (R86). -/
def qtLumaDefault : Vector Nat 64 :=
  #v[16, 11, 10, 16,  24,  40,  51,  61,
     12, 12, 14, 19,  26,  58,  60,  55,
     14, 13, 16, 24,  40,  57,  69,  56,
     14, 17, 22, 29,  51,  87,  80,  62,
     18, 22, 37, 56,  68, 109, 103,  77,
     24, 35, 55, 64,  81, 104, 113,  92,
     49, 64, 78, 87, 103, 121, 120, 101,
     72, 92, 95, 98, 112, 100, 103,  99]

/-- The default of `QT_CHROMA` (R87). -/
def qtChromaDefault : Vector Nat 64 :=
  #v[17, 18, 24, 47, 99, 99, 99, 99,
     18, 21, 26, 66, 99, 99, 99, 99,
     24, 26, 56, 99, 99, 99, 99, 99,
     47, 66, 99, 99, 99, 99, 99, 99,
     99, 99, 99, 99, 99, 99, 99, 99,
     99, 99, 99, 99, 99, 99, 99, 99,
     99, 99, 99, 99, 99, 99, 99, 99,
     99, 99, 99, 99, 99, 99, 99, 99]

/-- The values that the spec takes for the open parameters (R10; D6, D7, D8, D10, D12, D19, D21 of 92_eei_decisions.md;
log 8). -/
def specParams : Params where
  roundTie := .halfEven
  cast8 := .trunc
  qtLuma := qtLumaDefault
  qtChroma := qtChromaDefault
  legacyDequant := false
  valueWrap := false
  partition := .linear
  oddDim := .fault

/-- The table of the forward quantizer (R136). -/
def forwardTable (P : Params) : Plane → Vector Nat 64
  | .luma => P.qtLuma
  | .chroma => P.qtChroma

/-- The table of the inverse quantizer (R138, R139). -/
def inverseTable (P : Params) : Plane → Vector Nat 64
  | .luma => P.qtLuma
  | .chroma => if P.legacyDequant then P.qtLuma else P.qtChroma

end Sys2Proof.Machine
end

