-- ==== Sys2Proof/Machine/Ops.lean ====
section
/-! DEFINITION. The shared operations: memory reads and writes, the end of an operation, taking a fault (R226), reset (R251), and
the loops of the units over ascending indices. -/

namespace Sys2Proof.Machine

/-- The settings of the machine. -/
def machineSetting : Setting := ⟨machineDatapath, specParams⟩

/-- The settings for running tests: the reference order of R128. -/
def referenceSetting : Setting := ⟨referenceDatapath, specParams⟩

/-! ### Memories -/

/-- What an address holds; `none` is no value. -/
def Mem.read {α : Type} : Mem α → Nat → Option α
  | [], _ => none
  | (a, v) :: m, i => if a = i then some v else Mem.read m i

/-- A write of one element, in canonical form. -/
def Mem.write {α : Type} : Mem α → Nat → α → Mem α
  | [], i, x => [(i, x)]
  | (a, v) :: m, i, x => if i < a then (i, x) :: (a, v) :: m else if i = a then (i, x) :: m else (a, v) :: Mem.write m i x

/-- The memory that holds a list's elements from address `a` on, and no value where the list has none. -/
def Mem.place {α : Type} : Nat → List (Option α) → Mem α
  | _, [] => []
  | a, some v :: vs => (a, v) :: Mem.place (a + 1) vs
  | a, none :: vs => Mem.place (a + 1) vs

/-- The memory that holds exactly a list's elements, from address 0 on. -/
def Mem.ofList {α : Type} (vs : List α) : Mem α := Mem.place 0 (vs.map some)

/-- The canonical form: addresses strictly rising. -/
abbrev Mem.wf {α : Type} (m : Mem α) : Prop := (m.map Prod.fst).Pairwise (· < ·)

/-! ### What an operation can come to -/

/-- What a piece of an operation's pseudocode comes to: a value, a fault raised (R16, R226), or no meaning. -/
inductive Attempt (α : Type) where
  | ok (a : α)
  | raised (e : ErrCode) (info : Nat)
  | refused (r : Refusal)
deriving DecidableEq, Repr

def Attempt.bind {α β : Type} (x : Attempt α) (f : α → Attempt β) : Attempt β :=
  match x with
  | .ok a => f a
  | .raised e info => .raised e info
  | .refused r => .refused r

def Attempt.map {α β : Type} (f : α → β) (x : Attempt α) : Attempt β := x.bind fun a => .ok (f a)

/-- `for i in start .. start + n - 1`, ascending, ending at the first element that raises or is refused (R16, R231). -/
def forEach {α : Type} (f : Nat → Attempt α) : Nat → Nat → Attempt (List α)
  | _, 0 => .ok []
  | start, n + 1 => (f start).bind fun a => (forEach f (start + 1) n).map (a :: ·)

/-! ### Start, end, fault and reset -/

/-- The write of `CMD` that starts an operation (R29, R32). -/
def State.start (s : State) (w : Byte) : State := { s with cmd := w, status := statusStart s.status }

/-- An operation has ended without fault: `STATUS.DONE` (R32), and `OPIDX` advances (R28, log 11). -/
def State.complete (s : State) : State := { s with status := statusDone s.status, opidx := s.opidx + 1 }

/-- TAKING A FAULT, `raise e(info)` (R226): the code and the detail are recorded, and the invocation is over, so the steps
still pending are dropped. There is no handler, no saved program counter and no return (R227). What the fault makes of the
operation's results is said where it is raised. -/
def State.raise (s : State) (e : ErrCode) (info : Nat) : State :=
  { s with status := statusFault e, errinfo := info, pending := [] }

/-- What a register that reset does not write holds after reset number `n`: what it held, or a free value (R251; log 3). -/
def afterReset {α : Type} (register : Unwritten) (n : Nat) (old fresh : α) : α :=
  if Config.survives register n then old else fresh

/-- The same for a register that may hold no value, which a reset does not give it back. -/
def afterResetOption {α : Type} (register : Unwritten) (n : Nat) (old : Option α) (fresh : α) : Option α :=
  some (afterReset register n (old.getD fresh) fresh)

/-- A later reset (R250, R251), between two steps: what R38 sets is as in `State.reset`; the registers that reset does not
write hold what they held or a free value, and the memories no value (log 2, log 3); what the host has asked for since is
not the block's. -/
def State.applyReset (s : State) : State :=
  let n := s.resets + 1
  { State.reset with
    blk := afterReset .blk n s.blk (freshBlock (Config.resetBlk n))
    seq := afterResetOption .seq n s.seq (freshBlock (Config.resetSeq n))
    sym := afterReset .sym n s.sym (Config.resetSym n)
    width := afterResetOption .width n s.width (Config.resetWidth n)
    height := afterResetOption .height n s.height (Config.resetHeight n)
    len := afterResetOption .len n s.len (Config.resetLen n)
    resets := n
    inbox := s.inbox }

/-- The end of an operation: its result is written and the operation completes; or it raises a fault and leaves `void`, the
state with its results holding no value (R226); or it has no meaning. -/
def Attempt.settle {α : Type} (x : Attempt α) (void : State) (result : α → State) : Host.Outcome State Fault Refusal :=
  match x with
  | .ok a => .next (result a).complete
  | .raised e info => .next (void.raise e info)
  | .refused r => .refused r

end Sys2Proof.Machine
end

