-- ==== Sys2Proof/Machine/Operands.lean ====
section
/-! DEFINITION. How operations read their operands (R71): buffers and plane elements must hold a value (U12) that is finite (R15);
and the two encodings of operands in bytes, big-endian pairs (R56) and signed values (R77). -/

namespace Sys2Proof.Machine

/-- `be16` (R16). -/
def be16 (b0 b1 : Byte) : Nat := 256 * b0.toNat + b1.toNat

/-- The big-endian bytes of a 16-bit register (R56). -/
def hiByte (x : Half) : Byte := x.extractLsb' 8 8

def loByte (x : Half) : Byte := x.extractLsb' 0 8

/-- `encodeValue` (R77): `v mod 256`. -/
def encodeValue (v : Int) : Byte := BitVec.ofInt 8 v

/-- `decodeValue` (R77): `sext_8` of R12. -/
def decodeValue (b : Byte) : Int := if b.toNat ≤ 127 then b.toNat else (b.toNat : Int) - 256

/-- The index of the first value that is not finite. -/
def firstNonFinite (vs : List Real64) : Option Nat := vs.findIdx? fun v => !v.isFinite

/-- Read `BLK` as an operand: all 64 elements finite (R15). -/
def State.withBlk (s : State) (f : Block → Host.Outcome State Fault Refusal) : Host.Outcome State Fault Refusal :=
  match firstNonFinite s.blk.toList with
  | some i => .refused (.nonFinite .blk i)
  | none => f s.blk

/-- Read `SEQ` as an operand: it holds a value (U11) and all 64 elements are finite (R15). -/
def State.withSeq (s : State) (f : Block → Host.Outcome State Fault Refusal) : Host.Outcome State Fault Refusal :=
  match s.seq with
  | none => .refused (.noValue .seq 0)
  | some v =>
    match firstNonFinite v.toList with
    | some i => .refused (.nonFinite .seq i)
    | none => f v

/-- Read `WIDTH` and `HEIGHT` (R30). -/
def State.withDims (s : State) (f : Half → Half → Host.Outcome State Fault Refusal) : Host.Outcome State Fault Refusal :=
  match s.width with
  | none => .refused (.noValue .width 0)
  | some w =>
    match s.height with
    | none => .refused (.noValue .height 0)
    | some h => f w h

/-- Read `BLKLIST` (R55). -/
def State.withBlkList (s : State) (f : List Record → Host.Outcome State Fault Refusal) : Host.Outcome State Fault Refusal :=
  match s.blkList with
  | none => .refused (.noValue .blkList 0)
  | some l => f l

/-- Read `LEN` (R31). -/
def State.withLen (s : State) (f : Nat → Host.Outcome State Fault Refusal) : Host.Outcome State Fault Refusal :=
  match s.len with
  | none => .refused (.noValue .len 0)
  | some n => f n

/-- The index of the first of the first `n` elements of a plane that holds a value which is not finite. -/
def Mem.firstNonFinite (m : Mem Real64) (n : Nat) : Option Nat :=
  (List.range n).find? fun i => (m.read i).any fun v => !v.isFinite

/-- Take the first `n` elements of a plane as an operand: every value that they hold is finite (R15), also one that the
operation then drops. -/
def withPlane (place : Place) (m : Mem Real64) (n : Nat) (next : Host.Outcome State Fault Refusal) :
    Host.Outcome State Fault Refusal :=
  match m.firstNonFinite n with
  | some i => .refused (.nonFinite place i)
  | none => next

/-- Read element `i` of a plane: it holds a value (U12). -/
def readReal (place : Place) (m : Mem Real64) (i : Nat) : Attempt Real64 :=
  match m.read i with
  | none => .refused (.noValue place i)
  | some v => .ok v

/-- Read byte `i` of a byte memory. -/
def readByte (place : Place) (m : ByteMem) (i : Nat) : Attempt Byte :=
  match Mem.read m i with
  | none => .refused (.noValue place i)
  | some b => .ok b

/-- Element `j` of a 64-element buffer. -/
def elem {α : Type} (N : Num α) (v : Vector α 64) (j : Nat) : α := if h : j < 64 then v[j] else N.ofInt 0

end Sys2Proof.Machine
end

