-- ==== Sys2Proof/Machine/Chroma.lean ====
section
/-! DEFINITION. The chroma samplers, `CDOWN2` and `CUP2` (41_chroma.md). -/

namespace Sys2Proof.Machine

/-- `CDOWN2` on one plane (R111): sample `k = j * hw + i` of the half plane is the top-left sample of its 2x2 block; the
others need hold no value (log 21). -/
def decimate (place : Place) (full : Mem Real64) (w h : Nat) : Attempt (List Real64) :=
  forEach (fun k => readReal place full (2 * (k / (w / 2)) * w + 2 * (k % (w / 2)))) 0 ((w / 2) * (h / 2))

/-- `CDOWN2` (R111): both chroma planes, `w * h` reals each; the half planes are written whole (log 17). -/
def unitCdown2 (s : State) : Host.Outcome State Fault Refusal :=
  s.withDims fun w h =>
    withPlane .planeCb s.planeCb (w.toNat * h.toNat) <|
    withPlane .planeCr s.planeCr (w.toNat * h.toNat) <|
    ((decimate .planeCb s.planeCb w.toNat h.toNat).bind fun cb =>
      (decimate .planeCr s.planeCr w.toNat h.toNat).map fun cr => (cb, cr)).settle s fun halves =>
        { s with planeCbh := Mem.ofList halves.1, planeCrh := Mem.ofList halves.2 }

/-- The half-plane sample that `CUP2` copies to element `i = y * w + x` of the full plane: none for the odd last column and
row under `ODD_DIM_POLICY = fault` (R114, R115), the last one under `replicate` (R116). -/
def upsampleSource (P : Params) (w h i : Nat) : Option Nat :=
  let hw := w / 2
  let hh := h / 2
  let x := i % w
  let y := i / w
  match P.oddDim with
  | .fault => if x < 2 * hw ∧ y < 2 * hh then some (y / 2 * hw + x / 2) else none
  | .replicate => if 1 ≤ hw ∧ 1 ≤ hh then some (min (y / 2) (hh - 1) * hw + min (x / 2) (hw - 1)) else none

/-- `CUP2` on one plane: the elements of the full plane, with none for an element that is left holding no value. -/
def replicate (P : Params) (place : Place) (half : Mem Real64) (w h : Nat) : Attempt (List (Option Real64)) :=
  forEach (fun i =>
    match upsampleSource P w h i with
    | none => .ok none
    | some k => (readReal place half k).map some) 0 (w * h)

/-- `CUP2` (R114): both chroma planes, each first marked as holding no value. -/
def unitCup2 (P : Params) (s : State) : Host.Outcome State Fault Refusal :=
  s.withDims fun w h =>
    withPlane .planeCbh s.planeCbh (w.toNat / 2 * (h.toNat / 2)) <|
    withPlane .planeCrh s.planeCrh (w.toNat / 2 * (h.toNat / 2)) <|
    ((replicate P .planeCbh s.planeCbh w.toNat h.toNat).bind fun cb =>
      (replicate P .planeCrh s.planeCrh w.toNat h.toNat).map fun cr => (cb, cr)).settle s fun fulls =>
        { s with planeCb := Mem.place 0 fulls.1, planeCr := Mem.place 0 fulls.2 }

/-- `CDOWN2` on the machine. -/
def execCdown2 (s : State) : Host.Outcome State Fault Refusal := unitCdown2 s

/-- `CUP2` on the machine. -/
def execCup2 (s : State) : Host.Outcome State Fault Refusal := unitCup2 specParams s

end Sys2Proof.Machine
end

