-- ==== Sys2Proof/Machine/Color.lean ====
section
/-! DEFINITION. The colour-space converters, `RGB2YCC` and `YCC2RGB` (40_color.md). -/

namespace Sys2Proof.Machine

/-- The three operands of a pixel's formula, numbered 0, 1, 2. -/
def three {α : Type} (a b c : α) (i : Nat) : α := if i = 0 then a else if i = 1 then b else c

/-- One channel of a pixel (R101, R104): a function of the pixel's three values alone (R100). -/
def channelValue {α : Type} (D : Datapath α) (ch : Channel) (a b c : α) : α :=
  evalSite D (.pixel ch) (three a b c)

/-- The bytes of a pixel of `RASTER`: red, green, blue (R51). -/
def readPixel (m : ByteMem) (i : Nat) : Attempt (Byte × Byte × Byte) :=
  (readByte .raster m (3 * i)).bind fun r =>
  (readByte .raster m (3 * i + 1)).bind fun g =>
  (readByte .raster m (3 * i + 2)).map fun b => (r, g, b)

/-- A byte as the non-negative real 0..255 (R102). -/
def byteReal {α : Type} (N : Num α) (b : Byte) : α := N.ofInt b.toNat

/-- The samples of one channel for a list of pixels (R102). -/
def channelPlane {α : Type} (D : Datapath α) (ch : Channel) (pixels : List (Byte × Byte × Byte)) : List α :=
  pixels.map fun p => channelValue D ch (byteReal D.num p.1) (byteReal D.num p.2.1) (byteReal D.num p.2.2)

/-- `RGB2YCC` (R102): the three planes are written whole (log 17). -/
def unitRgb2ycc (M : Setting) (s : State) : Host.Outcome State Fault Refusal :=
  s.withDims fun w h =>
    (forEach (readPixel s.raster) 0 (w.toNat * h.toNat)).settle s fun pixels =>
      { s with
        planeY := Mem.ofList (channelPlane M.datapath .y pixels)
        planeCb := Mem.ofList (channelPlane M.datapath .cb pixels)
        planeCr := Mem.ofList (channelPlane M.datapath .cr pixels) }

/-- `clamp(v, lo, hi) = max(lo, min(hi, v))` (R12). -/
def clamp {α : Type} (N : Num α) (v lo hi : α) : α :=
  let m := if N.le hi v then hi else v
  if N.le m lo then lo else m

/-- `cast8` (R106): clamp, then the cast of `CAST8`. -/
def cast8 {α : Type} (N : Num α) (P : Params) (v : α) : Int :=
  match P.cast8 with
  | .trunc => N.trunc (clamp N v (N.ofInt 0) (N.ofInt 255))
  | .round => N.rnd P.roundTie (clamp N v (N.ofInt 0) (N.ofInt 255))

/-- One reconstructed channel as a byte (R105, R106). -/
def channelByte (M : Setting) (ch : Channel) (y cb cr : Real64) : Byte :=
  BitVec.ofInt 8 (cast8 M.datapath.num M.params (channelValue M.datapath ch y cb cr))

/-- The body of the loop of `YCC2RGB` (R105): chroma that holds no value raises `ContractViolation(i)` (R108). -/
def ycc2rgbPixel (M : Setting) (s : State) (i : Nat) : Attempt (List Byte) :=
  match s.planeCb.read i, s.planeCr.read i with
  | some cb, some cr =>
    (readReal .planeY s.planeY i).map fun y =>
      [channelByte M .red y cb cr, channelByte M .green y cb cr, channelByte M .blue y cb cr]
  | _, _ => .raised .contractViolation i

/-- `YCC2RGB` (R105): `RASTER` is written whole (log 17), or holds no value after a fault (R226). -/
def unitYcc2rgb (M : Setting) (s : State) : Host.Outcome State Fault Refusal :=
  s.withDims fun w h =>
    withPlane .planeY s.planeY (w.toNat * h.toNat) <|
    withPlane .planeCb s.planeCb (w.toNat * h.toNat) <|
    withPlane .planeCr s.planeCr (w.toNat * h.toNat) <|
    (forEach (ycc2rgbPixel M s) 0 (w.toNat * h.toNat)).settle { s with raster := [] } fun pixels =>
      { s with raster := Mem.ofList pixels.flatten }

/-- `RGB2YCC` on the machine. -/
def execRgb2ycc (s : State) : Host.Outcome State Fault Refusal := unitRgb2ycc machineSetting s

/-- `YCC2RGB` on the machine. -/
def execYcc2rgb (s : State) : Host.Outcome State Fault Refusal := unitYcc2rgb machineSetting s

end Sys2Proof.Machine
end

