-- ==== Sys2Proof/Machine/Dct.lean ====
section
/-! DEFINITION. The block transform, `DCT8F` and `DCT8I` (42_dct.md). No level shift (R131). -/

namespace Sys2Proof.Machine

/-- `F[u][v]` for all `u`, `v`, from the old block (R123). -/
def dct8f {α : Type} (D : Datapath α) (f : Vector α 64) : Vector α 64 :=
  Vector.ofFn fun k => evalSite D (.dctF (k.val / 8) (k.val % 8)) (elem D.num f)

/-- `f[x][y]` for all `x`, `y`, from the old block (R125). -/
def dct8i {α : Type} (D : Datapath α) (H : Vector α 64) : Vector α 64 :=
  Vector.ofFn fun k => evalSite D (.dctI (k.val / 8) (k.val % 8)) (elem D.num H)

/-- `DCT8F` (R123). -/
def unitDct8f (M : Setting) (s : State) : Host.Outcome State Fault Refusal :=
  s.withBlk fun b => .next { s with blk := dct8f M.datapath b }.complete

/-- `DCT8I` (R125). -/
def unitDct8i (M : Setting) (s : State) : Host.Outcome State Fault Refusal :=
  s.withBlk fun b => .next { s with blk := dct8i M.datapath b }.complete

/-- `DCT8F` on the machine. -/
def execDct8f (s : State) : Host.Outcome State Fault Refusal := unitDct8f machineSetting s

/-- `DCT8I` on the machine. -/
def execDct8i (s : State) : Host.Outcome State Fault Refusal := unitDct8i machineSetting s

end Sys2Proof.Machine
end

