-- ==== Sys2Proof/Machine/Frame.lean ====
section
/-! DEFINITION. The bitstream frame writer and parser, `FWR` and `FPR` (45_bitstream.md), over the stream format of R74. -/

namespace Sys2Proof.Machine

/-- Can the writer encode the symbol (R173)? Its run fits a byte, its value fits the signed byte unless `VALUE_WRAP`, and its
two bytes are not the delimiter. -/
def encodable (P : Params) (sy : Symbol) : Bool :=
  sy.run ≤ 255 && (P.valueWrap || (-128 ≤ sy.value && sy.value ≤ 127)) && !(sy.run == 0 && sy.value % 256 == 0)

/-- The bytes that were written, and whether the writing came to its end. -/
structure Written where
  bytes : List Byte
  bad : Option Nat
deriving DecidableEq, Repr

/-- One record (R172): two bytes for each symbol, then the delimiter; up to the first symbol that cannot be encoded. `b` is
the block number. -/
def writeRecord (P : Params) (b : Nat) : Record → Written
  | [] => ⟨[0x00, 0x00], none⟩
  | sy :: rest =>
    if encodable P sy then
      let w := writeRecord P b rest
      ⟨BitVec.ofNat 8 sy.run :: encodeValue sy.value :: w.bytes, w.bad⟩
    else ⟨[], some b⟩

/-- The records of a block list in list order (R172), up to the first that cannot be encoded. -/
def writeRecords (P : Params) : Nat → List Record → Written
  | _, [] => ⟨[], none⟩
  | b, r :: rest =>
    let w := writeRecord P b r
    match w.bad with
    | some _ => w
    | none =>
      let w' := writeRecords P (b + 1) rest
      ⟨w.bytes ++ w'.bytes, w'.bad⟩

/-- The header (R56, R172). -/
def headerBytes (w h : Half) : List Byte := [hiByte w, loByte w, hiByte h, loByte h]

/-- `FWR` (R172): the stream is written whole (log 17); after `DimensionError` (R171) or `ValueRangeFault` (R173) `STREAM` and
`LEN` hold no value (R226). -/
def unitFwr (P : Params) (s : State) : Host.Outcome State Fault Refusal :=
  s.withDims fun w h =>
  s.withBlkList fun records =>
    let void := { s with stream := [], len := none }
    .next (
      if w = 0 then { void with work := { s.work with wptr := 0 } }.raise .dimensionError 1
      else if h = 0 then { void with work := { s.work with wptr := 0 } }.raise .dimensionError 2
      else
        let body := writeRecords P 0 records
        let bytes := headerBytes w h ++ body.bytes
        match body.bad with
        | some b => { void with work := { s.work with wptr := bytes.length } }.raise .valueRange b
        | none =>
          { s with
            stream := Mem.ofList bytes
            len := some bytes.length
            work := { s.work with wptr := bytes.length } }.complete)

/-- What the groups of a stream come to (R178): the closed records, and the symbols read since the last delimiter. -/
structure Parsed where
  records : List Record
  openSyms : Record
deriving DecidableEq, Repr

/-- The loop of `FPR` over two-byte groups (R178); `openSyms` is `OPEN`. The byte count is even when it is called (R177). -/
def parseGroups : List Byte → Record → Parsed
  | r :: v :: rest, openSyms =>
    if r = 0x00 ∧ v = 0x00 then
      let p := parseGroups rest []
      ⟨openSyms :: p.records, p.openSyms⟩
    else parseGroups rest (openSyms ++ [⟨r.toNat, decodeValue v⟩])
  | [_], openSyms => ⟨[], openSyms⟩
  | [], openSyms => ⟨[], openSyms⟩

/-- The whole of `FPR` (R178) on a stream memory: width, height and the parsed groups, or the first fault (R177, R231). -/
def parseStream (m : ByteMem) (len : Nat) : Attempt (Half × Half × Parsed) :=
  if len < 4 then .raised .malformedStream 1
  else
    (readByte .stream m 0).bind fun b0 =>
    (readByte .stream m 1).bind fun b1 =>
    (readByte .stream m 2).bind fun b2 =>
    (readByte .stream m 3).bind fun b3 =>
      if be16 b0 b1 = 0 then .raised .dimensionError 1
      else if be16 b2 b3 = 0 then .raised .dimensionError 2
      else if (len - 4) % 2 = 1 then .raised .malformedStream 2
      else
        (forEach (readByte .stream m) 4 (len - 4)).bind fun body =>
          let p := parseGroups body []
          if p.openSyms ≠ [] then .raised .malformedStream 3
          else .ok (BitVec.ofNat 16 (be16 b0 b1), BitVec.ofNat 16 (be16 b2 b3), p)

/-- `FPR` (R178): `WIDTH`, `HEIGHT` and `BLKLIST` are written at the end alone; after a fault they hold no value (R226, log 15).
`RPTR` ends at `LEN` and `OPEN` with what no delimiter closed. -/
def unitFpr (s : State) : Host.Outcome State Fault Refusal :=
  s.withLen fun n =>
    (parseStream s.stream n).settle { s with width := none, height := none, blkList := none } fun r =>
      { s with
        width := some r.1
        height := some r.2.1
        blkList := some r.2.2.records
        work := { s.work with rptr := n, openSyms := r.2.2.openSyms } }

/-- `FWR` on the machine. -/
def execFwr (s : State) : Host.Outcome State Fault Refusal := unitFwr specParams s

/-- `FPR` on the machine. -/
def execFpr (s : State) : Host.Outcome State Fault Refusal := unitFpr s

end Sys2Proof.Machine
end

