-- ==== Sys2Proof/Machine/Quantizer.lean ====
section
/-! DEFINITION. The quantizers, `QFWD` and `QINV` (43_quantizer.md). -/

namespace Sys2Proof.Machine

/-- `rnd` of a real, held as a real again (R136). A product that overflowed binary64 is kept as it is (log 7). -/
def roundReal {α : Type} (N : Num α) (tie : RoundTie) (x : α) : α := if N.isFinite x then N.ofInt (N.rnd tie x) else x

/-- `rnd(BLK[r][c] / T[r][c])` for all elements (R136). -/
def quantize {α : Type} (N : Num α) (tie : RoundTie) (T : Vector Nat 64) (b : Vector α 64) : Vector α 64 :=
  Vector.zipWith (fun x (t : Nat) => roundReal N tie (N.div x (N.ofInt t))) b T

/-- `rnd(BLK[r][c] * T[r][c])` for all elements (R138). -/
def dequantize {α : Type} (N : Num α) (tie : RoundTie) (T : Vector Nat 64) (b : Vector α 64) : Vector α 64 :=
  Vector.zipWith (fun x (t : Nat) => roundReal N tie (N.mul x (N.ofInt t))) b T

/-- `QFWD` (R136). -/
def unitQfwd (M : Setting) (plane : Plane) (s : State) : Host.Outcome State Fault Refusal :=
  s.withBlk fun b =>
    .next { s with blk := quantize M.datapath.num M.params.roundTie (forwardTable M.params plane) b }.complete

/-- `QINV` (R138). -/
def unitQinv (M : Setting) (plane : Plane) (s : State) : Host.Outcome State Fault Refusal :=
  s.withBlk fun b =>
    .next { s with blk := dequantize M.datapath.num M.params.roundTie (inverseTable M.params plane) b }.complete

/-- `QFWD` on the machine. -/
def execQfwd (plane : Plane) (s : State) : Host.Outcome State Fault Refusal := unitQfwd machineSetting plane s

/-- `QINV` on the machine. -/
def execQinv (plane : Plane) (s : State) : Host.Outcome State Fault Refusal := unitQinv machineSetting plane s

end Sys2Proof.Machine
end

