-- ==== Sys2Proof/Machine/Rle.lean ====
section
/-! DEFINITION. The run-length codec, `RLEE` and `RLED` (44_zigzag_rle.md). -/

namespace Sys2Proof.Machine

/-- The working state of rle_encoder (R35): `RUN`, `K` and the symbols appended so far. -/
structure Encoder where
  run : Nat
  k : Nat
  sym : Record
deriving DecidableEq, Repr

/-- The body of the loop of `RLEE` for one rounded value (R157). -/
def encoderStep (e : Encoder) (v : Int) : Encoder :=
  if v = 0 then ⟨e.run + 1, e.k + 1, e.sym⟩ else ⟨0, e.k + 1, e.sym ++ [⟨e.run, v⟩]⟩

/-- The loop of `RLEE` over rounded values, from the start values of R35. -/
def encodeRuns (vs : List Int) : Encoder := vs.foldl encoderStep ⟨0, 0, []⟩

/-- The rounded scan values (R156). -/
def roundedScan {α : Type} (N : Num α) (tie : RoundTie) (v : Vector α 64) : List Int := v.toList.map (N.rnd tie)

/-- `RLEE` (R157). -/
def unitRlee (M : Setting) (s : State) : Host.Outcome State Fault Refusal :=
  s.withSeq fun v =>
    let e := encodeRuns (roundedScan M.datapath.num M.params.roundTie v)
    .next { s with sym := e.sym, work := { s.work with run := e.run, k := e.k } }.complete

/-- What the loop of `RLED` comes to: `POS`, and the scan vector or the scan position asked for past 63 (R162). -/
structure Decoder (α : Type) where
  pos : Nat
  result : Except Nat (Vector α 64)

/-- The loop of `RLED` (R161): `POS` and the vector so far. -/
def decodeRuns {α : Type} (N : Num α) : Record → Nat → Vector α 64 → Decoder α
  | [], pos, v => ⟨pos, .ok v⟩
  | sy :: rest, pos, v =>
    if 63 < pos + sy.run then ⟨pos, .error (pos + sy.run)⟩
    else decodeRuns N rest (pos + sy.run + 1) (v.setIfInBounds (pos + sy.run) (N.ofInt sy.value))

/-- `RLED` from its start: 64 zeros and `POS` 0 (R161). -/
def decodeSymbols {α : Type} (N : Num α) (r : Record) : Decoder α := decodeRuns N r 0 (Vector.replicate 64 (N.ofInt 0))

/-- `RLED` (R161): `SEQ` and the fault `BlockOverflow` of R162, after which `SEQ` holds no value (R226). -/
def unitRled (N : Num Real64) (s : State) : Host.Outcome State Fault Refusal :=
  let d := decodeSymbols N s.sym
  let s' := { s with work := { s.work with pos := d.pos } }
  .next (match d.result with
    | .ok v => { s' with seq := some v }.complete
    | .error p => { s' with seq := none }.raise .blockOverflow p)

/-- `RLEE` on the machine. -/
def execRlee (s : State) : Host.Outcome State Fault Refusal := unitRlee machineSetting s

/-- `RLED` on the machine. -/
def execRled (s : State) : Host.Outcome State Fault Refusal := unitRled b64 s

end Sys2Proof.Machine
end

