-- ==== Sys2Proof/Machine/Zigzag.lean ====
section
/-! DEFINITION. The zig-zag scanner, `ZZF` and `ZZI` (44_zigzag_rle.md). -/

namespace Sys2Proof.Machine

/-- `SEQ[k] <- BLK[ZZ[k] div 8][ZZ[k] mod 8]` for all `k` (R151). -/
def scan {α : Type} (N : Num α) (b : Vector α 64) : Vector α 64 := Vector.ofFn fun k => elem N b zz[k]

/-- `BLK[ZZ[k] div 8][ZZ[k] mod 8] <- SEQ[k]` for `k = 0 .. 63` in order (R153); every element is written once, since `ZZ` is
a permutation (R84). -/
def unscan {α : Type} (N : Num α) (v : Vector α 64) : Vector α 64 :=
  (List.range 64).foldl (fun b k => b.setIfInBounds (zz[k]?.getD 0) (elem N v k)) (Vector.replicate 64 (N.ofInt 0))

/-- `ZZF` (R151). -/
def execZzf (s : State) : Host.Outcome State Fault Refusal :=
  s.withBlk fun b => .next { s with seq := some (scan b64 b) }.complete

/-- `ZZI` (R153). -/
def execZzi (s : State) : Host.Outcome State Fault Refusal :=
  s.withSeq fun v => .next { s with blk := unscan b64 v }.complete

end Sys2Proof.Machine
end

