-- ==== Sys2Proof/Machine/Dispatch.lean ====
section
/-! DEFINITION. The meaning of each operation (R71), one arm for each constructor of `Instr`. -/

namespace Sys2Proof.Machine

def exec (i : Instr) (s : State) : Host.Outcome State Fault Refusal :=
  match i with
  | .rgb2ycc => Sys2Proof.Machine.execRgb2ycc s
  | .ycc2rgb => Sys2Proof.Machine.execYcc2rgb s
  | .cdown2 => Sys2Proof.Machine.execCdown2 s
  | .cup2 => Sys2Proof.Machine.execCup2 s
  | .dct8f => Sys2Proof.Machine.execDct8f s
  | .dct8i => Sys2Proof.Machine.execDct8i s
  | .qfwd plane => Sys2Proof.Machine.execQfwd plane s
  | .qinv plane => Sys2Proof.Machine.execQinv plane s
  | .zzf => Sys2Proof.Machine.execZzf s
  | .zzi => Sys2Proof.Machine.execZzi s
  | .rlee => Sys2Proof.Machine.execRlee s
  | .rled => Sys2Proof.Machine.execRled s
  | .fwr => Sys2Proof.Machine.execFwr s
  | .fpr => Sys2Proof.Machine.execFpr s

end Sys2Proof.Machine
end

