-- ==== Sys2Proof/Machine/Sequencer.lean ====
section
/-! DEFINITION. The sequencer (46_sequencing.md): partitioning, its data moves, the expansions of `compress` and `decompress`, the
write of `CMD`, and the start of an invocation (70_reset_and_hazards.md). -/

namespace Sys2Proof.Machine

/-! ### Partitioning -/

/-- `ceil_div` (R12). -/
def ceilDiv (a b : Nat) : Nat := (a + b - 1) / b

/-- The number of samples of a half-resolution chroma plane (R110). -/
def halfSize (w h : Nat) : Nat := (w / 2) * (h / 2)

/-- The number of tiles of a plane under `PARTITION = tiled` (R199). -/
def tileCount (w h : Nat) : Nat := ceilDiv w 8 * ceilDiv h 8

/-- `NY` (R194, R199). -/
def lumaBlocks (P : Params) (w h : Nat) : Nat :=
  match P.partition with
  | .linear => ceilDiv (w * h) 64
  | .tiled => tileCount w h

/-- `NC` (R194, R199). -/
def chromaBlocks (P : Params) (w h : Nat) : Nat :=
  match P.partition with
  | .linear => ceilDiv (2 * halfSize w h) 64
  | .tiled => 2 * tileCount (w / 2) (h / 2)

/-- The planes that blocks are cut from (R193). -/
inductive SourcePlane where
  | y
  | cbh
  | crh
deriving DecidableEq, Repr

/-- The memory of a plane. -/
def State.source (s : State) : SourcePlane → Mem Real64
  | .y => s.planeY
  | .cbh => s.planeCbh
  | .crh => s.planeCrh

/-- The place of a plane. -/
def SourcePlane.place : SourcePlane → Place
  | .y => .planeY
  | .cbh => .planeCbh
  | .crh => .planeCrh

/-- The state with a plane's memory written. -/
def State.setSource (s : State) (p : SourcePlane) (m : Mem Real64) : State :=
  match p with
  | .y => { s with planeY := m }
  | .cbh => { s with planeCbh := m }
  | .crh => { s with planeCrh := m }

/-- Element `(r, c)` of tile `n` of a plane `pw` wide and `ph` high (R199); none for padding. -/
def tileIndex (pw ph n r c : Nat) : Option Nat :=
  let x := 8 * (n % ceilDiv pw 8) + c
  let y := 8 * (n / ceilDiv pw 8) + r
  if x < pw ∧ y < ph then some (y * pw + x) else none

/-- Where element `k = 8 * r + c` of block `n` of a sample sequence lies (R193, R196, R199); none for padding. -/
def locate (P : Params) (seq : Plane) (w h n k : Nat) : Option (SourcePlane × Nat) :=
  match P.partition, seq with
  | .linear, .luma => if 64 * n + k < w * h then some (.y, 64 * n + k) else none
  | .linear, .chroma =>
    if 64 * n + k < halfSize w h then some (.cbh, 64 * n + k)
    else if 64 * n + k < 2 * halfSize w h then some (.crh, 64 * n + k - halfSize w h)
    else none
  | .tiled, .luma => (tileIndex w h n (k / 8) (k % 8)).map fun i => (.y, i)
  | .tiled, .chroma =>
    if n < tileCount (w / 2) (h / 2) then (tileIndex (w / 2) (h / 2) n (k / 8) (k % 8)).map fun i => (.cbh, i)
    else (tileIndex (w / 2) (h / 2) (n - tileCount (w / 2) (h / 2)) (k / 8) (k % 8)).map fun i => (.crh, i)

/-! ### Data moves -/

/-- One element of a block that is loaded: the sample, or the real number 0 past the end of the sequence (R196). -/
def loadElement (P : Params) (s : State) (seq : Plane) (w h n k : Nat) : Attempt Real64 :=
  match locate P seq w h n k with
  | none => .ok (.fin 0)
  | some (p, i) =>
    match (s.source p).read i with
    | some v => .ok v
    | none => .refused (.noValue p.place i)

/-- A list as a block; the list that `ldblk` gives it has 64 elements. -/
def blockOf (vs : List Real64) : Block := Vector.ofFn fun i => vs[i.val]?.getD (.fin 0)

/-- `LDBLK` (R196). A move writes no `STATUS` and does not advance `OPIDX` (log 11). -/
def ldblk (P : Params) (seq : Plane) (n : Nat) (s : State) : Host.Outcome State Fault Refusal :=
  s.withDims fun w h =>
    match forEach (loadElement P s seq w.toNat h.toNat n) 0 64 with
    | .ok vs => .next { s with blk := blockOf vs }
    | .raised e info => .next (s.raise e info)
    | .refused r => .refused r

/-- Element `k` of `BLK` into block `n` of a sequence; padding is dropped (R203). -/
def storeElement (P : Params) (seq : Plane) (w h n : Nat) (s : State) (k : Nat) : State :=
  match locate P seq w h n k with
  | none => s
  | some (p, i) => s.setSource p ((s.source p).write i (elem b64 s.blk k))

/-- `STBLK` (R203). -/
def stblk (P : Params) (seq : Plane) (n : Nat) (s : State) : Host.Outcome State Fault Refusal :=
  s.withDims fun w h => .next ((List.range 64).foldl (storeElement P seq w.toNat h.toNat n) s)

/-- `PUSHSYM` (R198). -/
def pushsym (s : State) : Host.Outcome State Fault Refusal :=
  s.withBlkList fun l => .next { s with blkList := some (l ++ [s.sym]) }

/-- `POPSYM b` (R208): the list is not consumed. -/
def popsym (b : Nat) (s : State) : Host.Outcome State Fault Refusal :=
  s.withBlkList fun l =>
    match l[b]? with
    | some r => .next { s with sym := r }
    | none => .fault (.noSuchRecord b)

/-! ### Expansions -/

/-- The six steps of one block going forward (R200). -/
def forwardBlock (seq : Plane) (n : Nat) : List SeqStep :=
  [.ldblk seq n, .cmd (encode .dct8f), .cmd (encode (.qfwd seq)), .cmd (encode .zzf), .cmd (encode .rlee), .pushsym]

/-- The six steps of one block going back (R209); `b` is the block number. -/
def inverseBlock (seq : Plane) (b n : Nat) : List SeqStep :=
  [.popsym b, .cmd (encode .rled), .cmd (encode .zzi), .cmd (encode (.qinv seq)), .cmd (encode .dct8i), .stblk seq n]

/-- `compress` after its dimension check (R200). -/
def compressSteps (P : Params) (w h : Nat) : List SeqStep :=
  [.cmd (encode .rgb2ycc), .cmd (encode .cdown2)]
    ++ (List.range (lumaBlocks P w h)).flatMap (forwardBlock .luma)
    ++ (List.range (chromaBlocks P w h)).flatMap (forwardBlock .chroma)
    ++ [.cmd (encode .fwr)]

/-- `decompress` after its block count check (R209). -/
def decompressSteps (P : Params) (w h : Nat) : List SeqStep :=
  (List.range (lumaBlocks P w h)).flatMap (fun n => inverseBlock .luma n n)
    ++ (List.range (chromaBlocks P w h)).flatMap (fun n => inverseBlock .chroma (lumaBlocks P w h + n) n)
    ++ [.cmd (encode .cup2), .cmd (encode .ycc2rgb)]

/-! ### Checks -/

/-- The sub-cause of `DimensionError` for the host's numbers, the lowest that applies (R192). -/
def dimensionFault (w h : Nat) : Option Nat :=
  if w = 0 then some 1 else if h = 0 then some 2 else if 65535 < w then some 3 else if 65535 < h then some 4 else none

/-- The dimension check of `compress` (R192): it raises `DimensionError` or writes `WIDTH` and `HEIGHT`. -/
def checkDims (w h : Nat) (s : State) : State :=
  match dimensionFault w h with
  | some info => s.raise .dimensionError info
  | none => { s with width := some (BitVec.ofNat 16 w), height := some (BitVec.ofNat 16 h) }

/-- The block count check of `decompress` (R207), after which its block loops follow (R209). -/
def checkCount (P : Params) (s : State) : Host.Outcome State Fault Refusal :=
  s.withDims fun w h =>
  s.withBlkList fun l =>
    .next (if l.length = lumaBlocks P w.toNat h.toNat + chromaBlocks P w.toNat h.toNat then
      { s with pending := decompressSteps P w.toNat h.toNat ++ s.pending }
    else s.raise .malformedStream 4)

/-! ### Steps -/

/-- A write of `CMD` (R29): while `ERR` is set it starts and changes nothing (R227, U14); a reserved word raises
`IllegalOperation` (R73, R224); otherwise the operation it names runs. -/
def issue (w : Byte) (s : State) : Host.Outcome State Fault Refusal :=
  if s.faulted then .next s
  else if busyBit s.status then .refused .busy
  else
    match decode w with
    | .error _ => .next ({ s with cmd := w }.raise .illegalOperation w.toNat)
    | .ok i => exec i (s.start w)

/-- One step of the sequencer; after a fault the sequencer issues nothing until reset (R226, R227; log 13). -/
def seqStep (t : SeqStep) (s : State) : Host.Outcome State Fault Refusal :=
  if s.faulted then .next s
  else
    match t with
    | .cmd w => issue w s
    | .ldblk seq n => ldblk specParams seq n s
    | .stblk seq n => stblk specParams seq n s
    | .pushsym => pushsym s
    | .popsym b => popsym b s
    | .checkDims w h => .next (checkDims w h s)
    | .checkCount => checkCount specParams s
    | .serialise => .refused .serialisation

/-- The start of what the host asks for (R253, R254): reset, then the inputs in their places, then the listing to do. -/
def startCall (c : HostCall) (s : State) : State :=
  match c with
  | .compress w h raster =>
    { s.applyReset with
      raster := Mem.ofList raster
      pending := .checkDims w h :: compressSteps specParams w h }
  | .decompress stream len =>
    { s.applyReset with
      stream := Mem.ofList stream
      len := some len
      pending := [.cmd (encode .fpr), .checkCount] }
  | .convert w h raster =>
    { s.applyReset with
      raster := Mem.ofList raster
      pending := [.checkDims w h, .cmd (encode .rgb2ycc), .cmd (encode .cdown2), .serialise] }
  | .issue steps => { s with pending := steps }
  | .reset => s.applyReset

/-- What the block does next: a reset the host asks for takes effect between operations (R251); otherwise the next pending
step; otherwise, idle (R252), the host's next call; otherwise nothing. -/
def sequencerStep (s : State) : Host.Outcome State Fault Refusal :=
  match s.inbox, s.pending with
  | .reset :: more, _ => .next (startCall .reset { s with inbox := more })
  | _, t :: rest => seqStep t { s with pending := rest }
  | c :: more, [] => .next (startCall c { s with inbox := more })
  | [], [] => .next s

/-- Is a host call a reset? -/
def isReset : HostCall → Bool
  | .reset => true
  | .compress _ _ _ | .decompress _ _ | .convert _ _ _ | .issue _ => false

end Sys2Proof.Machine
end

