-- ==== Sys2Proof/Machine/Step.lean ====
section
/-! DEFINITION. The step of the machine, and the placing of a command where the next step takes it. -/

namespace Sys2Proof.Machine

/-- One step (R20): `sequencerStep` of Machine/Sequencer.lean. -/
def step (s : State) : Host.Outcome State Fault Refusal := sequencerStep s

/-- The state whose next step issues the command word of the low byte of `w`: it stands as the next pending step of the
sequencer, and a reset the host has asked for does not come before it (R28: no instruction memory; log 12). -/
def State.withFetchWord (s : State) (_nbits w : Nat) : State :=
  { s with
    pending := .cmd (BitVec.ofNat 8 w) :: s.pending.drop 1
    inbox := s.inbox.dropWhile isReset }

end Sys2Proof.Machine
end

