-- ==== Sys2Proof/Machine/Exact.lean ====
section
/-! DEFINITION. The exact-real instance of `NUM` (R14: "exact reals (for stating laws)"). No step of the machine uses it: the
laws of the rules that are stated over exact reals speak of the units' own functions at this instance. -/

namespace Sys2Proof.Machine

open scoped Classical in
/-- The exact reals as an instance of `NUM` (R14), with the rounding of R13. -/
noncomputable def exactNum : Num ℝ where
  ofInt n := (n : ℝ)
  add a b := a + b
  sub a b := a - b
  mul a b := a * b
  div a b := a / b
  fma a b c := a * b + c
  sqrt := Real.sqrt
  cos := Real.cos
  pi := Real.pi
  le a b := decide (a ≤ b)
  isFinite _ := true
  rnd tie x :=
    if x - (⌊x⌋ : ℝ) < 1 / 2 then ⌊x⌋ else if 1 / 2 < x - (⌊x⌋ : ℝ) then ⌊x⌋ + 1 else tieBreak tie ⌊x⌋
  trunc x := if 0 ≤ x then ⌊x⌋ else ⌈x⌉

/-- The exact datapath that evaluates each formula as `expr` says. -/
noncomputable def exactDatapath (expr : Site → Expr) : Datapath ℝ := ⟨exactNum, expr, refConst exactNum, fun _ _ v => v⟩

/-- Is every expression of an implementation an evaluation of its site's formula (R14)? -/
def allLegal (expr : Site → Expr) : Prop := ∀ site, isEvaluation site (expr site) = true

/-- `C(k)` over the reals (R121). -/
noncomputable def normReal (k : Nat) : ℝ := if k = 0 then 1 / Real.sqrt 2 else 1

/-- `cb(u, x)` over the reals (R122). -/
noncomputable def cosReal (u x : Nat) : ℝ := Real.cos ((2 * (x : ℝ) + 1) * (u : ℝ) * Real.pi / 16)

/-- The orthogonal matrix `A` of R126. -/
noncomputable def dctMatrix (u x : Nat) : ℝ := normReal u * cosReal u x / 2

/-- The transposed block. -/
noncomputable def transposeReal (v : Vector ℝ 64) : Vector ℝ 64 :=
  Vector.ofFn fun k => elem exactNum v (8 * (k.val % 8) + k.val / 8)

end Sys2Proof.Machine
end

