-- ==== Sys2Proof/Safety.lean ====
section
/-! DEFINITION. What claims about runs speak of: the invariants of the machine, and chains of operations. -/

namespace Sys2Proof

/-- The plane kind that an operation reads from `CMD.PLANE` (R29); none for those that ignore the bit. -/
def Instr.planeOperand : Instr → Option Plane
  | .qfwd p | .qinv p => some p
  | .rgb2ycc | .ycc2rgb | .cdown2 | .cup2 | .dct8f | .dct8i | .zzf | .zzi | .rlee | .rled | .fwr | .fpr => none

end Sys2Proof

namespace Sys2Proof.Machine

/-- `STATUS` between two steps (R32, R33, R221, R226): `BUSY` 0 ("never observed as 1"), bits 3:2 zero, `ERR` one of the codes
0 to 6, `DONE` 0 while `ERR` is set, `ERRINFO` 0 while it is not. -/
def State.statusOk (s : State) : Bool :=
  !busyBit s.status && reservedBits s.status == 0 && (errField s.status).toNat ≤ 6
    && (errField s.status == 0 || !doneBit s.status) && (errField s.status != 0 || s.errinfo == 0)

/-- Every memory is in canonical form. -/
abbrev State.memoriesOk (s : State) : Prop :=
  Mem.wf s.raster ∧ Mem.wf s.stream ∧ Mem.wf s.planeY ∧ Mem.wf s.planeCb ∧ Mem.wf s.planeCr ∧ Mem.wf s.planeCbh
    ∧ Mem.wf s.planeCrh

/-- The invariant that every step keeps. -/
abbrev State.Inv (s : State) : Prop := s.statusOk = true ∧ s.memoriesOk

/-- Every element of a plane is a value of binary64. -/
def realsOk (m : Mem Real64) : Bool := m.all fun p => wf64 p.2

/-- Every real the machine holds is a value of binary64 (R14, R127). -/
def State.realsOk (s : State) : Bool :=
  s.blk.toList.all wf64 && (s.seq.all fun v => v.toList.all wf64) && Sys2Proof.Machine.realsOk s.planeY
    && Sys2Proof.Machine.realsOk s.planeCb && Sys2Proof.Machine.realsOk s.planeCr && Sys2Proof.Machine.realsOk s.planeCbh
    && Sys2Proof.Machine.realsOk s.planeCrh

/-- All 64 elements of a buffer are finite (R15). -/
def blockFinite (b : Block) : Bool := b.toList.all Real64.isFinite

/-- An operation issued after another (R64). -/
def thenExec (o : Host.Outcome State Fault Refusal) (i : Instr) : Host.Outcome State Fault Refusal :=
  match o with
  | .next s => exec i s
  | .fault r => .fault r
  | .refused r => .refused r

/-- What a symbol list stands for (R155, R161): each symbol its zeros and then its value. -/
def expandRuns (r : Record) : List Int := r.flatMap fun sy => List.replicate sy.run 0 ++ [sy.value]

/-- The two bytes of a symbol (R76, R77). -/
def symbolBytes (sy : Symbol) : List Byte := [BitVec.ofNat 8 sy.run, encodeValue sy.value]

/-- The bytes of one record (R74): its symbols, then the delimiter. -/
def recordBytes (r : Record) : List Byte := r.flatMap symbolBytes ++ [0x00, 0x00]

/-- The stream of the grammar of R74: header, then records. -/
def streamBytes (w h : Half) (l : List Record) : List Byte := headerBytes w h ++ l.flatMap recordBytes

/-- A symbol that `FWR` may write (R173): none of the cases (a), (b), (c). -/
def writable (P : Params) (sy : Symbol) : Prop :=
  sy.run ≤ 255 ∧ (P.valueWrap = true ∨ (-128 ≤ sy.value ∧ sy.value ≤ 127)) ∧ ¬(sy.run = 0 ∧ sy.value % 256 = 0)

/-- The two-byte groups of a stream's body (R74); a stray last byte is in no group. -/
def groups : List Byte → List (Byte × Byte)
  | a :: b :: rest => (a, b) :: groups rest
  | [_] => []
  | [] => []

/-- No record is open at the end of the body: its last group, if it has one, is a delimiter (R179). -/
def closed (body : List Byte) : Bool :=
  match (groups body).getLast? with
  | none => true
  | some g => g == (0x00, 0x00)

/-- The state that a fault of `FPR` leaves (R226): the fault recorded, its results holding no value. -/
def State.parserFault (s : State) (e : ErrCode) (info : Nat) : State :=
  { s with width := none, height := none, blkList := none, status := statusFault e, errinfo := info, pending := [] }

/-- The number of samples of a sequence: `LY` or `LC` (R193). -/
def sampleCount (seq : Plane) (w h : Nat) : Nat :=
  match seq with
  | .luma => w * h
  | .chroma => 2 * halfSize w h

/-- Sample `i` of `YS` or `CS` (R193): all of `PLANE_CBH` comes before `PLANE_CRH`. -/
def State.sample (s : State) (seq : Plane) (w h i : Nat) : Option Real64 :=
  match seq with
  | .luma => s.planeY.read i
  | .chroma => if i < halfSize w h then s.planeCbh.read i else s.planeCrh.read (i - halfSize w h)

/-- Is a rational number a finite value of binary64 (R14)? 53 significant bits, exponents from the least subnormal unit to the
greatest normal one. -/
def isBinary64 (v : Rat) : Prop := ∃ m e : Int, |m| < 2 ^ 53 ∧ -1074 ≤ e ∧ e ≤ 971 ∧ v = (m : Rat) * (2 : Rat) ^ e

/-- The sum of the row and the column of a row-major index: the number of its anti-diagonal (R83). -/
def antiDiagonal (i : Nat) : Nat := i / 8 + i % 8

/-- `STREAM` and `LEN` hold exactly these bytes. -/
def State.holdsStream (s : State) (bytes : List Byte) : Prop :=
  s.len = some bytes.length ∧ ∀ i : Nat, i < bytes.length → Mem.read s.stream i = bytes[i]?

end Sys2Proof.Machine
end

