-- ==== Sys2Proof/Certificates/Slice0/Obligations.lean ====
section
/-! DEFINITION. The statements for the provers. `{ s with … }` in a conclusion says the whole frame: every register, memory and
model field that it does not name is as in `s`. -/

section

open Sys2Proof Sys2Proof.Machine

/-! ### Command words -/

/-- R70, R71, R73: the command word of every operation is legal and decodes to the operation. -/
def Obligations.DecodeOfEncode : Prop := ∀ i : Instr, decode (encode i) = .ok i ∧ commandWellFormed (encode i) = true

/-- R29, R70, R73: a word decodes to an operation exactly when its reserved field is 0, its `OP` is the operation's code, and,
for the two quantizers alone, its `PLANE` bit is the operation's plane kind. -/
def Obligations.DecodeReadsTheFields : Prop :=
  ∀ (w : Byte) (i : Instr), decode w = .ok i ↔
    (reservedField w = 0 ∧ opField w = i.op ∧ ∀ p, i.planeOperand = some p → planeField w = p)

/-- Words of R71, R90 and V1, written out from the fields of R70. -/
def Obligations.WordsOfTheTable : Prop :=
  decode 0b00000001#8 = .ok .rgb2ycc ∧ decode 0b00000100#8 = .ok .cup2 ∧ decode 0b00000101#8 = .ok .dct8f
    ∧ decode 0b00000111#8 = .ok (.qfwd .luma) ∧ decode 0b00010111#8 = .ok (.qfwd .chroma)
    ∧ decode 0b00011000#8 = .ok (.qinv .chroma) ∧ decode 0b00010101#8 = .ok .dct8f ∧ decode 0b00001001#8 = .ok .zzf
    ∧ decode 0b00001100#8 = .ok .rled ∧ decode 0b00001110#8 = .ok .fpr ∧ decode 0b00000000#8 = .error .reservedOp
    ∧ decode 0b00001111#8 = .error .reservedOp ∧ decode 0b00100001#8 = .error .reservedField

/-- R20, R28, R29, R32: when the next pending step writes `CMD` with a word that decodes to `i`, no fault stands, the unit is
not busy and the host has not asked for a reset, the step is `exec i` on the state with the word in `CMD`, `BUSY` 1 and
`DONE` 0. The pending list is the model's (log 12). -/
def Obligations.StepRunsTheDecodedOperation : Prop :=
  ∀ (s : State) (w : Byte) (rest : List SeqStep) (i : Instr),
    s.pending = .cmd w :: rest → (∀ more, s.inbox ≠ .reset :: more) → s.faulted = false → busyBit s.status = false →
    decode w = .ok i →
    step s = exec i { s with pending := rest, cmd := w, status := statusStart s.status }

/-- R224: a reserved command raises `IllegalOperation` with the word in `ERRINFO`; no operation starts, no buffer or memory
changes. What `CMD` then holds is left open here (log 16). -/
def Obligations.IllegalCommandFaults : Prop :=
  ∀ (s : State) (w : Byte) (rest : List SeqStep),
    s.pending = .cmd w :: rest → (∀ more, s.inbox ≠ .reset :: more) → s.faulted = false → busyBit s.status = false →
    commandWellFormed w = false →
    ∃ c : Byte, step s = .next
      { s with cmd := c, status := statusFault .illegalOperation, errinfo := w.toNat, pending := [] }

/-! ### Status, faults, reset, idling -/

/-- R32, R221, R226: what a start, an end and a fault leave in `STATUS`; the codes; and the whole effect of raising a fault but
for the raising operation's results, which its own statement covers. That pending steps are dropped is the model's form of
"the sequencer issues no further operation" (log 14). -/
def Obligations.FaultEntry : Prop :=
  (∀ (s : State) (e : ErrCode) (info : Nat),
    errField (s.raise e info).status = e.code ∧ (s.raise e info).errinfo = info
      ∧ busyBit (s.raise e info).status = false ∧ doneBit (s.raise e info).status = false
      ∧ reservedBits (s.raise e info).status = 0
      ∧ s.raise e info = { s with status := (s.raise e info).status, errinfo := info, pending := [] })
  ∧ (ErrCode.dimensionError.code = 1 ∧ ErrCode.malformedStream.code = 2 ∧ ErrCode.valueRange.code = 3
    ∧ ErrCode.blockOverflow.code = 4 ∧ ErrCode.contractViolation.code = 5 ∧ ErrCode.illegalOperation.code = 6)
  ∧ ∀ st : Byte,
    busyBit (statusStart st) = true ∧ doneBit (statusStart st) = false ∧ errField (statusStart st) = errField st
      ∧ reservedBits (statusStart st) = 0
      ∧ busyBit (statusDone st) = false ∧ doneBit (statusDone st) = true ∧ errField (statusDone st) = errField st
      ∧ reservedBits (statusDone st) = 0

/-- R227: while `ERR` is set every step answers a next state and changes nothing but the model's two lists (log 12, log 13), or
it is the start of what the host asks for, a listing apart, which begins with a reset. What the reset makes of the
registers that it does not write is the model's choice (log 3). -/
def Obligations.AfterAFaultOnlyResetChangesAnything : Prop :=
  ∀ s : State, s.faulted = true → ∃ t, step s = .next t ∧
    (t = { s with pending := t.pending, inbox := t.inbox }
      ∨ ∃ c more, s.inbox = c :: more ∧ (∀ l, c ≠ .issue l) ∧ t = startCall c { s with inbox := more }
        ∧ t.faulted = false)

/-- R38, R251: what reset leaves, and that a step takes a reset the host asks for before any pending step, with a fault standing
or not. A later reset writes nothing of the registers that R251 names: it leaves each as it was or
with a value that is free anew at every reset, the model's form of "count as unspecified after it" (log 3). That the
memories hold no value after a later reset too is the model's form of the same (log 2, log 3). That a later reset puts the
working counters, which "have no reset value of their own" (R38), back to their start values (log 10), drops the pending
steps and leaves what the host asks for next (log 12) is the model's choice. -/
def Obligations.ResetValues : Prop :=
  State.reset.cmd = 0x00 ∧ State.reset.status = 0x00 ∧ State.reset.errinfo = 0 ∧ State.reset.blkList = some []
    ∧ State.reset.opidx = 0
    ∧ (∀ a, Mem.read State.reset.raster a = none ∧ Mem.read State.reset.stream a = none ∧ State.reset.planeY.read a = none
      ∧ State.reset.planeCb.read a = none ∧ State.reset.planeCr.read a = none ∧ State.reset.planeCbh.read a = none
      ∧ State.reset.planeCrh.read a = none)
    ∧ ∀ s : State,
      s.applyReset = { State.reset with
        blk := s.applyReset.blk
        seq := s.applyReset.seq
        sym := s.applyReset.sym
        width := s.applyReset.width
        height := s.applyReset.height
        len := s.applyReset.len
        resets := s.resets + 1
        inbox := s.inbox }
      ∧ (s.applyReset.blk = s.blk ∨ s.applyReset.blk = freshBlock (Config.resetBlk (s.resets + 1)))
      ∧ ((s.seq ≠ none ∧ s.applyReset.seq = s.seq) ∨ s.applyReset.seq = some (freshBlock (Config.resetSeq (s.resets + 1))))
      ∧ (s.applyReset.sym = s.sym ∨ s.applyReset.sym = Config.resetSym (s.resets + 1))
      ∧ ((s.width ≠ none ∧ s.applyReset.width = s.width) ∨ s.applyReset.width = some (Config.resetWidth (s.resets + 1)))
      ∧ ((s.height ≠ none ∧ s.applyReset.height = s.height)
        ∨ s.applyReset.height = some (Config.resetHeight (s.resets + 1)))
      ∧ ((s.len ≠ none ∧ s.applyReset.len = s.len) ∨ s.applyReset.len = some (Config.resetLen (s.resets + 1)))
      ∧ ∀ more, s.inbox = .reset :: more → step s = .next (State.applyReset { s with inbox := more })

/-- R252: the block is idle until the host starts an invocation; after reset it is idle. That "idle" is that the model's two
lists are empty (log 12), and that a step of an idle block gives the same state (log 13), are the model's. -/
def Obligations.IdleBlockStays : Prop :=
  (∀ s : State, s.pending = [] → s.inbox = [] → step s = .next s) ∧ step State.reset = .next State.reset

/-- R28, R226, R230: an operation that answers a next state has completed (`STATUS.DONE`, `OPIDX` one higher, the rest of the
invocation still to do), or it is one of the four operations that can fault and has taken a fault (`OPIDX` as before, the
invocation over). -/
def Obligations.OperationCompletesOrFaults : Prop :=
  ∀ (i : Instr) (s t : State), exec i s = .next t →
    (t.status = statusDone s.status ∧ t.errinfo = s.errinfo ∧ t.opidx = s.opidx + 1 ∧ t.pending = s.pending)
    ∨ ((i = .ycc2rgb ∨ i = .rled ∨ i = .fwr ∨ i = .fpr)
      ∧ (∃ e, t.status = statusFault e) ∧ t.opidx = s.opidx ∧ t.pending = [])

/-- R210: each step of the sequencer takes one step off the list, or ends the invocation with a fault; only the block count
check of `decompress` puts its block loops in front of what is left. -/
def Obligations.SequencerAdvances : Prop :=
  ∀ (s t : State) (x : SeqStep) (rest : List SeqStep),
    s.pending = x :: rest → (∀ more, s.inbox ≠ .reset :: more) → step s = .next t →
    t.inbox = s.inbox ∧
    (t.pending = rest ∨ (t.faulted = true ∧ t.pending = [])
      ∨ (x = .checkCount ∧ ∃ w h : Half, s.width = some w ∧ s.height = some h
        ∧ t.pending = decompressSteps specParams w.toNat h.toNat ++ rest))

/-- R15, U9, U11: an operation on `BLK` or `SEQ` whose operand holds an element that is not finite, or no value, is refused; and
an operation on planes where an element of an operand plane is not finite, also one that the operation would drop. -/
def Obligations.NonFiniteOperandIsRefused : Prop :=
  (∀ (s : State) (i : Instr), (i = .dct8f ∨ i = .dct8i ∨ (∃ p, i = .qfwd p) ∨ (∃ p, i = .qinv p) ∨ i = .zzf) →
    blockFinite s.blk = false → ∃ k, k < 64 ∧ exec i s = .refused (.nonFinite .blk k))
  ∧ (∀ (s : State) (v : Block) (i : Instr), (i = .zzi ∨ i = .rlee) → s.seq = some v → blockFinite v = false →
    ∃ k, k < 64 ∧ exec i s = .refused (.nonFinite .seq k))
  ∧ (∀ (s : State) (i : Instr), (i = .zzi ∨ i = .rlee) → s.seq = none → exec i s = .refused (.noValue .seq 0))
  ∧ ∀ (s : State) (w h : Half) (i : Instr) (k : Nat) (v : Real64), s.width = some w → s.height = some h → v.isFinite = false →
    (i = .ycc2rgb ∧ k < w.toNat * h.toNat
        ∧ (s.planeY.read k = some v ∨ s.planeCb.read k = some v ∨ s.planeCr.read k = some v)
      ∨ i = .cdown2 ∧ k < w.toNat * h.toNat ∧ (s.planeCb.read k = some v ∨ s.planeCr.read k = some v)
      ∨ i = .cup2 ∧ k < (w.toNat / 2) * (h.toNat / 2) ∧ (s.planeCbh.read k = some v ∨ s.planeCrh.read k = some v)) →
    ∃ place j, exec i s = .refused (.nonFinite place j)

/-! ### Colour -/

/-- R102: `RGB2YCC` completes on every raster that is there, writes the three planes from the formulas on the bytes as the
reals 0..255, pixel by pixel, each pixel's values from its own three bytes alone (R100). The value of a formula is the machine's (log 4);
that nothing past `w * h` holds a value is the model's choice (log 17). -/
def Obligations.Rgb2yccConverts : Prop :=
  ∀ (s : State) (w h : Half), s.width = some w → s.height = some h →
    (∀ a, a < 3 * (w.toNat * h.toNat) → (Mem.read s.raster a).isSome = true) →
    ∃ py pb pr : Mem Real64,
      exec .rgb2ycc s = .next
        { s with planeY := py, planeCb := pb, planeCr := pr, status := statusDone s.status, opidx := s.opidx + 1 }
      ∧ (∀ i, i < w.toNat * h.toNat → ∀ r g b : Byte,
        Mem.read s.raster (3 * i) = some r → Mem.read s.raster (3 * i + 1) = some g →
        Mem.read s.raster (3 * i + 2) = some b →
        py.read i = some (channelValue machineDatapath .y (.fin r.toNat) (.fin g.toNat) (.fin b.toNat))
        ∧ pb.read i = some (channelValue machineDatapath .cb (.fin r.toNat) (.fin g.toNat) (.fin b.toNat))
        ∧ pr.read i = some (channelValue machineDatapath .cr (.fin r.toNat) (.fin g.toNat) (.fin b.toNat)))
      ∧ ∀ i, w.toNat * h.toNat ≤ i → py.read i = none ∧ pb.read i = none ∧ pr.read i = none

/-- R105, R106: `YCC2RGB` completes where all three planes hold finite values, and writes three bytes for each pixel, red,
green, blue, from its own three values alone (R100). The value of a formula is the machine's (log 4); that nothing past
`3 * w * h` holds a value is the model's choice (log 17). -/
def Obligations.Ycc2rgbConverts : Prop :=
  ∀ (s : State) (w h : Half), s.width = some w → s.height = some h →
    (∀ i, i < w.toNat * h.toNat →
      ∃ y cb cr : Rat, s.planeY.read i = some (.fin y) ∧ s.planeCb.read i = some (.fin cb) ∧ s.planeCr.read i = some (.fin cr)) →
    ∃ raster : ByteMem,
      exec .ycc2rgb s = .next { s with raster := raster, status := statusDone s.status, opidx := s.opidx + 1 }
      ∧ (∀ i, i < w.toNat * h.toNat → ∀ y cb cr : Real64,
        s.planeY.read i = some y → s.planeCb.read i = some cb → s.planeCr.read i = some cr →
        Mem.read raster (3 * i)
          = some (BitVec.ofInt 8 (cast8 b64 specParams (channelValue machineDatapath .red y cb cr)))
        ∧ Mem.read raster (3 * i + 1)
          = some (BitVec.ofInt 8 (cast8 b64 specParams (channelValue machineDatapath .green y cb cr)))
        ∧ Mem.read raster (3 * i + 2)
          = some (BitVec.ofInt 8 (cast8 b64 specParams (channelValue machineDatapath .blue y cb cr))))
      ∧ ∀ a, 3 * (w.toNat * h.toNat) ≤ a → Mem.read raster a = none

/-- R105, R108, R226: `YCC2RGB` raises `ContractViolation` at the first pixel in raster order whose chroma holds no value, with
the pixel index, and `RASTER` holds no value (log 15). A plane with a value that is not finite is refused first (R15). -/
def Obligations.Ycc2rgbContractViolation : Prop :=
  ∀ (s : State) (w h : Half) (i : Nat), s.width = some w → s.height = some h → i < w.toNat * h.toNat →
    (∀ (k : Nat) (v : Real64), k < w.toNat * h.toNat →
      s.planeY.read k = some v ∨ s.planeCb.read k = some v ∨ s.planeCr.read k = some v → v.isFinite = true) →
    (∀ j, j < i →
      ∃ y cb cr : Rat, s.planeY.read j = some (.fin y) ∧ s.planeCb.read j = some (.fin cb) ∧ s.planeCr.read j = some (.fin cr)) →
    (s.planeCb.read i = none ∨ s.planeCr.read i = none) →
    exec .ycc2rgb s = .next
      { s with raster := [], status := statusFault .contractViolation, errinfo := i, pending := [] }

/-- R106: the cast over the reals under both settings of `CAST8`, and the machine's on every finite binary64 value. -/
def Obligations.Cast8ClampsThenCasts : Prop :=
  (∀ (P : Params) (v : ℝ),
    (P.cast8 = .trunc → cast8 exactNum P v = ⌊max 0 (min 255 v)⌋)
    ∧ (P.cast8 = .round → cast8 exactNum P v = exactNum.rnd P.roundTie (max 0 (min 255 v)))
    ∧ 0 ≤ cast8 exactNum P v ∧ cast8 exactNum P v ≤ 255)
  ∧ ∀ q : Rat, cast8 b64 specParams (.fin q) = ⌊max 0 (min 255 q)⌋

/-- R101, R104: every evaluation that the model counts as legal gives, over the reals, exactly the printed formulas. -/
def Obligations.ColourFormulas : Prop :=
  ∀ expr : Site → Expr, allLegal expr →
    (∀ r g b : ℝ,
      channelValue (exactDatapath expr) .y r g b = 0.299 * r + 0.587 * g + 0.114 * b
      ∧ channelValue (exactDatapath expr) .cb r g b = -0.168736 * r - 0.331264 * g + 0.5 * b + 128
      ∧ channelValue (exactDatapath expr) .cr r g b = 0.5 * r - 0.418688 * g - 0.081312 * b + 128)
    ∧ ∀ y cb cr : ℝ,
      channelValue (exactDatapath expr) .red y cb cr = y + 1.4 * (cr - 128)
      ∧ channelValue (exactDatapath expr) .green y cb cr = y - 0.343 * (cb - 128) - 0.711 * (cr - 128)
      ∧ channelValue (exactDatapath expr) .blue y cb cr = y + 1.765 * (cb - 128)

/-- R103: the ranges of the forward results in exact arithmetic, the inputs that reach their ends, and gray pixels. -/
def Obligations.ColourRanges : Prop :=
  ∀ expr : Site → Expr, allLegal expr →
    (∀ r g b : ℝ, 0 ≤ r → r ≤ 255 → 0 ≤ g → g ≤ 255 → 0 ≤ b → b ≤ 255 →
      0 ≤ channelValue (exactDatapath expr) .y r g b ∧ channelValue (exactDatapath expr) .y r g b ≤ 255
      ∧ 0.5 ≤ channelValue (exactDatapath expr) .cb r g b ∧ channelValue (exactDatapath expr) .cb r g b ≤ 255.5
      ∧ 0.5 ≤ channelValue (exactDatapath expr) .cr r g b ∧ channelValue (exactDatapath expr) .cr r g b ≤ 255.5)
    ∧ (channelValue (exactDatapath expr) .y 0 0 0 = 0 ∧ channelValue (exactDatapath expr) .y 255 255 255 = 255
      ∧ channelValue (exactDatapath expr) .cb 255 255 0 = 0.5 ∧ channelValue (exactDatapath expr) .cb 0 0 255 = 255.5
      ∧ channelValue (exactDatapath expr) .cr 0 255 255 = 0.5 ∧ channelValue (exactDatapath expr) .cr 255 0 0 = 255.5)
    ∧ ∀ g : ℝ, channelValue (exactDatapath expr) .y g g g = g
      ∧ channelValue (exactDatapath expr) .cb g g g = 128 ∧ channelValue (exactDatapath expr) .cr g g g = 128

/-- R107: in exact arithmetic, with `CAST8 = trunc`, gray pixels come back exactly and pure red comes back as (254, 0, 0). -/
def Obligations.ColourRoundTrip : Prop :=
  ∀ expr : Site → Expr, allLegal expr →
    let forward := fun (r g b : ℝ) (ch : Channel) => channelValue (exactDatapath expr) ch r g b
    let back := fun (r g b : ℝ) (ch : Channel) =>
      cast8 exactNum specParams
        (channelValue (exactDatapath expr) ch (forward r g b .y) (forward r g b .cb) (forward r g b .cr))
    (∀ g : Nat, g ≤ 255 → back g g g .red = g ∧ back g g g .green = g ∧ back g g g .blue = g)
    ∧ back 255 0 0 .red = 254 ∧ back 255 0 0 .green = 0 ∧ back 255 0 0 .blue = 0

/-! ### Chroma sampling -/

/-- R111: `CDOWN2` keeps the top-left sample of each 2x2 block of both chroma planes, unchanged. That it
needs only those samples to hold values, where every value there is finite (R15), and that nothing past the half planes holds one, are the model's (log 21,
log 17). -/
def Obligations.Cdown2Decimates : Prop :=
  decode 0x03 = .ok .cdown2 ∧ ∀ (s : State) (w h : Half), s.width = some w → s.height = some h →
    (∀ (k : Nat) (v : Real64), k < w.toNat * h.toNat → s.planeCb.read k = some v ∨ s.planeCr.read k = some v →
      v.isFinite = true) →
    (∀ i j, i < w.toNat / 2 → j < h.toNat / 2 →
      ∃ cb cr : Rat, s.planeCb.read (2 * j * w.toNat + 2 * i) = some (.fin cb)
        ∧ s.planeCr.read (2 * j * w.toNat + 2 * i) = some (.fin cr)) →
    ∃ pb pr : Mem Real64,
      exec .cdown2 s = .next { s with planeCbh := pb, planeCrh := pr, status := statusDone s.status, opidx := s.opidx + 1 }
      ∧ (∀ i j, i < w.toNat / 2 → j < h.toNat / 2 →
        pb.read (j * (w.toNat / 2) + i) = s.planeCb.read (2 * j * w.toNat + 2 * i)
        ∧ pr.read (j * (w.toNat / 2) + i) = s.planeCr.read (2 * j * w.toNat + 2 * i))
      ∧ ∀ k, (w.toNat / 2) * (h.toNat / 2) ≤ k → pb.read k = none ∧ pr.read k = none

/-- R114, R115: `CUP2` replicates each half-plane sample into its 2x2 block and leaves the odd last column and row holding no
value. That nothing past `w * h` holds a value is the model's choice (log 17). -/
def Obligations.Cup2Replicates : Prop :=
  decode 0x04 = .ok .cup2 ∧ ∀ (s : State) (w h : Half), s.width = some w → s.height = some h →
    (∀ k, k < (w.toNat / 2) * (h.toNat / 2) →
      ∃ cb cr : Rat, s.planeCbh.read k = some (.fin cb) ∧ s.planeCrh.read k = some (.fin cr)) →
    ∃ pb pr : Mem Real64,
      exec .cup2 s = .next { s with planeCb := pb, planeCr := pr, status := statusDone s.status, opidx := s.opidx + 1 }
      ∧ (∀ x y, x < w.toNat → y < h.toNat →
        pb.read (y * w.toNat + x) = (if x < 2 * (w.toNat / 2) ∧ y < 2 * (h.toNat / 2) then
          s.planeCbh.read (y / 2 * (w.toNat / 2) + x / 2) else none)
        ∧ pr.read (y * w.toNat + x) = (if x < 2 * (w.toNat / 2) ∧ y < 2 * (h.toNat / 2) then
          s.planeCrh.read (y / 2 * (w.toNat / 2) + x / 2) else none))
      ∧ ∀ i, w.toNat * h.toNat ≤ i → pb.read i = none ∧ pr.read i = none

/-- R116: `CUP2` under `ODD_DIM_POLICY = replicate`. That nothing past `w * h` holds a value is the model's choice
(log 17). -/
def Obligations.Cup2ReplicatePolicy : Prop :=
  ∀ (P : Params) (s : State) (w h : Half), P.oddDim = .replicate → s.width = some w → s.height = some h →
    (∀ k, k < (w.toNat / 2) * (h.toNat / 2) →
      ∃ cb cr : Rat, s.planeCbh.read k = some (.fin cb) ∧ s.planeCrh.read k = some (.fin cr)) →
    ∃ pb pr : Mem Real64,
      unitCup2 P s = .next { s with planeCb := pb, planeCr := pr, status := statusDone s.status, opidx := s.opidx + 1 }
      ∧ (∀ x y, x < w.toNat → y < h.toNat →
        pb.read (y * w.toNat + x) = (if 1 ≤ w.toNat / 2 ∧ 1 ≤ h.toNat / 2 then
          s.planeCbh.read (min (y / 2) (h.toNat / 2 - 1) * (w.toNat / 2) + min (x / 2) (w.toNat / 2 - 1)) else none)
        ∧ pr.read (y * w.toNat + x) = (if 1 ≤ w.toNat / 2 ∧ 1 ≤ h.toNat / 2 then
          s.planeCrh.read (min (y / 2) (h.toNat / 2 - 1) * (w.toNat / 2) + min (x / 2) (w.toNat / 2 - 1)) else none))
      ∧ ∀ i, w.toNat * h.toNat ≤ i → pb.read i = none ∧ pr.read i = none

/-- R117: after `CDOWN2` then `CUP2` every complete 2x2 block is constant and equal to the top-left sample it had. That the
pair completes when only the kept samples hold values, where every value there is finite (R15), is the model's (log 21). -/
def Obligations.DecimateThenReplicate : Prop :=
  ∀ (s : State) (w h : Half), s.width = some w → s.height = some h →
    (∀ (k : Nat) (v : Real64), k < w.toNat * h.toNat → s.planeCb.read k = some v ∨ s.planeCr.read k = some v →
      v.isFinite = true) →
    (∀ i j, i < w.toNat / 2 → j < h.toNat / 2 →
      ∃ cb cr : Rat, s.planeCb.read (2 * j * w.toNat + 2 * i) = some (.fin cb)
        ∧ s.planeCr.read (2 * j * w.toNat + 2 * i) = some (.fin cr)) →
    ∃ t, thenExec (exec .cdown2 s) .cup2 = .next t ∧
      ∀ i j a b, i < w.toNat / 2 → j < h.toNat / 2 → a < 2 → b < 2 →
        t.planeCb.read ((2 * j + b) * w.toNat + (2 * i + a)) = s.planeCb.read (2 * j * w.toNat + 2 * i)
        ∧ t.planeCr.read ((2 * j + b) * w.toNat + (2 * i + a)) = s.planeCr.read (2 * j * w.toNat + 2 * i)

/-! ### Transform -/

/-- R123, R125: on a block of finite reals the two transforms complete and write `BLK` alone, each element the machine's value
of its formula on the old block (log 4, log 5, log 6, log 31). -/
def Obligations.DctCompletes : Prop :=
  ∀ s : State, blockFinite s.blk = true →
    exec .dct8f s = .next
      { s with
        blk := Vector.ofFn fun k => evalSite machineDatapath (.dctF (k.val / 8) (k.val % 8)) (elem b64 s.blk)
        status := statusDone s.status
        opidx := s.opidx + 1 }
    ∧ exec .dct8i s = .next
      { s with
        blk := Vector.ofFn fun k => evalSite machineDatapath (.dctI (k.val / 8) (k.val % 8)) (elem b64 s.blk)
        status := statusDone s.status
        opidx := s.opidx + 1 }

/-- R121, R122, R123, R125: every legal evaluation gives, over the reals, exactly the double sums. -/
def Obligations.DctFormulas : Prop :=
  ∀ expr : Site → Expr, allLegal expr → ∀ (f : Vector ℝ 64) (a b : Nat) (_ : a < 8) (_ : b < 8),
    elem exactNum (dct8f (exactDatapath expr) f) (8 * a + b)
      = normReal a * normReal b * (1 / 4)
        * ∑ x ∈ Finset.range 8, ∑ y ∈ Finset.range 8, cosReal a x * cosReal b y * elem exactNum f (8 * x + y)
    ∧ elem exactNum (dct8i (exactDatapath expr) f) (8 * a + b)
      = ∑ u ∈ Finset.range 8, ∑ v ∈ Finset.range 8,
        (normReal u * normReal v / 4) * cosReal u a * cosReal v b * elem exactNum f (8 * u + v)

/-- R126: the matrix A is orthogonal, the two transforms are its products, exact inverses over the reals, linear, preserve the sum of squares
and commute with transposition. -/
def Obligations.DctIsOrthogonal : Prop :=
  (∀ u u', u < 8 → u' < 8 → ∑ x ∈ Finset.range 8, dctMatrix u x * dctMatrix u' x = if u = u' then 1 else 0)
  ∧ ∀ expr : Site → Expr, allLegal expr →
    let F := fun f : Vector ℝ 64 => dct8f (exactDatapath expr) f
    let G := fun f : Vector ℝ 64 => dct8i (exactDatapath expr) f
    (∀ f a b, a < 8 → b < 8 → elem exactNum (F f) (8 * a + b)
      = ∑ x ∈ Finset.range 8, ∑ y ∈ Finset.range 8, dctMatrix a x * elem exactNum f (8 * x + y) * dctMatrix b y)
    ∧ (∀ f a b, a < 8 → b < 8 → elem exactNum (G f) (8 * a + b)
      = ∑ u ∈ Finset.range 8, ∑ v ∈ Finset.range 8, dctMatrix u a * elem exactNum f (8 * u + v) * dctMatrix v b)
    ∧ (∀ f, G (F f) = f) ∧ (∀ f, F (G f) = f)
    ∧ (∀ f, ∑ k : Fin 64, (F f)[k] ^ 2 = ∑ k : Fin 64, f[k] ^ 2) ∧ (∀ f, ∑ k : Fin 64, (G f)[k] ^ 2 = ∑ k : Fin 64, f[k] ^ 2)
    ∧ (∀ (c : ℝ) f g, F (Vector.zipWith (fun x y => c * x + y) f g) = Vector.zipWith (fun x y => c * x + y) (F f) (F g))
    ∧ (∀ (c : ℝ) f g, G (Vector.zipWith (fun x y => c * x + y) f g) = Vector.zipWith (fun x y => c * x + y) (G f) (G g))
    ∧ (∀ f, F (transposeReal f) = transposeReal (F f)) ∧ (∀ f, G (transposeReal f) = transposeReal (G f))

/-- R129: in exact arithmetic the DC coefficient is eight times the mean, and a constant block has no other coefficient. On the
machine, for a sample up to 255 in magnitude, the others are near 0; how near is the model's reading of "around 1e-13 or less"
(log 31). R123, R125: both transforms of an all-zero block give an all-zero block. -/
def Obligations.DcCoefficient : Prop :=
  (∀ expr : Site → Expr, allLegal expr →
    (∀ f : Vector ℝ 64, elem exactNum (dct8f (exactDatapath expr) f) 0 = 1 / 8 * ∑ k : Fin 64, f[k])
    ∧ ∀ c : ℝ, dct8f (exactDatapath expr) (Vector.replicate 64 c) = (Vector.replicate 64 0).setIfInBounds 0 (8 * c))
  ∧ (∀ (s : State) (c : Rat), s.blk = Vector.replicate 64 (.fin c) → |c| ≤ 255 →
    ∃ t, exec .dct8f s = .next t ∧ ∀ (k : Nat) (_ : k < 64), 0 < k → ∃ r : Rat, t.blk[k] = .fin r ∧ |r| ≤ 5 / 10 ^ 12)
  ∧ ∀ (s : State) (i : Instr), (i = .dct8f ∨ i = .dct8i) → s.blk = Vector.replicate 64 (.fin 0) →
    ∃ t, exec i s = .next t ∧ t.blk = s.blk

/-- R130: no coefficient is larger than the root of the sum of squares, nor than eight times the largest sample; an all-255 block reaches
2040. -/
def Obligations.CoefficientBound : Prop :=
  ∀ expr : Site → Expr, allLegal expr →
    (∀ (f : Vector ℝ 64) (k : Fin 64),
      |(dct8f (exactDatapath expr) f)[k]| ≤ Real.sqrt (∑ j : Fin 64, f[j] ^ 2)
      ∧ ∀ M : ℝ, (∀ j : Fin 64, |f[j]| ≤ M) → Real.sqrt (∑ j : Fin 64, f[j] ^ 2) ≤ 8 * M)
    ∧ elem exactNum (dct8f (exactDatapath expr) (Vector.replicate 64 255)) 0 = 2040

/-- R14, R124: the expression the machine uses at every site is one that the model counts as an evaluation of the site's
formula (log 4, log 6); an evaluation "in some order" has the printed formula's value over the reals whatever its constants,
and every evaluation has it with the constants of R121, R122 and R128. R133: on the machine the inverse transform of the
forward one gives back every sample up to 255.5 within 1e-6. R15: finite samples give finite results, where they are "far below
the binary64 range", which the model takes as 2^1000 (log 6). R121, R122, R128: the
constants of the machine and those of the reference: literals are the correctly rounded quotient, the scale factors and
`C(k)` for `k > 0` exact, `C(0)` and the basis cosines finite and near the real values, nearer than the bound that the
model chose for them (log 5) and one unit more. -/
def Obligations.EvaluationOrders : Prop :=
  allLegal machineExpr
  ∧ (∀ (site : Site) (e : Expr),
    (isRearrangement site e = true → ∀ (const : Const → ℝ) (operand : Nat → ℝ),
      evalExpr exactNum const operand e = evalExpr exactNum const operand (refExpr site))
    ∧ (isEvaluation site e = true → ∀ operand : Nat → ℝ,
      evalExpr exactNum (refConst exactNum) operand e = evalExpr exactNum (refConst exactNum) operand (refExpr site)))
  ∧ (∀ s : State, (∀ (k : Nat) (_ : k < 64), ∃ q : Rat, s.blk[k] = .fin q ∧ |q| ≤ 511 / 2) →
    ∃ t, thenExec (exec .dct8f s) .dct8i = .next t
      ∧ ∀ (k : Nat) (_ : k < 64) (q : Rat), s.blk[k] = .fin q → ∃ r : Rat, t.blk[k] = .fin r ∧ |r - q| ≤ 1 / 10 ^ 6)
  ∧ (∀ (s : State) (i : Instr), (i = .dct8f ∨ i = .dct8i) →
    (∀ (k : Nat) (_ : k < 64), ∃ q : Rat, s.blk[k] = .fin q ∧ |q| ≤ 2 ^ 1000) →
    ∃ t, exec i s = .next t ∧ blockFinite t.blk = true)
  ∧ ∀ const : Const → Real64, (const = machineConst ∨ const = refConst b64) →
    (∀ (num : Int) (den : Nat), |num| ≤ 2 ^ 53 → den ≠ 0 → den ≤ 2 ^ 53 → const (.lit num den) = round64 ((num : Rat) / (den : Rat)))
    ∧ const .quarter = .fin (1 / 4) ∧ const .eighth = .fin (1 / 8) ∧ (∀ k, k ≠ 0 → const (.norm k) = .fin 1)
    ∧ (∃ q : Rat, const (.norm 0) = .fin q ∧ isBinary64 q ∧ |(q : ℝ) - normReal 0| ≤ 5 / 2 ^ 53)
    ∧ ∀ u x : Nat, u < 8 → x < 8 →
      ∃ q : Rat, const (.cosBasis u x) = .fin q ∧ isBinary64 q
        ∧ |(q : ℝ) - cosReal u x| ≤ ((2 * (x : ℝ) + 1) * u + 9) / 2 ^ 53

/-! ### Quantization and rounding -/

/-- R13: nearest, the three tie rules, truncation; on rationals (the values of binary64) and on the reals alike. R14, R127: the
finite values of the machine's reals are those of binary64; rounding gives the nearest of them, at a tie the one whose
significand is even, and an infinity from half a unit past the greatest on; and each arithmetic operation of the machine
rounds the exact result once (one zero, log 7). That an integer becomes a real by one rounding too, so that it is held rounded
beyond 2^53, is the model's (log 23). -/
def Obligations.RoundingRule : Prop :=
  (specParams.roundTie = .halfEven
    ∧ (∀ (tie : RoundTie) (x : ℝ), |x - exactNum.rnd tie x| ≤ 1 / 2)
    ∧ (∀ k : Int,
      exactNum.rnd .halfEven ((k : ℝ) + 1 / 2) = (if k % 2 = 0 then k else k + 1)
      ∧ exactNum.rnd .halfAway ((k : ℝ) + 1 / 2) = (if 0 ≤ k then k + 1 else k)
      ∧ exactNum.rnd .halfUp ((k : ℝ) + 1 / 2) = k + 1)
    ∧ (∀ x : ℝ, |(exactNum.trunc x : ℝ)| ≤ |x| ∧ |x - exactNum.trunc x| < 1 ∧ 0 ≤ x * exactNum.trunc x)
    ∧ (∀ (tie : RoundTie) (q : Rat), b64.rnd tie (.fin q) = exactNum.rnd tie (q : ℝ))
    ∧ ∀ q : Rat, b64.trunc (.fin q) = exactNum.trunc (q : ℝ))
  ∧ ((∀ v : Rat, wf64 (.fin v) = true ↔ isBinary64 v)
    ∧ (∀ q r : Rat, round64 q = .fin r → isBinary64 r ∧ ∀ v, isBinary64 v → |q - r| ≤ |q - v|
      ∧ (v ≠ r → |q - r| = |q - v| → ∃ m : Int, r = 2 * (m : Rat) * |v - r|))
    ∧ (∀ q : Rat, |q| < 2 ^ 1024 - 2 ^ 970 → ∃ r, round64 q = .fin r)
    ∧ ∀ q : Rat, 2 ^ 1024 - 2 ^ 970 ≤ |q| → round64 q = .inf (decide (q < 0)))
  ∧ (∀ n : Int, b64.ofInt n = round64 n)
  ∧ (∀ a b : Rat, b64.add (.fin a) (.fin b) = round64 (a + b) ∧ b64.sub (.fin a) (.fin b) = round64 (a - b)
    ∧ b64.mul (.fin a) (.fin b) = round64 (a * b) ∧ (b ≠ 0 → b64.div (.fin a) (.fin b) = round64 (a / b))
    ∧ b64.le (.fin a) (.fin b) = decide (a ≤ b))
  ∧ ∀ a b c : Rat, b64.fma (.fin a) (.fin b) (.fin c) = round64 (a * b + c)

/-- R136, R138: on a block of finite reals the quantizers complete and write `BLK` alone: each element divided by, or
multiplied by, the entry of the table of `PLANE` in the same place, and rounded, ties to even. A product past the binary64
range is kept (log 7). -/
def Obligations.QuantizersComplete : Prop :=
  ∀ (s : State) (p : Plane), blockFinite s.blk = true →
    exec (.qfwd p) s = .next
      { s with
        blk := Vector.zipWith (fun x (t : Nat) => roundReal b64 .halfEven (div64 x (ofInt64 t))) s.blk
          (match p with | .luma => qtLumaDefault | .chroma => qtChromaDefault)
        status := statusDone s.status
        opidx := s.opidx + 1 }
    ∧ exec (.qinv p) s = .next
      { s with
        blk := Vector.zipWith (fun x (t : Nat) => roundReal b64 .halfEven (mul64 x (ofInt64 t))) s.blk
          (match p with | .luma => qtLumaDefault | .chroma => qtChromaDefault)
        status := statusDone s.status
        opidx := s.opidx + 1 }

/-- R136: after `QFWD` every element of the block is the integer nearest to the binary64 quotient, held exactly. -/
def Obligations.QfwdGivesIntegers : Prop :=
  ∀ (s t : State) (p : Plane), s.realsOk = true → exec (.qfwd p) s = .next t →
    ∀ (k : Nat) (_ : k < 64), ∃ q r : Rat,
      s.blk[k] = .fin q
      ∧ div64 (.fin q) (ofInt64 ((match p with | .luma => qtLumaDefault | .chroma => qtChromaDefault)[k] : Nat)) = .fin r
      ∧ t.blk[k] = .fin (roundRat .halfEven r)

/-- R140: quantizing and dequantizing moves an element by at most half its table entry; dequantizing and quantizing leaves
integer blocks as they are. Over the reals, for every table of entries at least 1 and every tie rule. -/
def Obligations.QuantizationLoss : Prop :=
  ∀ (tie : RoundTie) (T : Vector Nat 64), (∀ k : Fin 64, 1 ≤ T[k]) →
    (∀ (b : Vector ℝ 64) (k : Fin 64),
      |(dequantize exactNum tie T (quantize exactNum tie T b))[k] - b[k]| ≤ (T[k] : ℝ) / 2)
    ∧ ∀ n : Vector Int 64,
      quantize exactNum tie T (dequantize exactNum tie T (n.map fun i : Int => (i : ℝ))) = n.map fun i : Int => (i : ℝ)

/-! ### Zig-zag and run lengths -/

/-- R83, R84, R85: `ZZ` is a permutation of 0..63 and `ZZINV` its inverse; it visits the anti-diagonals in ascending order, an
even one with the row decreasing and an odd one with the row increasing, which leaves one table. -/
def Obligations.ZigzagTables : Prop :=
  zz.toList.Nodup ∧ (∀ k : Fin 64, zz[k] < 64) ∧ (∀ k : Fin 64, zzinv[zz[k]]? = some k.val)
    ∧ (∀ i : Fin 64, zz[zzinv[i]]? = some i.val)
    ∧ ∀ (k : Nat) (_ : k + 1 < 64),
      antiDiagonal zz[k] < antiDiagonal zz[k + 1]
      ∨ (antiDiagonal zz[k] = antiDiagonal zz[k + 1]
        ∧ if antiDiagonal zz[k] % 2 = 0 then zz[k + 1] / 8 < zz[k] / 8 else zz[k] / 8 < zz[k + 1] / 8)

/-- R151: `ZZF` completes on a block of finite reals and moves element `ZZ[k]` of `BLK` to `SEQ[k]`. -/
def Obligations.ZzfScans : Prop :=
  decode 0x09 = .ok .zzf ∧ ∀ s : State, blockFinite s.blk = true →
    ∃ v : Block, exec .zzf s = .next { s with seq := some v, status := statusDone s.status, opidx := s.opidx + 1 }
      ∧ ∀ (k : Nat) (_ : k < 64) (i : Nat) (_ : i < 64), zz[k] = i → v[k] = s.blk[i]

/-- R153: `ZZI` completes on a scan vector of finite reals and moves `SEQ[k]` to element `ZZ[k]` of `BLK`. -/
def Obligations.ZziScatters : Prop :=
  decode 0x0A = .ok .zzi ∧ ∀ (s : State) (v : Block), s.seq = some v → blockFinite v = true →
    ∃ b : Block, exec .zzi s = .next { s with blk := b, status := statusDone s.status, opidx := s.opidx + 1 }
      ∧ ∀ (k : Nat) (_ : k < 64) (i : Nat) (_ : i < 64), zz[k] = i → b[i] = v[k]

/-- R154: the two scans undo each other. -/
def Obligations.ZigzagRoundTrip : Prop :=
  (∀ s : State, blockFinite s.blk = true → ∃ t, thenExec (exec .zzf s) .zzi = .next t ∧ t.blk = s.blk)
  ∧ ∀ (s : State) (v : Block), s.seq = some v → blockFinite v = true →
    ∃ t, thenExec (exec .zzi s) .zzf = .next t ∧ t.seq = some v

/-- R157: `RLEE` completes on a scan vector of finite reals; its list, written out with the `n` trailing zeros it does not
emit, is the rounded scan vector, and no value in it is zero. What `RUN` and `K` hold afterwards means nothing (R35) and is the
model's choice (log 10). -/
def Obligations.RleeEncodes : Prop :=
  decode 0x0B = .ok .rlee ∧ ∀ (s : State) (v : Block), s.seq = some v → blockFinite v = true →
    ∃ (r : Record) (n : Nat),
      exec .rlee s = .next
        { s with sym := r, work := { s.work with run := n, k := 64 }, status := statusDone s.status, opidx := s.opidx + 1 }
      ∧ expandRuns r ++ List.replicate n 0 = v.toList.map (rnd64 .halfEven)
      ∧ ∀ sy ∈ r, sy.value ≠ 0

/-- R158: the invariants of a list that `RLEE` wrote. -/
def Obligations.RleeListInvariants : Prop :=
  ∀ (s t : State) (v : Block), s.seq = some v → exec .rlee s = .next t →
    (∀ sy ∈ t.sym, sy.value ≠ 0 ∧ sy.run ≤ 63) ∧ t.sym.length ≤ 64
    ∧ (∀ (k : Nat) (_ : k < 64), rnd64 .halfEven v[k] ≠ 0 →
      (∀ (j : Nat) (_ : j < 64), k < j → rnd64 .halfEven v[j] = 0) → (t.sym.map fun sy => sy.run + 1).sum = k + 1)
    ∧ ((∀ (k : Nat) (_ : k < 64), rnd64 .halfEven v[k] = 0) → t.sym = [])
    ∧ ∀ (s' t' : State) (v' : Block), s'.seq = some v' → exec .rlee s' = .next t' → t'.sym = t.sym →
      ∀ (k : Nat) (_ : k < 64), rnd64 .halfEven v'[k] = rnd64 .halfEven v[k]

/-- R161: `RLED` completes on every list that fits a block: `SEQ` is the list written out, zeros after it. A value past 2^53 is
held rounded (log 23); what `POS` holds afterwards is the model's choice (log 10). -/
def Obligations.RledDecodes : Prop :=
  ∀ s : State, (expandRuns s.sym).length ≤ 64 →
    ∃ v : Block,
      exec .rled s = .next
        { s with
          seq := some v
          work := { s.work with pos := (expandRuns s.sym).length }
          status := statusDone s.status
          opidx := s.opidx + 1 }
      ∧ v.toList = (expandRuns s.sym ++ List.replicate (64 - (expandRuns s.sym).length) 0).map ofInt64

/-- R162: the first symbol whose value would land past position 63 raises `BlockOverflow` with the position asked for; `SEQ`
holds no value (R226, log 15), the pending steps are dropped (log 14), and what `POS` holds is the model's choice
(log 10). -/
def Obligations.RledOverflows : Prop :=
  ∀ (s : State) (before : Record) (sy : Symbol) (after : Record), s.sym = before ++ sy :: after →
    (expandRuns before).length ≤ 64 → 63 < (expandRuns before).length + sy.run →
    exec .rled s = .next
      { s with
        seq := none
        work := { s.work with pos := (expandRuns before).length }
        status := statusFault .blockOverflow
        errinfo := (expandRuns before).length + sy.run
        pending := [] }

/-- R163: `ZZF`, `RLEE`, `RLED`, `ZZI` in this order leave the rounded value of each element, for every block of finite binary64
values; and `RLEE` after `RLED` gives back every list of non-zero values that fits: over the reals, and on the machine for values up
to 2^53 in magnitude (log 23). -/
def Obligations.RunLengthRoundTrip : Prop :=
  (∀ s : State, blockFinite s.blk = true → s.blk.toList.all wf64 = true →
    ∃ t, thenExec (thenExec (thenExec (exec .zzf s) .rlee) .rled) .zzi = .next t
      ∧ ∀ (k : Nat) (_ : k < 64) (q : Rat), s.blk[k] = .fin q → t.blk[k] = .fin (roundRat .halfEven q))
  ∧ (∀ (tie : RoundTie) (r : Record), (∀ sy ∈ r, sy.value ≠ 0) → (expandRuns r).length ≤ 64 →
    ∃ v : Vector ℝ 64, (decodeSymbols exactNum r).result = .ok v ∧ (encodeRuns (roundedScan exactNum tie v)).sym = r)
  ∧ ∀ s : State, (∀ sy ∈ s.sym, sy.value ≠ 0 ∧ |sy.value| ≤ 2 ^ 53) → (expandRuns s.sym).length ≤ 64 →
    ∃ t, thenExec (exec .rled s) .rlee = .next t ∧ t.sym = s.sym

/-! ### Stream -/

/-- R77: the value byte and its inverse. -/
def Obligations.ValueByteMapping : Prop :=
  (∀ v : Int, -128 ≤ v → v ≤ 127 → ((encodeValue v).toNat : Int) = v % 256 ∧ decodeValue (encodeValue v) = v)
  ∧ ∀ b : Byte, decodeValue b = if b.toNat ≤ 127 then (b.toNat : Int) else (b.toNat : Int) - 256

/-- R172: `FWR` completes for non-zero dimensions and symbols that the bytes can carry, and writes the stream of R74 and its
length. What `WPTR` holds afterwards (log 10) and that no byte past `LEN` holds a value (log 17) are the model's choice. -/
def Obligations.FwrWritesTheStream : Prop :=
  ∀ (s : State) (w h : Half) (l : List Record), s.width = some w → s.height = some h → s.blkList = some l →
    w ≠ 0 → h ≠ 0 → (∀ r ∈ l, ∀ sy ∈ r, sy.wellFormed = true) →
    ∃ m : ByteMem,
      exec .fwr s = .next
        { s with
          stream := m
          len := some (streamBytes w h l).length
          work := { s.work with wptr := (streamBytes w h l).length }
          status := statusDone s.status
          opidx := s.opidx + 1 }
      ∧ ∀ a, Mem.read m a = (streamBytes w h l)[a]?

/-- R174: after `FWR` without fault, the length, the header, and the groups of the body. That no byte past `LEN` holds a value is
the model's choice (log 17). -/
def Obligations.FwrStreamShape : Prop :=
  ∀ (s t : State) (w h : Half) (l : List Record), s.width = some w → s.height = some h → s.blkList = some l →
    exec .fwr s = .next t → doneBit t.status = true →
    t.len = some (4 + 2 * l.length + 2 * (l.map List.length).sum)
    ∧ (∃ b0 b1 b2 b3 : Byte, Mem.read t.stream 0 = some b0 ∧ Mem.read t.stream 1 = some b1 ∧ Mem.read t.stream 2 = some b2
      ∧ Mem.read t.stream 3 = some b3 ∧ be16 b0 b1 = w.toNat ∧ be16 b2 b3 = h.toNat)
    ∧ ∃ body : List Byte, (∀ a, Mem.read t.stream (4 + a) = body[a]?) ∧ body.length = 2 * (groups body).length
      ∧ (groups body).count (0x00, 0x00) = l.length
      ∧ (∀ g ∈ groups body, g = (0x00, 0x00) ∨ ∃ r ∈ l, ∃ sy ∈ r, symbolBytes sy = [g.1, g.2])
      ∧ (l ≠ [] → (groups body).getLast? = some (0x00, 0x00))

/-- R171: `FWR` raises `DimensionError` for a zero width, or else a zero height; `STREAM` and `LEN` hold no value (R226,
log 15) and the pending steps are dropped (log 14). What the working counter then holds means nothing (R35). -/
def Obligations.FwrDimensionError : Prop :=
  ∀ (s : State) (w h : Half) (l : List Record), s.width = some w → s.height = some h → s.blkList = some l →
    (w = 0 → ∃ c : Work, exec .fwr s = .next
      { s with stream := [], len := none, work := c, status := statusFault .dimensionError, errinfo := 1, pending := [] })
    ∧ (w ≠ 0 → h = 0 → ∃ c : Work, exec .fwr s = .next
      { s with stream := [], len := none, work := c, status := statusFault .dimensionError, errinfo := 2, pending := [] })

/-- R173: under either setting of `VALUE_WRAP`, `FWR` raises `ValueRangeFault` with the number of the first block that holds a
symbol it cannot encode, and writes the stream where it can encode every symbol. After the fault `STREAM` and `LEN` hold no
value (log 15) and the pending steps are dropped (log 14); that no byte past `LEN` holds a value is the model's choice
(log 17). -/
def Obligations.FwrValueRangeFault : Prop :=
  ∀ (P : Params) (s : State) (w h : Half) (l : List Record), s.width = some w → s.height = some h → s.blkList = some l →
    w ≠ 0 → h ≠ 0 →
    (∀ before r after, l = before ++ r :: after → (∀ x ∈ before, ∀ sy ∈ x, writable P sy) →
      (∃ sy ∈ r, ¬ writable P sy) →
      ∃ c : Work, unitFwr P s = .next
        { s with
          stream := [], len := none, work := c, status := statusFault .valueRange, errinfo := before.length, pending := [] })
    ∧ ((∀ x ∈ l, ∀ sy ∈ x, writable P sy) →
      ∃ (m : ByteMem) (c : Work),
        unitFwr P s = .next
          { s with
            stream := m
            len := some (streamBytes w h l).length
            work := c
            status := statusDone s.status
            opidx := s.opidx + 1 }
        ∧ ∀ a, Mem.read m a = (streamBytes w h l)[a]?)

/-- R177, R178, R179: what `FPR` comes to on every byte string: the first fault of the header checks, the missing final
delimiter, or the width, the height and the list of records whose bytes the body is. After a fault its results hold no
value (log 15) and the pending steps are dropped (log 14). What its working cells then hold means nothing (R35). -/
def Obligations.FprParsesEveryByteString : Prop :=
  decode 0x0E = .ok .fpr ∧ ∀ (s : State) (bytes : List Byte), s.holdsStream bytes →
    let w := be16 (bytes.getD 0 0) (bytes.getD 1 0)
    let h := be16 (bytes.getD 2 0) (bytes.getD 3 0)
    (bytes.length < 4 → exec .fpr s = .next (s.parserFault .malformedStream 1))
    ∧ (4 ≤ bytes.length →
      (w = 0 → exec .fpr s = .next (s.parserFault .dimensionError 1))
      ∧ (w ≠ 0 → h = 0 → exec .fpr s = .next (s.parserFault .dimensionError 2))
      ∧ (w ≠ 0 → h ≠ 0 → (bytes.length - 4) % 2 = 1 → exec .fpr s = .next (s.parserFault .malformedStream 2))
      ∧ (w ≠ 0 → h ≠ 0 → (bytes.length - 4) % 2 = 0 → closed (bytes.drop 4) = false →
        exec .fpr s = .next (s.parserFault .malformedStream 3))
      ∧ (w ≠ 0 → h ≠ 0 → (bytes.length - 4) % 2 = 0 → closed (bytes.drop 4) = true →
        ∃ (l : List Record) (c : Work),
          exec .fpr s = .next
            { s with
              width := some (BitVec.ofNat 16 w)
              height := some (BitVec.ofNat 16 h)
              blkList := some l
              work := c
              status := statusDone s.status
              opidx := s.opidx + 1 }
          ∧ (BitVec.ofNat 16 w).toNat = w ∧ (BitVec.ofNat 16 h).toNat = h
          ∧ (∀ r ∈ l, ∀ sy ∈ r, sy.wellFormed = true) ∧ l.flatMap recordBytes = bytes.drop 4))

/-- R181: the parser gives back what the writer was given, and the writer gives back the bytes that the parser accepted. -/
def Obligations.WriterParserRoundTrip : Prop :=
  (∀ (s : State) (w h : Half) (l : List Record), s.width = some w → s.height = some h → s.blkList = some l →
    w ≠ 0 → h ≠ 0 → (∀ r ∈ l, ∀ sy ∈ r, sy.wellFormed = true) →
    ∃ t, thenExec (exec .fwr s) .fpr = .next t ∧ t.width = some w ∧ t.height = some h ∧ t.blkList = some l)
  ∧ ∀ (s t : State) (bytes : List Byte), s.holdsStream bytes → exec .fpr s = .next t → doneBit t.status = true →
    ∃ u, exec .fwr t = .next u ∧ doneBit u.status = true ∧ u.holdsStream bytes

/-! ### Sequencing -/

/-- R192: the dimension check of `compress`: the lowest sub-cause that applies, or the two registers written. `DONE` 0
after the fault (log 14) and the pending list (log 12) are the model's. -/
def Obligations.DimensionCheck : Prop :=
  ∀ (s : State) (w h : Nat) (rest : List SeqStep),
    s.pending = .checkDims w h :: rest → (∀ more, s.inbox ≠ .reset :: more) → s.faulted = false →
    step s = .next
      (if w = 0 then { s with status := statusFault .dimensionError, errinfo := 1, pending := [] }
      else if h = 0 then { s with status := statusFault .dimensionError, errinfo := 2, pending := [] }
      else if 65535 < w then { s with status := statusFault .dimensionError, errinfo := 3, pending := [] }
      else if 65535 < h then { s with status := statusFault .dimensionError, errinfo := 4, pending := [] }
      else { s with width := some (BitVec.ofNat 16 w), height := some (BitVec.ofNat 16 h), pending := rest })

/-- R193, R196: a step that loads a block fills `BLK` with the 64 samples of the block in order, and with the real number 0 past
the end of the sequence. The pending list is the model's (log 12). -/
def Obligations.LoadBlock : Prop :=
  ∀ (s : State) (w h : Half) (seq : Plane) (n : Nat) (rest : List SeqStep),
    s.pending = .ldblk seq n :: rest → (∀ more, s.inbox ≠ .reset :: more) → s.faulted = false →
    s.width = some w → s.height = some h →
    (∀ i, 64 * n ≤ i → i < 64 * n + 64 → i < sampleCount seq w.toNat h.toNat →
      (s.sample seq w.toNat h.toNat i).isSome = true) →
    ∃ b : Block, step s = .next { s with blk := b, pending := rest }
      ∧ ∀ (k : Nat) (_ : k < 64),
        (64 * n + k < sampleCount seq w.toNat h.toNat → s.sample seq w.toNat h.toNat (64 * n + k) = some b[k])
        ∧ (sampleCount seq w.toNat h.toNat ≤ 64 * n + k → b[k] = .fin 0)

/-- R203: a step that stores a block stores the 64 elements of `BLK` into the block's samples, drops those past the end of the
sequence, and leaves every other sample and every other address of the planes as it was. The pending list is the model's
(log 12). -/
def Obligations.StoreBlock : Prop :=
  ∀ (s : State) (w h : Half) (seq : Plane) (n : Nat) (rest : List SeqStep),
    s.pending = .stblk seq n :: rest → (∀ more, s.inbox ≠ .reset :: more) → s.faulted = false →
    s.width = some w → s.height = some h →
    ∃ py pb pr : Mem Real64,
      step s = .next { s with planeY := py, planeCbh := pb, planeCrh := pr, pending := rest }
      ∧ (∀ i, i < sampleCount seq w.toNat h.toNat →
        State.sample { s with planeY := py, planeCbh := pb, planeCrh := pr } seq w.toNat h.toNat i
          = if 64 * n ≤ i ∧ i < 64 * n + 64 then some (elem b64 s.blk (i - 64 * n)) else s.sample seq w.toNat h.toNat i)
      ∧ (seq = .luma → pb = s.planeCbh ∧ pr = s.planeCrh ∧ ∀ a, w.toNat * h.toNat ≤ a → py.read a = s.planeY.read a)
      ∧ (seq = .chroma → py = s.planeY
        ∧ ∀ a, halfSize w.toNat h.toNat ≤ a → pb.read a = s.planeCbh.read a ∧ pr.read a = s.planeCrh.read a)

/-- R198, R208: a step `PUSHSYM` appends `SYM` to `BLKLIST`; a step `POPSYM` copies a record, and the list is not consumed. The
pending list is the model's (log 12). -/
def Obligations.PushAndPop : Prop :=
  ∀ (s : State) (l : List Record) (rest : List SeqStep),
    (∀ more, s.inbox ≠ .reset :: more) → s.faulted = false → s.blkList = some l →
    (s.pending = .pushsym :: rest → step s = .next { s with blkList := some (l ++ [s.sym]), pending := rest })
    ∧ ∀ (b : Nat) (r : Record), s.pending = .popsym b :: rest → l[b]? = some r →
      step s = .next { s with sym := r, pending := rest }

/-- R207: the block count check of `decompress`; when it passes, the block loops of R209 are what comes next. -/
def Obligations.BlockCountCheck : Prop :=
  ∀ (s : State) (w h : Half) (l : List Record) (rest : List SeqStep),
    s.pending = .checkCount :: rest → (∀ more, s.inbox ≠ .reset :: more) → s.faulted = false →
    s.width = some w → s.height = some h → s.blkList = some l →
    step s = .next
      (if l.length = lumaBlocks specParams w.toNat h.toNat + chromaBlocks specParams w.toNat h.toNat then
        { s with pending := decompressSteps specParams w.toNat h.toNat ++ rest }
      else { s with status := statusFault .malformedStream, errinfo := 4, pending := [] })

/-- R194: the block counts, the bounds and examples the rule gives, and the source's own form for even dimensions. -/
def Obligations.BlockCounts : Prop :=
  (∀ w h : Nat, 1 ≤ w → 1 ≤ h →
    (w * h ≤ 64 * lumaBlocks specParams w h ∧ 64 * lumaBlocks specParams w h < w * h + 64)
    ∧ (2 * ((w / 2) * (h / 2)) ≤ 64 * chromaBlocks specParams w h
      ∧ 64 * chromaBlocks specParams w h < 2 * ((w / 2) * (h / 2)) + 64)
    ∧ 1 ≤ lumaBlocks specParams w h ∧ (chromaBlocks specParams w h = 0 ↔ w = 1 ∨ h = 1)
    ∧ (w % 2 = 0 → h % 2 = 0 → chromaBlocks specParams w h = ceilDiv (w * h / 4 * 2) 64))
  ∧ (lumaBlocks specParams 16 16 = 4 ∧ chromaBlocks specParams 16 16 = 2 ∧ lumaBlocks specParams 8 8 = 1
    ∧ chromaBlocks specParams 8 8 = 1 ∧ lumaBlocks specParams 12 12 = 3 ∧ chromaBlocks specParams 12 12 = 2
    ∧ lumaBlocks specParams 1 1 = 1 ∧ chromaBlocks specParams 1 1 = 0)

/-- R200, R209: the listings, place by place, as command words and moves. -/
def Obligations.Listings : Prop :=
  ∀ w h : Nat,
    let ny := lumaBlocks specParams w h
    let nc := chromaBlocks specParams w h
    ((compressSteps specParams w h).length = 6 * (ny + nc) + 3
      ∧ (compressSteps specParams w h).take 2 = [.cmd 0x01, .cmd 0x03]
      ∧ (∀ n, n < ny → ((compressSteps specParams w h).drop (2 + 6 * n)).take 6
        = [.ldblk .luma n, .cmd 0x05, .cmd 0x07, .cmd 0x09, .cmd 0x0B, .pushsym])
      ∧ (∀ n, n < nc → ((compressSteps specParams w h).drop (2 + 6 * (ny + n))).take 6
        = [.ldblk .chroma n, .cmd 0x05, .cmd 0x17, .cmd 0x09, .cmd 0x0B, .pushsym])
      ∧ (compressSteps specParams w h).drop (2 + 6 * (ny + nc)) = [.cmd 0x0D])
    ∧ (decompressSteps specParams w h).length = 6 * (ny + nc) + 2
    ∧ (∀ n, n < ny → ((decompressSteps specParams w h).drop (6 * n)).take 6
      = [.popsym n, .cmd 0x0C, .cmd 0x0A, .cmd 0x08, .cmd 0x06, .stblk .luma n])
    ∧ (∀ n, n < nc → ((decompressSteps specParams w h).drop (6 * (ny + n))).take 6
      = [.popsym (ny + n), .cmd 0x0C, .cmd 0x0A, .cmd 0x18, .cmd 0x06, .stblk .chroma n])
    ∧ (decompressSteps specParams w h).drop (6 * (ny + nc)) = [.cmd 0x04, .cmd 0x02]

/-- R253, R202: what the start of an invocation establishes, the inputs in their places, the listing to come; the step on which
`convertRgbToYcbcr` ends; and what of the state before can carry over: nothing but the registers that reset does not
write. That those count as unspecified is R251's; the form it has, and that the memories hold no value, are the model's
choice (log 2, log 3), and that the start is one step of its own (log 12). -/
def Obligations.InvocationStartsClean : Prop :=
  (∀ (s : State) (w h : Nat) (raster : List Byte) (more : List HostCall),
    s.pending = [] → s.inbox = .compress w h raster :: more →
    ∃ t, step s = .next t ∧ t.status = 0x00 ∧ t.errinfo = 0 ∧ t.blkList = some [] ∧ t.opidx = 0
      ∧ (∀ a, Mem.read t.raster a = raster[a]?) ∧ t.inbox = more
      ∧ t.pending = .checkDims w h :: compressSteps specParams w h)
  ∧ (∀ (s : State) (stream : List Byte) (n : Nat) (more : List HostCall),
    s.pending = [] → s.inbox = .decompress stream n :: more →
    ∃ t, step s = .next t ∧ t.status = 0x00 ∧ t.errinfo = 0 ∧ t.blkList = some [] ∧ t.opidx = 0
      ∧ (∀ a, Mem.read t.stream a = stream[a]?) ∧ t.len = some n ∧ t.inbox = more
      ∧ t.pending = [.cmd 0x0E, .checkCount])
  ∧ (∀ (s : State) (w h : Nat) (raster : List Byte) (more : List HostCall),
    s.pending = [] → s.inbox = .convert w h raster :: more →
    ∃ t, step s = .next t ∧ t.status = 0x00 ∧ t.errinfo = 0 ∧ t.blkList = some [] ∧ t.opidx = 0
      ∧ (∀ a, Mem.read t.raster a = raster[a]?) ∧ t.inbox = more
      ∧ t.pending = [.checkDims w h, .cmd 0x01, .cmd 0x03, .serialise])
  ∧ (∀ (s : State) (rest : List SeqStep), s.pending = .serialise :: rest → (∀ more, s.inbox ≠ .reset :: more) →
    s.faulted = false → step s = .refused .serialisation)
  ∧ ∀ (c : HostCall) (s s' : State), (∀ l, c ≠ .issue l) →
    startCall c s = { startCall c s' with
      blk := s.applyReset.blk
      seq := s.applyReset.seq
      sym := s.applyReset.sym
      width := s.applyReset.width
      height := s.applyReset.height
      len := (startCall c s).len
      resets := s.resets + 1
      inbox := s.inbox }

/-! ### Invariants -/

/-- R32, R38: the reset state has the invariants that `StepKeepsInv` and `StepKeepsRealsOk` speak of. That the free reset values
of `BLK` and `SEQ` are binary64 values is the model's choice (log 1). -/
def Obligations.ResetInv : Prop := State.reset.Inv ∧ State.reset.realsOk = true

/-- R32, R33, R221, R226: every step keeps `BUSY` 0, the reserved bits 0, `ERR` one of the codes of R221, `DONE` 0 while `ERR` is
set, `ERRINFO` 0 while it is not, and every memory in canonical form. -/
def Obligations.StepKeepsInv : Prop := ∀ s t : State, s.Inv → step s = .next t → t.Inv

/-- R14, R127: every step keeps every real that the machine holds a value of binary64. -/
def Obligations.StepKeepsRealsOk : Prop := ∀ s t : State, s.realsOk = true → step s = .next t → t.realsOk = true

end
end

