-- ==== Sys2Proof/Laws/Rounding.lean ====
section
/-! SUPPORT. How far one rounding to binary64 moves a number. -/

namespace Sys2Proof.Machine

theorem pow2_eq (e : Int) : pow2 e = (2 : Rat) ^ e := by
  simp only [pow2]
  split
  case isTrue h =>
    obtain ⟨n, rfl⟩ := Int.eq_ofNat_of_zero_le h
    simp
  case isFalse h =>
    obtain ⟨n, hn⟩ := Int.eq_ofNat_of_zero_le (show 0 ≤ -e by omega)
    rw [hn, show e = -(n : Int) by omega, Rat.mkRat_eq_div]
    simp

theorem pow2_pos (e : Int) : 0 < pow2 e := by rw [pow2_eq]; positivity

theorem roundRat_near (tie : RoundTie) (q : Rat) : |(roundRat tie q : Rat) - q| ≤ 1 / 2 := by
  have h1 : ((q.floor : Int) : Rat) ≤ q := Int.floor_le q
  have h2 : q < (q.floor : Int) + 1 := Int.lt_floor_add_one q
  have hb (f : Int) : tieBreak tie f = f ∨ tieBreak tie f = f + 1 := by
    cases tie <;> simp only [tieBreak] <;> grind
  simp only [roundRat]
  rw [abs_le]
  split_ifs with ha hb'
  · constructor <;> linarith
  · push_cast; constructor <;> linarith
  · rcases hb q.floor with h | h <;> rw [h] <;> push_cast <;> constructor <;> linarith

theorem pow2_ilog2_le {q : Rat} (h : q ≠ 0) : pow2 (ilog2 q) ≤ |q| := by
  simp only [ilog2]
  split
  case isTrue h => exact h
  case isFalse =>
    have hn : 2 ^ Nat.log2 q.num.natAbs ≤ q.num.natAbs := Nat.log2_self_le (by simpa using h)
    have hd : q.den < 2 ^ (Nat.log2 q.den + 1) := Nat.lt_log2_self
    have hq : |q| = (q.num.natAbs : Rat) / q.den := by
      conv_lhs => rw [← Rat.num_div_den q]
      rw [abs_div, Nat.cast_natAbs, Int.cast_abs, Nat.abs_cast]
    have hn' : (2 : Rat) ^ (Nat.log2 q.num.natAbs : Int) ≤ q.num.natAbs := by exact_mod_cast hn
    have hd' : (q.den : Rat) ≤ (2 : Rat) ^ ((Nat.log2 q.den : Int) + 1) := by exact_mod_cast hd.le
    have hp : (0 : Rat) < q.den := by exact_mod_cast q.den_pos
    rw [pow2_eq, hq, le_div_iff₀ hp]
    calc (2 : Rat) ^ ((Nat.log2 q.num.natAbs : Int) - Nat.log2 q.den - 1) * q.den
        ≤ (2 : Rat) ^ ((Nat.log2 q.num.natAbs : Int) - Nat.log2 q.den - 1) * (2 : Rat) ^ ((Nat.log2 q.den : Int) + 1) :=
          mul_le_mul_of_nonneg_left hd' (by positivity)
      _ = (2 : Rat) ^ (Nat.log2 q.num.natAbs : Int) := by
          rw [← zpow_add₀ (by norm_num : (2 : Rat) ≠ 0)]; congr 1; ring
      _ ≤ q.num.natAbs := hn'

/-- Half a unit in the last place is at most the relative error of binary64, or the least subnormal. -/
theorem half_ulp_le {q : Rat} (h : q ≠ 0) : pow2 (ulpExp q) / 2 ≤ |q| * pow2 (-53) + pow2 (-1074) := by
  have hl := pow2_ilog2_le h
  have h53 : pow2 (ilog2 q - 52) / 2 = pow2 (ilog2 q) * pow2 (-53) := by
    rw [pow2_eq, pow2_eq, pow2_eq, ← zpow_add₀ (by norm_num : (2 : Rat) ≠ 0), div_eq_mul_inv, ← zpow_neg_one,
      ← zpow_add₀ (by norm_num : (2 : Rat) ≠ 0)]
    congr 1
    ring
  have hm := mul_le_mul_of_nonneg_right hl (pow2_pos (-53)).le
  have hp := pow2_pos (-1074)
  have hq : 0 ≤ |q| * pow2 (-53) := mul_nonneg (abs_nonneg q) (pow2_pos _).le
  rw [ulpExp]
  rcases max_choice (ilog2 q - 52) (-1074) with h | h <;> rw [h]
  · linarith
  · linarith

/-- One rounding of a number that is not at the top of the range gives a finite value near it. -/
theorem round64_near {q : Rat} (h : |q| ≤ pow2 1023) :
    ∃ r, round64 q = .fin r ∧ |r - q| ≤ |q| * pow2 (-53) + pow2 (-1074) := by
  have h53 := pow2_pos (-53)
  by_cases hq : q = 0
  · exact ⟨0, by simp [round64, hq], by simp [hq, (pow2_pos _).le]⟩
  set u := pow2 (ulpExp q) with hu
  have hup : 0 < u := pow2_pos _
  set r : Rat := roundRat .halfEven (q / u) * u with hr
  have hn : |r - q| ≤ |q| * pow2 (-53) + pow2 (-1074) := by
    have hm : r - q = ((roundRat .halfEven (q / u) : Rat) - q / u) * u := by
      rw [hr, sub_mul, div_mul_cancel₀ _ hup.ne']
    have := mul_le_mul_of_nonneg_right (roundRat_near .halfEven (q / u)) hup.le
    rw [hm, abs_mul, abs_of_pos hup]
    have := half_ulp_le hq
    linarith
  have hlt : |r| < pow2 1024 := by
    have h1 : |r| ≤ |r - q| + |q| := by simpa using abs_add_le (r - q) q
    have h2 : pow2 1023 * pow2 (-53) + pow2 (-1074) + pow2 1023 < pow2 1024 := by decide +kernel
    have h3 := mul_le_mul_of_nonneg_right h h53.le
    linarith
  refine ⟨r, ?_, hn⟩
  simp only [round64, hq, if_false, ← hu, ← hr, not_le.mpr hlt]

end Sys2Proof.Machine
end

