-- ==== Sys2Proof/Laws/Algorithms.lean ====
section
/-! SUPPORT. What the check of R124 establishes: the arithmetic on sums of cosines is that of the reals, an expression's linear
form is its value over the reals, two expressions with the same sums have the same value, and the error analysis bounds what
binary64 gives. -/

namespace Sys2Proof.Machine

@[simp] theorem exactNum_ofInt (n : Int) : exactNum.ofInt n = (n : ℝ) := rfl

@[simp] theorem exactNum_add (a b : ℝ) : exactNum.add a b = a + b := rfl

@[simp] theorem exactNum_sub (a b : ℝ) : exactNum.sub a b = a - b := rfl

@[simp] theorem exactNum_mul (a b : ℝ) : exactNum.mul a b = a * b := rfl

@[simp] theorem exactNum_div (a b : ℝ) : exactNum.div a b = a / b := rfl

@[simp] theorem exactNum_fma (a b c : ℝ) : exactNum.fma a b c = a * b + c := rfl

@[simp] theorem exactNum_sqrt (a : ℝ) : exactNum.sqrt a = Real.sqrt a := rfl

@[simp] theorem exactNum_cos (a : ℝ) : exactNum.cos a = Real.cos a := rfl

@[simp] theorem exactNum_pi : exactNum.pi = Real.pi := rfl

/-- `cos(n·π/16)`. -/
noncomputable def cosAngle (n : Nat) : ℝ := Real.cos ((n : ℝ) * Real.pi / 16)

/-- The real number that a sum of cosines stands for. -/
noncomputable def cosSumReal (p : CosSum) : ℝ := ∑ j ∈ Finset.range 8, (coeff p j : ℝ) * cosAngle j

theorem cosAngle_zero : cosAngle 0 = 1 := by simp [cosAngle]

theorem cosAngle_eight : cosAngle 8 = 0 := by
  rw [cosAngle, show ((8 : Nat) : ℝ) * Real.pi / 16 = Real.pi / 2 by push_cast; ring, Real.cos_pi_div_two]

theorem cosAngle_add_period (n k : Nat) : cosAngle (n + 32 * k) = cosAngle n := by
  rw [cosAngle, cosAngle, show ((n + 32 * k : Nat) : ℝ) * Real.pi / 16 = (n : ℝ) * Real.pi / 16 + (k : ℝ) * (2 * Real.pi) by
    push_cast; ring, Real.cos_add_nat_mul_two_pi]

theorem cosAngle_reflect {m j : Nat} (h : m + j = 16) : cosAngle m = -cosAngle j := by
  have hm : (m : ℝ) = 16 - j := by rw [eq_sub_iff_add_eq]; exact_mod_cast h
  rw [cosAngle, cosAngle, hm, show (16 - (j : ℝ)) * Real.pi / 16 = Real.pi - (j : ℝ) * Real.pi / 16 by ring, Real.cos_pi_sub]

theorem cosAngle_reflect_period {m j : Nat} (h : m + j = 32) : cosAngle m = cosAngle j := by
  have hm : (m : ℝ) = 32 - j := by rw [eq_sub_iff_add_eq]; exact_mod_cast h
  rw [cosAngle, cosAngle, hm, show (32 - (j : ℝ)) * Real.pi / 16 = 2 * Real.pi - (j : ℝ) * Real.pi / 16 by ring,
    Real.cos_two_pi_sub]

/-- The table of R122 is the cosine. -/
theorem basisIndex_angle (n : Nat) :
    cosAngle n = (if (basisIndex n).1 then -1 else 1) * cosAngle (basisIndex n).2 := by
  rw [show n = n % 32 + 32 * (n / 32) by omega, cosAngle_add_period]
  simp only [basisIndex, Nat.add_mul_mod_self_left, Nat.mod_mod]
  by_cases h1 : n % 32 ≤ 8
  · simp [h1]
  by_cases h2 : n % 32 ≤ 16
  · simpa [h1, h2] using cosAngle_reflect (m := n % 32) (j := 16 - n % 32) (by omega)
  have h : cosAngle (n % 32) = cosAngle (32 - n % 32) := cosAngle_reflect_period (by omega)
  by_cases h3 : n % 32 ≤ 24
  · simp [h1, h2, h3, h, cosAngle_reflect (m := 32 - n % 32) (j := n % 32 - 16) (by omega)]
  · simp [h1, h2, h3, h]

theorem basisIndex_le (n : Nat) : (basisIndex n).2 ≤ 8 := by
  simp only [basisIndex]
  split_ifs <;> simp only <;> omega

theorem coeff_ofFn (f : Fin 8 → Rat) (j : Nat) (h : j < 8) : coeff (Vector.ofFn f) j = f ⟨j, h⟩ := by
  simp [coeff, h]

theorem coeff_cosAdd (p q : CosSum) (j : Nat) : coeff (cosAdd p q) j = coeff p j + coeff q j := by
  by_cases h : j < 8 <;> simp [coeff, cosAdd, h]

theorem coeff_cosScale (r : Rat) (p : CosSum) (j : Nat) : coeff (cosScale r p) j = r * coeff p j := by
  by_cases h : j < 8 <;> simp [coeff, cosScale, h]

@[simp] theorem cosSumReal_add (p q : CosSum) : cosSumReal (cosAdd p q) = cosSumReal p + cosSumReal q := by
  simp [cosSumReal, coeff_cosAdd, add_mul, Finset.sum_add_distrib]

@[simp] theorem cosSumReal_scale (r : Rat) (p : CosSum) : cosSumReal (cosScale r p) = r * cosSumReal p := by
  simp [cosSumReal, coeff_cosScale, mul_assoc, Finset.mul_sum]

@[simp] theorem cosSumReal_rational (q : Rat) : cosSumReal (cosRational q) = q := by
  rw [cosSumReal, Finset.sum_eq_single_of_mem 0 (by simp)]
  · rw [cosRational, coeff_ofFn _ _ (by decide), cosAngle_zero]; simp
  · intro j hj h
    rw [cosRational, coeff_ofFn _ _ (Finset.mem_range.mp hj)]; simp [h]

@[simp] theorem cosSumReal_unit (n : Nat) : cosSumReal (cosUnit n) = cosAngle n := by
  rw [basisIndex_angle n]
  have hc : ∀ j ∈ Finset.range 8, (coeff (cosUnit n) j : ℝ) * cosAngle j
      = if j = (basisIndex n).2 then (if (basisIndex n).1 then -1 else 1) * cosAngle (basisIndex n).2 else 0 := by
    intro j hj
    rw [cosUnit, coeff_ofFn _ _ (Finset.mem_range.mp hj)]
    split_ifs with h <;> simp_all
  rw [cosSumReal, Finset.sum_congr rfl hc, Finset.sum_ite_eq']
  split_ifs with h1 h2 <;> try rfl
  all_goals
    have h8 : (basisIndex n).2 = 8 := by have := basisIndex_le n; simp at h1; omega
    rw [h8, cosAngle_eight]; simp

theorem foldl_cosAdd {β : Type} (f : β → CosSum) (ts : List β) (p : CosSum) :
    cosSumReal (ts.foldl (fun sum t => cosAdd sum (f t)) p) = cosSumReal p + (ts.map fun t => cosSumReal (f t)).sum := by
  induction ts generalizing p with
  | nil => simp
  | cons t ts ih => simp [ih, add_assoc]

theorem cosTerms_sum (p : CosSum) (g : Nat → ℝ) :
    ((cosTerms p).map fun t => (t.1 : ℝ) * g t.2).sum = ∑ j ∈ Finset.range 8, (coeff p j : ℝ) * g j := by
  have h : ∀ l : List (Rat × Nat), ((l.filter fun t => t.1 ≠ 0).map fun t => (t.1 : ℝ) * g t.2).sum
      = (l.map fun t => (t.1 : ℝ) * g t.2).sum := by
    intro l
    induction l with
    | nil => rfl
    | cons t l ih =>
      by_cases ht : t.1 = 0 <;> simp_all
  rw [cosTerms, h, List.map_map]
  simp [Finset.sum_range_succ, List.range_succ]
  ring

/-- A sum of terms over the cosines is linear in the factors. -/
theorem cosSumReal_flatMap (p : CosSum) (f : Rat → Nat → CosSum) (g : Nat → ℝ)
    (h : ∀ a j, cosSumReal (f a j) = (a : ℝ) * g j) :
    cosSumReal (cosFlatMap p f) = ∑ j ∈ Finset.range 8, (coeff p j : ℝ) * g j := by
  rw [cosFlatMap, foldl_cosAdd, ← cosTerms_sum]
  simp [h]

theorem cosSumReal_unitMul (i j : Nat) : cosSumReal (cosUnitMul i j) = cosAngle i * cosAngle j := by
  have h (a b : Nat) (hab : a ≤ b) : cosAngle (b - a) + cosAngle (a + b) = 2 * (cosAngle a * cosAngle b) := by
    rw [cosAngle, cosAngle, cosAngle, cosAngle, Nat.cast_sub hab, Nat.cast_add,
      show ((b : ℝ) - a) * Real.pi / 16 = b * Real.pi / 16 - a * Real.pi / 16 by ring,
      show ((a : ℝ) + b) * Real.pi / 16 = a * Real.pi / 16 + b * Real.pi / 16 by ring, Real.cos_sub, Real.cos_add]
    ring
  rw [cosUnitMul, cosSumReal_scale, cosSumReal_add, cosSumReal_unit, cosSumReal_unit]
  rcases le_total i j with hij | hij
  · rw [max_eq_right hij, min_eq_left hij, h i j hij]; push_cast; ring
  · rw [max_eq_left hij, min_eq_right hij, add_comm i j, h j i hij]; push_cast; ring

@[simp] theorem cosSumReal_mul (p q : CosSum) : cosSumReal (cosMul p q) = cosSumReal p * cosSumReal q := by
  have inner (a : Rat) (i : Nat) :
      cosSumReal (cosFlatMap q fun b j => cosScale (a * b) (cosUnitMul i j)) = (a : ℝ) * (cosAngle i * cosSumReal q) := by
    rw [cosSumReal_flatMap q _ (fun j => (a : ℝ) * (cosAngle i * cosAngle j))
      (fun b j => by rw [cosSumReal_scale, cosSumReal_unitMul]; push_cast; ring), cosSumReal, Finset.mul_sum, Finset.mul_sum]
    exact Finset.sum_congr rfl fun j _ => by ring
  rw [cosMul, cosSumReal_flatMap p _ _ inner, cosSumReal.eq_1 p, Finset.sum_mul]
  exact Finset.sum_congr rfl fun j _ => by ring

theorem cosInv_real {p r : CosSum} (h : cosInv p = some r) : cosSumReal p * cosSumReal r = 1 := by
  simp only [cosInv] at h
  split at h
  case isTrue hr =>
    rw [← Option.some.inj h, ← cosSumReal_mul, hr]; simp
  case isFalse => cases h

/-! ### Linear forms -/

/-- The value of a linear form. -/
noncomputable def Linear.real (operand : Nat → ℝ) : Linear → ℝ
  | .number p => cosSumReal p
  | .multiples ts => (ts.map fun t => cosSumReal t.2 * operand t.1).sum

theorem addTerm_sum (operand : Nat → ℝ) (i : Nat) (p : CosSum) (ts : List (Nat × CosSum)) :
    ((addTerm i p ts).map fun t => cosSumReal t.2 * operand t.1).sum
      = cosSumReal p * operand i + (ts.map fun t => cosSumReal t.2 * operand t.1).sum := by
  induction ts with
  | nil => rfl
  | cons t ts ih =>
    obtain ⟨j, q⟩ := t
    simp only [addTerm]
    split
    case isTrue h => subst h; simp; ring
    case isFalse => simp [ih]; ring

theorem Linear.real_add (operand : Nat → ℝ) {a b l : Linear} (h : a.add b = some l) :
    l.real operand = a.real operand + b.real operand := by
  have sums (ts us : List (Nat × CosSum)) :
      ((us.foldr (fun t ws => addTerm t.1 t.2 ws) ts).map fun t => cosSumReal t.2 * operand t.1).sum
        = (ts.map fun t => cosSumReal t.2 * operand t.1).sum + (us.map fun t => cosSumReal t.2 * operand t.1).sum := by
    induction us with
    | nil => simp
    | cons u us ih => simp only [List.foldr_cons, addTerm_sum, ih, List.map_cons, List.sum_cons]; ring
  cases a <;> cases b <;> simp only [Linear.add, Option.some.injEq, reduceCtorEq] at h <;> subst h
  · simp [Linear.real]
  · simp only [Linear.real, sums]

theorem Linear.real_scale (operand : Nat → ℝ) (p : CosSum) (a : Linear) :
    (a.scale p).real operand = cosSumReal p * a.real operand := by
  cases a with
  | number q => simp [Linear.real, Linear.scale]
  | multiples ts =>
    simp only [Linear.real, Linear.scale]
    induction ts with
    | nil => simp
    | cons t ts ih => simp only [List.map_cons, List.sum_cons, ih, cosSumReal_mul]; ring

theorem Linear.real_mul (operand : Nat → ℝ) {a b l : Linear} (h : a.mul b = some l) :
    l.real operand = a.real operand * b.real operand := by
  cases a with
  | number p => rw [← Option.some.inj h, Linear.real_scale]; rfl
  | multiples ts =>
    cases b with
    | number q => rw [← Option.some.inj h, Linear.real_scale, mul_comm]; rfl
    | multiples us => cases h

theorem Linear.real_isZero (operand : Nat → ℝ) {a : Linear} (h : a.isZero = true) : a.real operand = 0 := by
  cases a with
  | number p => rw [Linear.real, beq_iff_eq.mp h]; simp
  | multiples ts =>
    have ht : (ts.map fun t => cosSumReal t.2 * operand t.1) = ts.map fun _ => (0 : ℝ) :=
      List.map_congr_left fun t hm => by rw [beq_iff_eq.mp (List.all_eq_true.mp h t hm)]; simp
    rw [Linear.real, ht]
    simp

/-- The exact value of a constant is what R121, R122 and R128 compute over the reals. -/
theorem exactConst_real (c : Const) : refConst exactNum c = cosSumReal (exactConst c) := by
  have h64 : Real.sqrt 64 = 8 := by rw [show (64 : ℝ) = 8 ^ 2 by norm_num]; exact Real.sqrt_sq (by norm_num)
  cases c with
  | lit num den => simp [refConst, exactConst]
  | norm k =>
    by_cases hk : k = 0
    · simp only [refConst, exactConst, hk, if_true, cosSumReal_unit]
      rw [cosAngle, show ((4 : Nat) : ℝ) * Real.pi / 16 = Real.pi / 4 by push_cast; ring, Real.cos_pi_div_four]
      simp only [exactNum_ofInt, exactNum_div, exactNum_sqrt]
      have h2 : Real.sqrt 2 ≠ 0 := by positivity
      have h22 : Real.sqrt 2 * Real.sqrt 2 = 2 := Real.mul_self_sqrt (by norm_num)
      push_cast
      field_simp
      linarith [h22]
    · simp [refConst, exactConst, hk]
  | cosBasis u x => simp [refConst, exactConst, cosAngle]
  | quarter => simp [refConst, exactConst, h64]; norm_num
  | eighth => simp [refConst, exactConst, h64]
  | cosSum q =>
    have hq (j : Nat) : ((coeff q j).num : ℝ) / ((coeff q j).den : ℝ) = (coeff q j : ℝ) := by
      exact_mod_cast Rat.num_div_den (coeff q j)
    simp [refConst, exactConst, cosSumReal, cosAngle, hq, List.range_succ, Finset.sum_range_succ]

/-- What a linear form of an expression is: its value over the reals. -/
theorem linearOf_real (operand : Nat → ℝ) : ∀ {e : Expr} {l : Linear}, linearOf e = some l →
    evalExpr exactNum (refConst exactNum) operand e = l.real operand := by
  intro e
  induction e with
  | operand i => intro l h; rw [← Option.some.inj h]; simp [evalExpr, Linear.real]
  | const c => intro l h; rw [← Option.some.inj h]; simp [evalExpr, Linear.real, exactConst_real]
  | neg a ha =>
    intro l h
    obtain ⟨m, hm, rfl⟩ := Option.map_eq_some_iff.mp h
    simp [evalExpr, ha hm, Linear.real_scale]
  | add a b ha hb =>
    intro l h
    obtain ⟨m, hm, h⟩ := Option.bind_eq_some_iff.mp h
    obtain ⟨n, hn, h⟩ := Option.bind_eq_some_iff.mp h
    simp [evalExpr, ha hm, hb hn, Linear.real_add operand h]
  | sub a b ha hb =>
    intro l h
    obtain ⟨m, hm, h⟩ := Option.bind_eq_some_iff.mp h
    obtain ⟨n, hn, h⟩ := Option.bind_eq_some_iff.mp h
    simp [evalExpr, ha hm, hb hn, Linear.real_add operand h, Linear.real_scale, sub_eq_add_neg]
  | mul a b ha hb =>
    intro l h
    obtain ⟨m, hm, h⟩ := Option.bind_eq_some_iff.mp h
    obtain ⟨n, hn, h⟩ := Option.bind_eq_some_iff.mp h
    simp [evalExpr, ha hm, hb hn, Linear.real_mul operand h]
  | div a c ha =>
    intro l h
    obtain ⟨m, hm, h⟩ := Option.bind_eq_some_iff.mp h
    obtain ⟨r, hr, rfl⟩ := Option.map_eq_some_iff.mp h
    have hi := cosInv_real hr
    have hc : cosSumReal (exactConst c) ≠ 0 := left_ne_zero_of_mul_eq_one hi
    have hv : evalExpr exactNum (refConst exactNum) operand (.div a c) = m.real operand / cosSumReal (exactConst c) := by
      simp [evalExpr, ha hm, exactConst_real]
    rw [hv, Linear.real_scale, div_eq_iff hc, mul_right_comm, mul_comm (cosSumReal r), hi, one_mul]
  | fma a b c ha hb hc =>
    intro l h
    obtain ⟨k, h', h⟩ := Option.bind_eq_some_iff.mp h
    obtain ⟨m, hm, h'⟩ := Option.bind_eq_some_iff.mp h'
    obtain ⟨n, hn, h'⟩ := Option.bind_eq_some_iff.mp h'
    obtain ⟨o, ho, h⟩ := Option.bind_eq_some_iff.mp h
    simp [evalExpr, ha hm, hb hn, hc ho, Linear.real_add operand h, Linear.real_mul operand h']

/-- Two expressions with the same sums (R124) have the same value over the reals, on all operands. -/
theorem sameSums_real {e e' : Expr} (h : sameSums e e' = true) (operand : Nat → ℝ) :
    evalExpr exactNum (refConst exactNum) operand e = evalExpr exactNum (refConst exactNum) operand e' := by
  have hd : evalExpr exactNum (refConst exactNum) operand (.sub e e')
    = evalExpr exactNum (refConst exactNum) operand e - evalExpr exactNum (refConst exactNum) operand e' := rfl
  rw [sameSums, Option.any_eq_true] at h
  obtain ⟨l, hl, hz⟩ := h
  rw [linearOf_real operand hl, Linear.real_isZero operand hz] at hd
  exact (sub_eq_zero.mp hd.symm)

/-! ### Accuracy -/

/-- The constants of an implementation, and their exact values, are as near as the error analysis takes them to be. -/
def ConstantsKnown (const : Const → Real64) : Prop :=
  ∀ (c : Const) (k : Known), constKnown c = some k →
    (∃ q : Rat, const c = .fin q ∧ |q - k.value| ≤ k.slack) ∧ |refConst exactNum c - (k.value : ℝ)| ≤ (k.slack : ℝ)

/-- A binary64 value is finite and lies as near its exact value as a bound says. -/
def Bound.holds (b : Bound) (v : Real64) (y : ℝ) : Prop := ∃ r : Rat, v = .fin r ∧ |(r : ℝ) - y| ≤ b.err ∧ |y| ≤ b.size

theorem Bound.rounded_holds {b b' : Bound} (h : b.rounded = some b') {x : Rat} {y : ℝ} (hx : |(x : ℝ) - y| ≤ b.err)
    (hy : |y| ≤ b.size) : b'.holds (round64 x) y := by
  simp only [Bound.rounded] at h
  split at h
  case isFalse => cases h
  case isTrue hb =>
    have hxs : |x| ≤ b.size + b.err := by
      have h1 : |(x : ℝ)| ≤ |(x : ℝ) - y| + |y| := by simpa using abs_add_le ((x : ℝ) - y) y
      have h2 : |(x : ℝ)| ≤ ((b.size + b.err : Rat) : ℝ) := by push_cast; linarith
      exact_mod_cast h2
    obtain ⟨r, hr, hn⟩ := round64_near (hxs.trans hb)
    rw [← Option.some.inj h]
    refine ⟨r, hr, ?_, hy⟩
    have hm := mul_le_mul_of_nonneg_right hxs (pow2_pos (-53)).le
    have hn' : ((|r - x| : Rat) : ℝ) ≤ (((b.size + b.err) * pow2 (-53) + pow2 (-1074) : Rat) : ℝ) :=
      Rat.cast_le.mpr (hn.trans (by linarith))
    rw [Rat.cast_abs, Rat.cast_sub] at hn'
    have ht := abs_add_le ((r : ℝ) - x) ((x : ℝ) - y)
    rw [sub_add_sub_cancel] at ht
    push_cast at hn' ⊢
    linarith

theorem Bound.add_holds {a b : Bound} {x x' y y' : ℝ} (hx : |x - y| ≤ a.err) (hy : |y| ≤ a.size) (hx' : |x' - y'| ≤ b.err)
    (hy' : |y'| ≤ b.size) :
    (|(x + x') - (y + y')| ≤ ((a.add b).err : ℝ) ∧ |y + y'| ≤ ((a.add b).size : ℝ))
    ∧ |(x - x') - (y - y')| ≤ ((a.add b).err : ℝ) ∧ |y - y'| ≤ ((a.add b).size : ℝ) := by
  simp only [Bound.add]
  push_cast
  rw [show x + x' - (y + y') = (x - y) + (x' - y') by ring, show x - x' - (y - y') = (x - y) - (x' - y') by ring]
  refine ⟨⟨?_, ?_⟩, ?_, ?_⟩
  · linarith [abs_add_le (x - y) (x' - y')]
  · linarith [abs_add_le y y']
  · linarith [abs_sub (x - y) (x' - y')]
  · linarith [abs_sub y y']

theorem Bound.mul_holds {a b : Bound} {x x' y y' : ℝ} (hx : |x - y| ≤ a.err) (hy : |y| ≤ a.size) (hx' : |x' - y'| ≤ b.err)
    (hy' : |y'| ≤ b.size) :
    |x * x' - y * y'| ≤ ((a.mul b).err : ℝ) ∧ |y * y'| ≤ ((a.mul b).size : ℝ) := by
  simp only [Bound.mul]
  push_cast
  have product {p q r s : ℝ} (h : |p| ≤ r) (h' : |q| ≤ s) : |p * q| ≤ r * s := by
    rw [abs_mul]; exact mul_le_mul h h' (abs_nonneg q) ((abs_nonneg p).trans h)
  refine ⟨?_, product hy hy'⟩
  rw [show x * x' - y * y' = (y * (x' - y') + y' * (x - y)) + (x - y) * (x' - y') by ring]
  have h1 := product hy hx'
  have h2 := product hy' hx
  have h3 := product hx hx'
  have h4 := abs_add_le (y * (x' - y') + y' * (x - y)) ((x - y) * (x' - y'))
  have h5 := abs_add_le (y * (x' - y')) (y' * (x - y))
  linarith

theorem Bound.div_holds {a b : Bound} {k : Known} (h : a.div k = some b) {x y c c' : ℝ} (hx : |x - y| ≤ a.err)
    (hy : |y| ≤ a.size) (hc : |c - k.value| ≤ k.slack) (hc' : |c' - k.value| ≤ k.slack) :
    c ≠ 0 ∧ |x / c - y / c'| ≤ (b.err : ℝ) ∧ |y / c'| ≤ (b.size : ℝ) := by
  simp only [Bound.div] at h
  split at h
  case isFalse => cases h
  case isTrue hl =>
    rw [← Option.some.inj h]
    set least := |k.value| - k.slack with hleast
    have hl' : (0 : ℝ) < least := by exact_mod_cast hl
    have hk : (least : ℝ) = |(k.value : ℝ)| - k.slack := by rw [hleast]; push_cast; rfl
    have atLeast {d : ℝ} (hd : |d - k.value| ≤ k.slack) : (least : ℝ) ≤ |d| := by
      have := abs_sub_abs_le_abs_sub (k.value : ℝ) d
      rw [abs_sub_comm] at this
      linarith
    have hcl := atLeast hc
    have hcl' := atLeast hc'
    have hc0 : c ≠ 0 := abs_pos.mp (hl'.trans_le hcl)
    have hc0' : c' ≠ 0 := abs_pos.mp (hl'.trans_le hcl')
    have hs : (0 : ℝ) ≤ a.size := (abs_nonneg y).trans hy
    have he : (0 : ℝ) ≤ a.err := (abs_nonneg _).trans hx
    have hcc : |c' - c| ≤ 2 * k.slack := by
      have := abs_sub_le c' (k.value : ℝ) c
      rw [abs_sub_comm (k.value : ℝ) c] at this
      linarith
    refine ⟨hc0, ?_, ?_⟩
    · rw [show x / c - y / c' = (x - y) / c + y * (c' - c) / (c * c') by field_simp; ring]
      refine (abs_add_le _ _).trans ?_
      push_cast
      refine add_le_add ?_ ?_
      · rw [abs_div]; exact div_le_div₀ he hx hl' hcl
      · rw [abs_div, abs_mul, abs_mul]
        exact div_le_div₀ (mul_nonneg hs ((abs_nonneg _).trans hcc)) (mul_le_mul hy hcc (abs_nonneg _) hs) (mul_pos hl' hl')
          (mul_le_mul hcl hcl' hl'.le (abs_nonneg c))
    · rw [abs_div]
      push_cast
      exact div_le_div₀ hs hy hl' hcl'

/-- The error analysis is right: on operands in its range the binary64 value of an expression is finite and lies as near its
exact value as the analysis says. -/
theorem errorBound_holds {const : Const → Real64} (hk : ConstantsKnown const) {range : Rat} {operand : Nat → Rat}
    (ho : ∀ i, |operand i| ≤ range) : ∀ {e : Expr} {b : Bound}, errorBound range e = some b →
    b.holds (evalExpr b64 const (fun i => .fin (operand i)) e)
      (evalExpr exactNum (refConst exactNum) (fun i => (operand i : ℝ)) e) := by
  intro e
  induction e with
  | operand i =>
    intro b h
    rw [← Option.some.inj h]
    exact ⟨operand i, rfl, by simp [evalExpr], by simpa [evalExpr] using by exact_mod_cast ho i⟩
  | const c =>
    intro b h
    obtain ⟨k, hc, rfl⟩ := Option.map_eq_some_iff.mp h
    obtain ⟨⟨q, hq, hn⟩, hx⟩ := hk c k hc
    have hn' : |(q : ℝ) - k.value| ≤ (k.slack : ℝ) := by exact_mod_cast hn
    refine ⟨q, hq, ?_, ?_⟩
    · have := abs_sub_le (q : ℝ) k.value (refConst exactNum c)
      rw [abs_sub_comm (k.value : ℝ)] at this
      push_cast
      simp only [evalExpr]
      linarith
    · have := abs_sub_abs_le_abs_sub (refConst exactNum c) (k.value : ℝ)
      push_cast
      simp only [evalExpr]
      linarith
  | neg a ha =>
    intro b h
    obtain ⟨p, hp, h⟩ := Option.bind_eq_some_iff.mp h
    obtain ⟨x, hx, hxe, hxs⟩ := ha hp
    have hv : evalExpr b64 const (fun i => .fin (operand i)) (.neg a) = round64 (-x) := by
      have h0 : ofInt64 0 = .fin 0 := by simp [ofInt64, round64]
      change sub64 (ofInt64 0) (evalExpr b64 const (fun i => .fin (operand i)) a) = _
      rw [hx, h0]
      simp [sub64, neg64, add64]
    rw [hv]
    refine Bound.rounded_holds h ?_ ?_
    · rw [← abs_neg]; simpa [evalExpr, neg_add_eq_sub, add_comm] using hxe
    · simpa [evalExpr] using hxs
  | add a b ha hb =>
    intro l h
    obtain ⟨p, hp, h⟩ := Option.bind_eq_some_iff.mp h
    obtain ⟨q, hq, h⟩ := Option.bind_eq_some_iff.mp h
    obtain ⟨x, hx, hxe, hxs⟩ := ha hp
    obtain ⟨y, hy, hye, hys⟩ := hb hq
    have hs := (Bound.add_holds hxe hxs hye hys).1
    have hv : evalExpr b64 const (fun i => .fin (operand i)) (.add a b) = round64 (x + y) := by
      simp only [evalExpr, hx, hy]; rfl
    rw [hv]
    exact Bound.rounded_holds h (by push_cast; exact hs.1) hs.2
  | sub a b ha hb =>
    intro l h
    obtain ⟨p, hp, h⟩ := Option.bind_eq_some_iff.mp h
    obtain ⟨q, hq, h⟩ := Option.bind_eq_some_iff.mp h
    obtain ⟨x, hx, hxe, hxs⟩ := ha hp
    obtain ⟨y, hy, hye, hys⟩ := hb hq
    have hs := (Bound.add_holds hxe hxs hye hys).2
    have hv : evalExpr b64 const (fun i => .fin (operand i)) (.sub a b) = round64 (x - y) := by
      simp only [evalExpr, hx, hy, sub_eq_add_neg x y]; rfl
    rw [hv]
    exact Bound.rounded_holds h (by push_cast; exact hs.1) hs.2
  | mul a b ha hb =>
    intro l h
    obtain ⟨p, hp, h⟩ := Option.bind_eq_some_iff.mp h
    obtain ⟨q, hq, h⟩ := Option.bind_eq_some_iff.mp h
    obtain ⟨x, hx, hxe, hxs⟩ := ha hp
    obtain ⟨y, hy, hye, hys⟩ := hb hq
    have hs := Bound.mul_holds hxe hxs hye hys
    have hv : evalExpr b64 const (fun i => .fin (operand i)) (.mul a b) = round64 (x * y) := by
      simp only [evalExpr, hx, hy]; rfl
    rw [hv]
    exact Bound.rounded_holds h (by push_cast; exact hs.1) hs.2
  | div a c ha =>
    intro l h
    obtain ⟨p, hp, h⟩ := Option.bind_eq_some_iff.mp h
    obtain ⟨k, hc, h⟩ := Option.bind_eq_some_iff.mp h
    obtain ⟨q, hq, h⟩ := Option.bind_eq_some_iff.mp h
    obtain ⟨x, hx, hxe, hxs⟩ := ha hp
    obtain ⟨⟨d, hd, hn⟩, hcx⟩ := hk c k hc
    have hn' : |(d : ℝ) - k.value| ≤ (k.slack : ℝ) := by exact_mod_cast hn
    obtain ⟨hd0, hs⟩ := Bound.div_holds hq hxe hxs hn' hcx
    have hd0' : d ≠ 0 := by exact_mod_cast hd0
    have hv : evalExpr b64 const (fun i => .fin (operand i)) (.div a c) = round64 (x / d) := by
      change div64 (evalExpr b64 const (fun i => .fin (operand i)) a) (const c) = _
      rw [hx, hd]
      simp [div64, hd0']
    rw [hv]
    exact Bound.rounded_holds h (by push_cast; exact hs.1) hs.2
  | fma a b c ha hb hc =>
    intro l h
    obtain ⟨p, hp, h⟩ := Option.bind_eq_some_iff.mp h
    obtain ⟨q, hq, h⟩ := Option.bind_eq_some_iff.mp h
    obtain ⟨o, hoo, h⟩ := Option.bind_eq_some_iff.mp h
    obtain ⟨x, hx, hxe, hxs⟩ := ha hp
    obtain ⟨y, hy, hye, hys⟩ := hb hq
    obtain ⟨z, hz, hze, hzs⟩ := hc hoo
    have hm := Bound.mul_holds hxe hxs hye hys
    have hs := (Bound.add_holds hm.1 hm.2 hze hzs).1
    have hv : evalExpr b64 const (fun i => .fin (operand i)) (.fma a b c) = round64 (x * y + z) := by
      simp only [evalExpr, hx, hy, hz]; rfl
    rw [hv]
    exact Bound.rounded_holds h (by push_cast; exact hs.1) hs.2

/-- What an accurate expression gives on operands in its range. -/
theorem isAccurate_holds {const : Const → Real64} (hk : ConstantsKnown const) {range : Rat} {operand : Nat → Rat}
    (ho : ∀ i, |operand i| ≤ range) {e : Expr} (h : isAccurate range e = true) :
    ∃ r : Rat, evalExpr b64 const (fun i => .fin (operand i)) e = .fin r
      ∧ |(r : ℝ) - evalExpr exactNum (refConst exactNum) (fun i => (operand i : ℝ)) e| ≤ 1 / 10 ^ 7 := by
  rw [isAccurate, Option.any_eq_true] at h
  obtain ⟨b, hb, hs⟩ := h
  obtain ⟨r, hr, he, _⟩ := errorBound_holds hk ho hb
  have hs' : (b.err : ℝ) ≤ (roundTripShare : Rat) := by exact_mod_cast of_decide_eq_true hs
  refine ⟨r, hr, he.trans (hs'.trans ?_)⟩
  rw [roundTripShare, Rat.mkRat_eq_div]
  norm_num

/-- R15: an expression that stays finite gives a finite value on operands far below the binary64 range. -/
theorem staysFinite_holds {const : Const → Real64} (hk : ConstantsKnown const) {operand : Nat → Rat}
    (ho : ∀ i, |operand i| ≤ wideRange) {e : Expr} (h : staysFinite e = true) :
    ∃ r : Rat, evalExpr b64 const (fun i => .fin (operand i)) e = .fin r := by
  obtain ⟨b, hb⟩ := Option.isSome_iff_exists.mp h
  obtain ⟨r, hr, -⟩ := errorBound_holds hk ho hb
  exact ⟨r, hr⟩

/-! ### All-zero blocks -/

theorem Linear.add_multiples {a b : Linear} {ts : List (Nat × CosSum)} (h : a.add b = some (.multiples ts)) :
    (∃ us, a = .multiples us) ∧ ∃ us, b = .multiples us := by
  cases a <;> cases b <;> simp_all [Linear.add]

theorem Linear.scale_multiples {p : CosSum} {a : Linear} {ts : List (Nat × CosSum)} (h : a.scale p = .multiples ts) :
    ∃ us, a = .multiples us := by
  cases a <;> simp_all [Linear.scale]

theorem Linear.mul_multiples {a b : Linear} {ts : List (Nat × CosSum)} (h : a.mul b = some (.multiples ts)) :
    (∃ us, a = .multiples us) ∨ ∃ us, b = .multiples us := by
  cases a <;> cases b <;> simp_all [Linear.mul, Linear.scale]

theorem round64_zero : round64 0 = .fin 0 := by simp [round64]

/-- A product of finite values, one of them 0. -/
theorem mul64_zero {x y : Real64} (hx : ∃ r, x = .fin r) (hy : ∃ r, y = .fin r) (h : x = .fin 0 ∨ y = .fin 0) :
    mul64 x y = .fin 0 := by
  obtain ⟨p, rfl⟩ := hx
  obtain ⟨q, rfl⟩ := hy
  rcases h with h | h <;> rw [h] <;> simp [mul64, round64_zero]

/-- R123, R125: an accurate expression that is a sum of multiples of operands gives 0 exactly where every operand is 0, whatever
its constants round to. -/
theorem evalExpr_zero {const : Const → Real64} (hk : ConstantsKnown const) {range : Rat} (hr : 0 ≤ range) :
    ∀ {e : Expr} {ts : List (Nat × CosSum)} {b : Bound}, linearOf e = some (.multiples ts) → errorBound range e = some b →
      evalExpr b64 const (fun _ => .fin 0) e = .fin 0 := by
  have finite {e : Expr} {b : Bound} (h : errorBound range e = some b) :
      ∃ r, evalExpr b64 const (fun _ => .fin 0) e = .fin r := by
    obtain ⟨r, hv, -⟩ := errorBound_holds hk (operand := fun _ => 0) (by simpa using hr) h
    exact ⟨r, hv⟩
  intro e
  induction e with
  | operand i => intro ts b _ _; rfl
  | const c => intro ts b h _; cases h
  | neg a ha =>
    intro ts b h hb
    obtain ⟨m, hm, h⟩ := Option.map_eq_some_iff.mp h
    obtain ⟨p, hp, -⟩ := Option.bind_eq_some_iff.mp hb
    obtain ⟨us, rfl⟩ := Linear.scale_multiples h
    change sub64 (ofInt64 0) (evalExpr b64 const (fun _ => .fin 0) a) = _
    rw [ha hm hp]
    simp [ofInt64, sub64, neg64, add64, round64_zero]
  | add a b ha hb =>
    intro ts l h he
    obtain ⟨m, hm, h⟩ := Option.bind_eq_some_iff.mp h
    obtain ⟨n, hn, h⟩ := Option.bind_eq_some_iff.mp h
    obtain ⟨p, hp, he⟩ := Option.bind_eq_some_iff.mp he
    obtain ⟨q, hq, -⟩ := Option.bind_eq_some_iff.mp he
    obtain ⟨⟨us, rfl⟩, vs, rfl⟩ := Linear.add_multiples h
    change add64 (evalExpr b64 const (fun _ => .fin 0) a) (evalExpr b64 const (fun _ => .fin 0) b) = _
    rw [ha hm hp, hb hn hq]
    simp [add64, round64_zero]
  | sub a b ha hb =>
    intro ts l h he
    obtain ⟨m, hm, h⟩ := Option.bind_eq_some_iff.mp h
    obtain ⟨n, hn, h⟩ := Option.bind_eq_some_iff.mp h
    obtain ⟨p, hp, he⟩ := Option.bind_eq_some_iff.mp he
    obtain ⟨q, hq, -⟩ := Option.bind_eq_some_iff.mp he
    obtain ⟨⟨us, rfl⟩, vs, hv⟩ := Linear.add_multiples h
    obtain ⟨ws, rfl⟩ := Linear.scale_multiples hv
    change sub64 (evalExpr b64 const (fun _ => .fin 0) a) (evalExpr b64 const (fun _ => .fin 0) b) = _
    rw [ha hm hp, hb hn hq]
    simp [sub64, neg64, add64, round64_zero]
  | mul a b ha hb =>
    intro ts l h he
    obtain ⟨m, hm, h⟩ := Option.bind_eq_some_iff.mp h
    obtain ⟨n, hn, h⟩ := Option.bind_eq_some_iff.mp h
    obtain ⟨p, hp, he⟩ := Option.bind_eq_some_iff.mp he
    obtain ⟨q, hq, -⟩ := Option.bind_eq_some_iff.mp he
    refine mul64_zero (finite hp) (finite hq) ?_
    rcases Linear.mul_multiples h with ⟨us, rfl⟩ | ⟨us, rfl⟩
    · exact .inl (ha hm hp)
    · exact .inr (hb hn hq)
  | div a c ha =>
    intro ts l h he
    obtain ⟨m, hm, h⟩ := Option.bind_eq_some_iff.mp h
    obtain ⟨r, -, h⟩ := Option.map_eq_some_iff.mp h
    obtain ⟨p, hp, he⟩ := Option.bind_eq_some_iff.mp he
    obtain ⟨k, hc, he⟩ := Option.bind_eq_some_iff.mp he
    obtain ⟨q, hq, -⟩ := Option.bind_eq_some_iff.mp he
    obtain ⟨us, rfl⟩ := Linear.scale_multiples h
    obtain ⟨⟨d, hd, hn⟩, hcx⟩ := hk c k hc
    obtain ⟨x, hx, hxe, hxs⟩ := errorBound_holds hk (operand := fun _ => 0) (by simpa using hr) hp
    have hd0 : d ≠ 0 := by exact_mod_cast (Bound.div_holds hq hxe hxs (by exact_mod_cast hn : |(d : ℝ) - k.value| ≤ _) hcx).1
    change div64 (evalExpr b64 const (fun _ => .fin 0) a) (const c) = _
    rw [ha hm hp, hd]
    simp [div64, hd0, round64_zero]
  | fma a b c ha hb hc =>
    intro ts l h he
    obtain ⟨k, h', h⟩ := Option.bind_eq_some_iff.mp h
    obtain ⟨m, hm, h'⟩ := Option.bind_eq_some_iff.mp h'
    obtain ⟨n, hn, h'⟩ := Option.bind_eq_some_iff.mp h'
    obtain ⟨o, ho, h⟩ := Option.bind_eq_some_iff.mp h
    obtain ⟨p, hp, he⟩ := Option.bind_eq_some_iff.mp he
    obtain ⟨q, hq, he⟩ := Option.bind_eq_some_iff.mp he
    obtain ⟨z, hz, -⟩ := Option.bind_eq_some_iff.mp he
    obtain ⟨⟨us, rfl⟩, vs, rfl⟩ := Linear.add_multiples h
    obtain ⟨x, hx⟩ := finite hp
    obtain ⟨y, hy⟩ := finite hq
    have hxy : x = 0 ∨ y = 0 := by
      rcases Linear.mul_multiples h' with ⟨ws, rfl⟩ | ⟨ws, rfl⟩
      · exact .inl (Real64.fin.inj (hx.symm.trans (ha hm hp)))
      · exact .inr (Real64.fin.inj (hy.symm.trans (hb hn hq)))
    change fma64 (evalExpr b64 const (fun _ => .fin 0) a) (evalExpr b64 const (fun _ => .fin 0) b)
      (evalExpr b64 const (fun _ => .fin 0) c) = _
    rw [hx, hy, hc ho hz]
    rcases hxy with rfl | rfl <;> simp [fma64, round64_zero]

end Sys2Proof.Machine
end

