-- ==== Sys2Proof/Laws/Formulas.lean ====
section
/-! SUPPORT. Which expressions count as evaluations of a formula: the printed formula does. What R129 makes of a value. -/

namespace Sys2Proof.Machine

theorem Product.same_self (p : Product) : p.same p = true := by
  simp [Product.same, List.isPerm_iff]

theorem takeProduct_head (p : Product) (qs : List Product) : takeProduct p (p :: qs) = some qs := by
  simp [takeProduct, Product.same_self]

theorem sameProducts_self (ps : List Product) : sameProducts ps ps = true := by
  induction ps with
  | nil => rfl
  | cons p ps ih => simp [sameProducts, takeProduct_head, ih]

theorem isRearrangement_refExpr (site : Site) : isRearrangement site (refExpr site) = true := sameProducts_self _

/-- The order of R128 is an evaluation of every formula. -/
theorem isEvaluation_refExpr (site : Site) : isEvaluation site (refExpr site) = true := by
  cases site with
  | pixel ch => exact isRearrangement_refExpr _
  | dctF u v => simp [isEvaluation, isTransform]
  | dctI x y => simp [isEvaluation, isTransform]

/-- The reference expressions are legal together. -/
theorem allLegal_refExpr : allLegal refExpr := isEvaluation_refExpr

@[simp] theorem admitValue_pixel (ch : Channel) (operand : Nat → Real64) (v : Real64) :
    admitValue (.pixel ch) operand v = v := rfl

@[simp] theorem admitValue_dctI (x y : Nat) (operand : Nat → Real64) (v : Real64) :
    admitValue (.dctI x y) operand v = v := rfl

/-- What R129 makes of a value: nothing, or the exact 0 of a constant block. -/
theorem admitValue_cases (site : Site) (operand : Nat → Real64) (v : Real64) :
    admitValue site operand v = v
    ∨ (∃ c, constantBlock operand = some c) ∧ admitValue site operand v = .fin 0 := by
  cases site with
  | pixel ch => exact .inl rfl
  | dctI x y => exact .inl rfl
  | dctF u w =>
    simp only [admitValue]
    split
    · exact .inl rfl
    · split
      · exact .inl rfl
      · cases v with
        | fin q =>
          simp only [nearZero]
          split
          · exact .inl rfl
          · exact .inr ⟨⟨_, ‹_›⟩, rfl⟩
        | inf s => exact .inr ⟨⟨_, ‹_›⟩, rfl⟩
        | nan => exact .inr ⟨⟨_, ‹_›⟩, rfl⟩

end Sys2Proof.Machine
end

