-- ==== Sys2Proof/Laws/Memory.lean ====
section
/-! SUPPORT. Memories: what a read gives after a write or a placing, and that every memory operation keeps the canonical form. -/

namespace Sys2Proof.Machine

variable {α : Type}

theorem Mem.read_none_of_lt {m : Mem α} {i : Nat} (h : ∀ p ∈ m, i < p.1) : m.read i = none := by
  induction m with
  | nil => rfl
  | cons p m ih =>
    obtain ⟨a, v⟩ := p
    have ha : i < a := h (a, v) (by simp)
    have : ¬ a = i := by omega
    simp only [Mem.read, this, if_false]
    exact ih fun q hq => h q (by simp [hq])

/-- A read after a write of the same address gives the value written. -/
theorem Mem.read_write_same (m : Mem α) (i : Nat) (x : α) : (m.write i x).read i = some x := by
  induction m with
  | nil => simp [Mem.write, Mem.read]
  | cons p m ih =>
    obtain ⟨a, v⟩ := p
    by_cases h1 : i < a
    · simp [Mem.write, Mem.read, h1]
    · by_cases h2 : i = a
      · simp [Mem.write, Mem.read, h2]
      · have h3 : ¬ a = i := fun h => h2 h.symm
        simp [Mem.write, Mem.read, h1, h2, h3, ih]

/-- A write leaves every other address as it was. -/
theorem Mem.read_write_other (m : Mem α) (i j : Nat) (x : α) (h : j ≠ i) : (m.write i x).read j = m.read j := by
  have hij : ¬ i = j := fun e => h e.symm
  induction m with
  | nil => simp [Mem.write, Mem.read, hij]
  | cons p m ih =>
    obtain ⟨a, v⟩ := p
    by_cases h1 : i < a
    · simp [Mem.write, Mem.read, h1, hij]
    · by_cases h2 : i = a
      · subst h2
        simp [Mem.write, Mem.read, hij]
      · by_cases h3 : a = j
        · subst h3
          simp [Mem.write, Mem.read, h1, h2]
        · simp [Mem.write, Mem.read, h1, h2, h3, ih]

theorem Mem.wf_nil : Mem.wf ([] : Mem α) := List.Pairwise.nil

theorem Mem.wf_cons {a : Nat} {v : α} {m : Mem α} :
    Mem.wf ((a, v) :: m) ↔ (∀ p ∈ m, a < p.1) ∧ Mem.wf m := by
  simp [Mem.wf, List.pairwise_cons]

theorem Mem.mem_write {m : Mem α} {i : Nat} {x : α} {p : Nat × α} (h : p ∈ m.write i x) : p = (i, x) ∨ p ∈ m := by
  induction m with
  | nil => simpa [Mem.write] using h
  | cons q m ih =>
    obtain ⟨a, v⟩ := q
    by_cases h1 : i < a
    · simpa [Mem.write, h1] using h
    · by_cases h2 : i = a
      · simp only [Mem.write, h2, if_false, if_true, lt_irrefl, List.mem_cons] at h
        rcases h with h | h
        · exact .inl (by rw [h, h2])
        · exact .inr (by simp [h])
      · simp only [Mem.write, h1, h2, if_false, List.mem_cons] at h
        rcases h with h | h
        · exact .inr (by simp [h])
        · rcases ih h with h | h
          · exact .inl h
          · exact .inr (by simp [h])

/-- A write keeps the canonical form. -/
theorem Mem.wf_write {m : Mem α} (h : m.wf) (i : Nat) (x : α) : (m.write i x).wf := by
  induction m with
  | nil => simp [Mem.write, Mem.wf]
  | cons p m ih =>
    obtain ⟨a, v⟩ := p
    obtain ⟨ha, hm⟩ := Mem.wf_cons.mp h
    by_cases h1 : i < a
    · simp only [Mem.write, h1, if_true]
      refine Mem.wf_cons.mpr ⟨fun p hp => ?_, h⟩
      rcases List.mem_cons.mp hp with rfl | hp
      · exact h1
      · exact lt_trans h1 (ha p hp)
    · by_cases h2 : i = a
      · simp only [Mem.write, h2, if_true, lt_irrefl, if_false]
        exact Mem.wf_cons.mpr ⟨ha, hm⟩
      · simp only [Mem.write, h1, h2, if_false]
        refine Mem.wf_cons.mpr ⟨fun p hp => ?_, ih hm⟩
        rcases Mem.mem_write hp with rfl | hp
        · show a < i
          omega
        · exact ha p hp

theorem Mem.le_of_mem_place {a : Nat} {vs : List (Option α)} {p : Nat × α} (h : p ∈ Mem.place a vs) : a ≤ p.1 := by
  induction vs generalizing a with
  | nil => simp [Mem.place] at h
  | cons v vs ih =>
    cases v with
    | none => exact le_trans (Nat.le_succ a) (ih (a := a + 1) h)
    | some x =>
      rcases List.mem_cons.mp h with rfl | h
      · exact le_refl a
      · exact le_trans (Nat.le_succ a) (ih (a := a + 1) h)

/-- A memory that is placed from a list is in canonical form. -/
theorem Mem.wf_place (a : Nat) (vs : List (Option α)) : (Mem.place a vs).wf := by
  induction vs generalizing a with
  | nil => exact Mem.wf_nil
  | cons v vs ih =>
    cases v with
    | none => exact ih (a + 1)
    | some x => exact Mem.wf_cons.mpr ⟨fun p hp => Mem.le_of_mem_place hp, ih (a + 1)⟩

theorem Mem.wf_ofList (vs : List α) : (Mem.ofList vs).wf := Mem.wf_place 0 _

/-- What a placed memory holds: element `i - a` of the list. -/
theorem Mem.read_place (a : Nat) (vs : List (Option α)) (i : Nat) :
    (Mem.place a vs).read i = if a ≤ i then (vs[i - a]?).join else none := by
  induction vs generalizing a with
  | nil => simp [Mem.place, Mem.read]
  | cons v vs ih =>
    by_cases hi : a = i
    · subst hi
      cases v with
      | none => simp [Mem.place, ih]
      | some x => simp [Mem.place, Mem.read]
    · by_cases hai : a ≤ i
      · have h1 : a + 1 ≤ i := by omega
        have h2 : i - a = (i - (a + 1)) + 1 := by omega
        cases v with
        | none => simp [Mem.place, ih, h1, hai, h2]
        | some x => simp [Mem.place, Mem.read, hi, ih, h1, hai, h2]
      · have h1 : ¬ a + 1 ≤ i := by omega
        cases v with
        | none => simp [Mem.place, ih, h1, hai]
        | some x => simp [Mem.place, Mem.read, hi, ih, h1, hai]

/-- What a memory that holds exactly a list's elements holds. -/
theorem Mem.read_ofList (vs : List α) (i : Nat) : (Mem.ofList vs).read i = vs[i]? := by
  rw [Mem.ofList, Mem.read_place]
  by_cases h : i < vs.length
  · simp [h]
  · simp [h]

end Sys2Proof.Machine
end

