-- ==== Sys2Proof/Laws/State.lean ====
section
/-! SUPPORT. One lemma for each field of `State` under each shared update of it, true by `rfl`. -/

namespace Sys2Proof.Machine

@[simp] theorem State.complete_blk (s : State) : s.complete.blk = s.blk := rfl
@[simp] theorem State.complete_seq (s : State) : s.complete.seq = s.seq := rfl
@[simp] theorem State.complete_sym (s : State) : s.complete.sym = s.sym := rfl
@[simp] theorem State.complete_cmd (s : State) : s.complete.cmd = s.cmd := rfl
@[simp] theorem State.complete_width (s : State) : s.complete.width = s.width := rfl
@[simp] theorem State.complete_height (s : State) : s.complete.height = s.height := rfl
@[simp] theorem State.complete_len (s : State) : s.complete.len = s.len := rfl
@[simp] theorem State.complete_status (s : State) : s.complete.status = statusDone s.status := rfl
@[simp] theorem State.complete_errinfo (s : State) : s.complete.errinfo = s.errinfo := rfl
@[simp] theorem State.complete_work (s : State) : s.complete.work = s.work := rfl
@[simp] theorem State.complete_opidx (s : State) : s.complete.opidx = s.opidx + 1 := rfl
@[simp] theorem State.complete_raster (s : State) : s.complete.raster = s.raster := rfl
@[simp] theorem State.complete_planeY (s : State) : s.complete.planeY = s.planeY := rfl
@[simp] theorem State.complete_planeCb (s : State) : s.complete.planeCb = s.planeCb := rfl
@[simp] theorem State.complete_planeCr (s : State) : s.complete.planeCr = s.planeCr := rfl
@[simp] theorem State.complete_planeCbh (s : State) : s.complete.planeCbh = s.planeCbh := rfl
@[simp] theorem State.complete_planeCrh (s : State) : s.complete.planeCrh = s.planeCrh := rfl
@[simp] theorem State.complete_stream (s : State) : s.complete.stream = s.stream := rfl
@[simp] theorem State.complete_blkList (s : State) : s.complete.blkList = s.blkList := rfl
@[simp] theorem State.complete_resets (s : State) : s.complete.resets = s.resets := rfl
@[simp] theorem State.complete_pending (s : State) : s.complete.pending = s.pending := rfl
@[simp] theorem State.complete_inbox (s : State) : s.complete.inbox = s.inbox := rfl

@[simp] theorem State.raise_blk (s : State) (e : ErrCode) (info : Nat) : (s.raise e info).blk = s.blk := rfl
@[simp] theorem State.raise_seq (s : State) (e : ErrCode) (info : Nat) : (s.raise e info).seq = s.seq := rfl
@[simp] theorem State.raise_sym (s : State) (e : ErrCode) (info : Nat) : (s.raise e info).sym = s.sym := rfl
@[simp] theorem State.raise_cmd (s : State) (e : ErrCode) (info : Nat) : (s.raise e info).cmd = s.cmd := rfl
@[simp] theorem State.raise_width (s : State) (e : ErrCode) (info : Nat) : (s.raise e info).width = s.width := rfl
@[simp] theorem State.raise_height (s : State) (e : ErrCode) (info : Nat) : (s.raise e info).height = s.height := rfl
@[simp] theorem State.raise_len (s : State) (e : ErrCode) (info : Nat) : (s.raise e info).len = s.len := rfl
@[simp] theorem State.raise_status (s : State) (e : ErrCode) (info : Nat) : (s.raise e info).status = statusFault e := rfl
@[simp] theorem State.raise_errinfo (s : State) (e : ErrCode) (info : Nat) : (s.raise e info).errinfo = info := rfl
@[simp] theorem State.raise_work (s : State) (e : ErrCode) (info : Nat) : (s.raise e info).work = s.work := rfl
@[simp] theorem State.raise_opidx (s : State) (e : ErrCode) (info : Nat) : (s.raise e info).opidx = s.opidx := rfl
@[simp] theorem State.raise_raster (s : State) (e : ErrCode) (info : Nat) : (s.raise e info).raster = s.raster := rfl
@[simp] theorem State.raise_planeY (s : State) (e : ErrCode) (info : Nat) : (s.raise e info).planeY = s.planeY := rfl
@[simp] theorem State.raise_planeCb (s : State) (e : ErrCode) (info : Nat) : (s.raise e info).planeCb = s.planeCb := rfl
@[simp] theorem State.raise_planeCr (s : State) (e : ErrCode) (info : Nat) : (s.raise e info).planeCr = s.planeCr := rfl
@[simp] theorem State.raise_planeCbh (s : State) (e : ErrCode) (info : Nat) : (s.raise e info).planeCbh = s.planeCbh := rfl
@[simp] theorem State.raise_planeCrh (s : State) (e : ErrCode) (info : Nat) : (s.raise e info).planeCrh = s.planeCrh := rfl
@[simp] theorem State.raise_stream (s : State) (e : ErrCode) (info : Nat) : (s.raise e info).stream = s.stream := rfl
@[simp] theorem State.raise_blkList (s : State) (e : ErrCode) (info : Nat) : (s.raise e info).blkList = s.blkList := rfl
@[simp] theorem State.raise_resets (s : State) (e : ErrCode) (info : Nat) : (s.raise e info).resets = s.resets := rfl
@[simp] theorem State.raise_pending (s : State) (e : ErrCode) (info : Nat) : (s.raise e info).pending = [] := rfl
@[simp] theorem State.raise_inbox (s : State) (e : ErrCode) (info : Nat) : (s.raise e info).inbox = s.inbox := rfl

@[simp] theorem State.start_blk (s : State) (w : Byte) : (s.start w).blk = s.blk := rfl
@[simp] theorem State.start_seq (s : State) (w : Byte) : (s.start w).seq = s.seq := rfl
@[simp] theorem State.start_sym (s : State) (w : Byte) : (s.start w).sym = s.sym := rfl
@[simp] theorem State.start_cmd (s : State) (w : Byte) : (s.start w).cmd = w := rfl
@[simp] theorem State.start_width (s : State) (w : Byte) : (s.start w).width = s.width := rfl
@[simp] theorem State.start_height (s : State) (w : Byte) : (s.start w).height = s.height := rfl
@[simp] theorem State.start_len (s : State) (w : Byte) : (s.start w).len = s.len := rfl
@[simp] theorem State.start_status (s : State) (w : Byte) : (s.start w).status = statusStart s.status := rfl
@[simp] theorem State.start_errinfo (s : State) (w : Byte) : (s.start w).errinfo = s.errinfo := rfl
@[simp] theorem State.start_work (s : State) (w : Byte) : (s.start w).work = s.work := rfl
@[simp] theorem State.start_opidx (s : State) (w : Byte) : (s.start w).opidx = s.opidx := rfl
@[simp] theorem State.start_raster (s : State) (w : Byte) : (s.start w).raster = s.raster := rfl
@[simp] theorem State.start_planeY (s : State) (w : Byte) : (s.start w).planeY = s.planeY := rfl
@[simp] theorem State.start_planeCb (s : State) (w : Byte) : (s.start w).planeCb = s.planeCb := rfl
@[simp] theorem State.start_planeCr (s : State) (w : Byte) : (s.start w).planeCr = s.planeCr := rfl
@[simp] theorem State.start_planeCbh (s : State) (w : Byte) : (s.start w).planeCbh = s.planeCbh := rfl
@[simp] theorem State.start_planeCrh (s : State) (w : Byte) : (s.start w).planeCrh = s.planeCrh := rfl
@[simp] theorem State.start_stream (s : State) (w : Byte) : (s.start w).stream = s.stream := rfl
@[simp] theorem State.start_blkList (s : State) (w : Byte) : (s.start w).blkList = s.blkList := rfl
@[simp] theorem State.start_resets (s : State) (w : Byte) : (s.start w).resets = s.resets := rfl
@[simp] theorem State.start_pending (s : State) (w : Byte) : (s.start w).pending = s.pending := rfl
@[simp] theorem State.start_inbox (s : State) (w : Byte) : (s.start w).inbox = s.inbox := rfl

@[simp] theorem State.applyReset_blk (s : State) :
    s.applyReset.blk = afterReset .blk (s.resets + 1) s.blk (freshBlock (Config.resetBlk (s.resets + 1))) := rfl
@[simp] theorem State.applyReset_seq (s : State) :
    s.applyReset.seq = afterResetOption .seq (s.resets + 1) s.seq (freshBlock (Config.resetSeq (s.resets + 1))) := rfl
@[simp] theorem State.applyReset_sym (s : State) :
    s.applyReset.sym = afterReset .sym (s.resets + 1) s.sym (Config.resetSym (s.resets + 1)) := rfl
@[simp] theorem State.applyReset_cmd (s : State) : s.applyReset.cmd = State.reset.cmd := rfl
@[simp] theorem State.applyReset_width (s : State) :
    s.applyReset.width = afterResetOption .width (s.resets + 1) s.width (Config.resetWidth (s.resets + 1)) := rfl
@[simp] theorem State.applyReset_height (s : State) :
    s.applyReset.height = afterResetOption .height (s.resets + 1) s.height (Config.resetHeight (s.resets + 1)) := rfl
@[simp] theorem State.applyReset_len (s : State) :
    s.applyReset.len = afterResetOption .len (s.resets + 1) s.len (Config.resetLen (s.resets + 1)) := rfl
@[simp] theorem State.applyReset_status (s : State) : s.applyReset.status = State.reset.status := rfl
@[simp] theorem State.applyReset_errinfo (s : State) : s.applyReset.errinfo = State.reset.errinfo := rfl
@[simp] theorem State.applyReset_work (s : State) : s.applyReset.work = State.reset.work := rfl
@[simp] theorem State.applyReset_opidx (s : State) : s.applyReset.opidx = State.reset.opidx := rfl
@[simp] theorem State.applyReset_raster (s : State) : s.applyReset.raster = State.reset.raster := rfl
@[simp] theorem State.applyReset_planeY (s : State) : s.applyReset.planeY = State.reset.planeY := rfl
@[simp] theorem State.applyReset_planeCb (s : State) : s.applyReset.planeCb = State.reset.planeCb := rfl
@[simp] theorem State.applyReset_planeCr (s : State) : s.applyReset.planeCr = State.reset.planeCr := rfl
@[simp] theorem State.applyReset_planeCbh (s : State) : s.applyReset.planeCbh = State.reset.planeCbh := rfl
@[simp] theorem State.applyReset_planeCrh (s : State) : s.applyReset.planeCrh = State.reset.planeCrh := rfl
@[simp] theorem State.applyReset_stream (s : State) : s.applyReset.stream = State.reset.stream := rfl
@[simp] theorem State.applyReset_blkList (s : State) : s.applyReset.blkList = State.reset.blkList := rfl
@[simp] theorem State.applyReset_resets (s : State) : s.applyReset.resets = s.resets + 1 := rfl
@[simp] theorem State.applyReset_pending (s : State) : s.applyReset.pending = State.reset.pending := rfl
@[simp] theorem State.applyReset_inbox (s : State) : s.applyReset.inbox = s.inbox := rfl

@[simp] theorem State.withFetchWord_blk (s : State) (nbits w : Nat) : (s.withFetchWord nbits w).blk = s.blk := rfl
@[simp] theorem State.withFetchWord_seq (s : State) (nbits w : Nat) : (s.withFetchWord nbits w).seq = s.seq := rfl
@[simp] theorem State.withFetchWord_sym (s : State) (nbits w : Nat) : (s.withFetchWord nbits w).sym = s.sym := rfl
@[simp] theorem State.withFetchWord_cmd (s : State) (nbits w : Nat) : (s.withFetchWord nbits w).cmd = s.cmd := rfl
@[simp] theorem State.withFetchWord_width (s : State) (nbits w : Nat) : (s.withFetchWord nbits w).width = s.width := rfl
@[simp] theorem State.withFetchWord_height (s : State) (nbits w : Nat) : (s.withFetchWord nbits w).height = s.height := rfl
@[simp] theorem State.withFetchWord_len (s : State) (nbits w : Nat) : (s.withFetchWord nbits w).len = s.len := rfl
@[simp] theorem State.withFetchWord_status (s : State) (nbits w : Nat) : (s.withFetchWord nbits w).status = s.status := rfl
@[simp] theorem State.withFetchWord_errinfo (s : State) (nbits w : Nat) : (s.withFetchWord nbits w).errinfo = s.errinfo := rfl
@[simp] theorem State.withFetchWord_work (s : State) (nbits w : Nat) : (s.withFetchWord nbits w).work = s.work := rfl
@[simp] theorem State.withFetchWord_opidx (s : State) (nbits w : Nat) : (s.withFetchWord nbits w).opidx = s.opidx := rfl
@[simp] theorem State.withFetchWord_raster (s : State) (nbits w : Nat) : (s.withFetchWord nbits w).raster = s.raster := rfl
@[simp] theorem State.withFetchWord_planeY (s : State) (nbits w : Nat) : (s.withFetchWord nbits w).planeY = s.planeY := rfl
@[simp] theorem State.withFetchWord_planeCb (s : State) (nbits w : Nat) : (s.withFetchWord nbits w).planeCb = s.planeCb := rfl
@[simp] theorem State.withFetchWord_planeCr (s : State) (nbits w : Nat) : (s.withFetchWord nbits w).planeCr = s.planeCr := rfl
@[simp] theorem State.withFetchWord_planeCbh (s : State) (nbits w : Nat) : (s.withFetchWord nbits w).planeCbh = s.planeCbh := rfl
@[simp] theorem State.withFetchWord_planeCrh (s : State) (nbits w : Nat) : (s.withFetchWord nbits w).planeCrh = s.planeCrh := rfl
@[simp] theorem State.withFetchWord_stream (s : State) (nbits w : Nat) : (s.withFetchWord nbits w).stream = s.stream := rfl
@[simp] theorem State.withFetchWord_blkList (s : State) (nbits w : Nat) : (s.withFetchWord nbits w).blkList = s.blkList := rfl
@[simp] theorem State.withFetchWord_resets (s : State) (nbits w : Nat) : (s.withFetchWord nbits w).resets = s.resets := rfl
@[simp] theorem State.withFetchWord_pending (s : State) (nbits w : Nat) : (s.withFetchWord nbits w).pending = .cmd (BitVec.ofNat 8 w) :: s.pending.drop 1 := rfl
@[simp] theorem State.withFetchWord_inbox (s : State) (nbits w : Nat) : (s.withFetchWord nbits w).inbox = s.inbox.dropWhile isReset := rfl

/-! ### `STATUS` -/

@[simp] theorem errField_statusOf (e : BitVec 4) (d b : Bool) : errField (statusOf e d b) = e := by
  cases d <;> cases b <;> revert e <;> decide

@[simp] theorem doneBit_statusOf (e : BitVec 4) (d b : Bool) : doneBit (statusOf e d b) = d := by
  cases d <;> cases b <;> revert e <;> decide

@[simp] theorem busyBit_statusOf (e : BitVec 4) (d b : Bool) : busyBit (statusOf e d b) = b := by
  cases d <;> cases b <;> revert e <;> decide

@[simp] theorem reservedBits_statusOf (e : BitVec 4) (d b : Bool) : reservedBits (statusOf e d b) = 0 := by
  cases d <;> cases b <;> revert e <;> decide

theorem ErrCode.code_ne_zero (e : ErrCode) : e.code ≠ 0 := by cases e <;> decide

theorem ErrCode.code_le_six (e : ErrCode) : e.code.toNat ≤ 6 := by cases e <;> decide

theorem ErrCode.code_injective (e e' : ErrCode) (h : e.code = e'.code) : e = e' := by
  cases e <;> cases e' <;> first | rfl | (exact absurd h (by decide))

theorem State.raise_faulted (s : State) (e : ErrCode) (info : Nat) : (s.raise e info).faulted = true := by
  have h : errField (statusFault e) = e.code := by simp [statusFault]
  have h' : (e.code != 0) = true := by cases e <;> decide
  simpa [State.faulted, h] using h'

/-- Everything that a register which reset does not write can hold after it. -/
theorem afterReset_cases {α : Type} (register : Unwritten) (n : Nat) (old fresh : α) :
    afterReset register n old fresh = old ∨ afterReset register n old fresh = fresh := by
  unfold afterReset
  split
  · exact .inl rfl
  · exact .inr rfl

/-- The same for a register that may hold no value: afterwards it holds one. -/
theorem afterResetOption_cases {α : Type} (register : Unwritten) (n : Nat) (old : Option α) (fresh : α) :
    (∃ x, old = some x ∧ afterResetOption register n old fresh = some x)
      ∨ afterResetOption register n old fresh = some fresh := by
  unfold afterResetOption
  rcases afterReset_cases register n (old.getD fresh) fresh with h | h
  · cases old with
    | none => exact .inr (by rw [h]; rfl)
    | some x => exact .inl ⟨x, rfl, by rw [h]; rfl⟩
  · exact .inr (by rw [h])

end Sys2Proof.Machine
end

