-- ==== Sys2Proof/Laws/Ops.lean ====
section
/-! SUPPORT. What each shared operation can do, said once: attempts, loops, operand reads, the end of an operation. -/

namespace Sys2Proof.Machine

variable {α β : Type}

@[simp] theorem Attempt.bind_ok (a : α) (f : α → Attempt β) : (Attempt.ok a).bind f = f a := rfl

@[simp] theorem Attempt.bind_raised (e : ErrCode) (n : Nat) (f : α → Attempt β) :
    (Attempt.raised e n).bind f = .raised e n := rfl

@[simp] theorem Attempt.bind_refused (r : Refusal) (f : α → Attempt β) :
    (Attempt.refused r : Attempt α).bind f = .refused r := rfl

@[simp] theorem Attempt.map_ok (f : α → β) (a : α) : (Attempt.ok a).map f = .ok (f a) := rfl

@[simp] theorem Attempt.map_raised (f : α → β) (e : ErrCode) (n : Nat) :
    (Attempt.raised e n : Attempt α).map f = .raised e n := rfl

@[simp] theorem Attempt.map_refused (f : α → β) (r : Refusal) :
    (Attempt.refused r : Attempt α).map f = .refused r := rfl

theorem Attempt.bind_eq_ok {x : Attempt α} {f : α → Attempt β} {b : β} :
    x.bind f = .ok b ↔ ∃ a, x = .ok a ∧ f a = .ok b := by
  cases x <;> simp

theorem Attempt.map_eq_ok {x : Attempt α} {f : α → β} {b : β} : x.map f = .ok b ↔ ∃ a, x = .ok a ∧ f a = b := by
  cases x <;> simp

/-- A loop comes to a list exactly when each element does, and the list holds them in order. -/
theorem forEach_eq_ok {f : Nat → Attempt α} {start n : Nat} {vs : List α} :
    forEach f start n = .ok vs ↔ vs.length = n ∧ ∀ i (h : i < vs.length), f (start + i) = .ok vs[i] := by
  induction n generalizing start vs with
  | zero =>
    simp only [forEach, Attempt.ok.injEq]
    constructor
    · rintro rfl
      simp
    · rintro ⟨h, -⟩
      exact (List.length_eq_zero_iff.mp h).symm
  | succ n ih =>
    rw [forEach, Attempt.bind_eq_ok]
    constructor
    · rintro ⟨a, ha, h⟩
      obtain ⟨as, has, rfl⟩ := Attempt.map_eq_ok.mp h
      obtain ⟨hl, hf⟩ := ih.mp has
      refine ⟨by simp [hl], fun i hi => ?_⟩
      cases i with
      | zero => simpa using ha
      | succ i =>
        have := hf i (by simpa using hi)
        rw [show start + (i + 1) = start + 1 + i by omega]
        simpa using this
    · rintro ⟨hl, hf⟩
      cases vs with
      | nil => simp at hl
      | cons a as =>
        refine ⟨a, hf 0 (by simp), ?_⟩
        refine Attempt.map_eq_ok.mpr ⟨as, ih.mpr ⟨by simpa using hl, fun i hi => ?_⟩, rfl⟩
        have := hf (i + 1) (by simpa using hi)
        rw [show start + 1 + i = start + (i + 1) by omega]
        simpa using this

/-- A loop whose elements all come to a value comes to their list. -/
theorem forEach_ok {f : Nat → Attempt α} {g : Nat → α} {start n : Nat}
    (h : ∀ i, i < n → f (start + i) = .ok (g (start + i))) :
    forEach f start n = .ok ((List.range n).map fun i => g (start + i)) := by
  rw [forEach_eq_ok]
  refine ⟨by simp, fun i hi => ?_⟩
  have hi' : i < n := by simpa using hi
  simpa using h i hi'

/-- A loop raises what its first element that comes to no value raises. -/
theorem forEach_raised {f : Nat → Attempt α} {g : Nat → α} {start n i : Nat} {e : ErrCode} {info : Nat} (hi : i < n)
    (hok : ∀ j, j < i → f (start + j) = .ok (g (start + j))) (hr : f (start + i) = .raised e info) :
    forEach f start n = .raised e info := by
  induction n generalizing start i with
  | zero => omega
  | succ n ih =>
    cases i with
    | zero =>
      have : f start = .raised e info := by simpa using hr
      simp [forEach, this]
    | succ i =>
      have h0 : f start = .ok (g start) := by simpa using hok 0 (by omega)
      have hrest : forEach f (start + 1) n = .raised e info := by
        refine ih (i := i) (by omega) (fun j hj => ?_) ?_
        · have := hok (j + 1) (by omega)
          rwa [show start + (j + 1) = start + 1 + j by omega] at this
        · rwa [show start + (i + 1) = start + 1 + i by omega] at hr
      simp [forEach, h0, hrest]

/-- Everything the end of an operation can come to. -/
theorem Attempt.settle_eq_next {x : Attempt α} {void : State} {result : α → State} {t : State} :
    x.settle void result = .next t ↔
      (∃ a, x = .ok a ∧ (result a).complete = t) ∨ ∃ e info, x = .raised e info ∧ void.raise e info = t := by
  cases x <;> simp [Attempt.settle]

@[simp] theorem Attempt.settle_ok (a : α) (void : State) (result : α → State) :
    (Attempt.ok a).settle void result = .next (result a).complete := rfl

@[simp] theorem Attempt.settle_raised (e : ErrCode) (n : Nat) (void : State) (result : α → State) :
    (Attempt.raised e n).settle void result = .next (void.raise e n) := rfl

theorem firstNonFinite_eq_none {vs : List Real64} : firstNonFinite vs = none ↔ vs.all Real64.isFinite = true := by
  simp [firstNonFinite, List.findIdx?_eq_none_iff]

/-- `BLK` is read when its elements are finite. -/
theorem State.withBlk_of_finite {s : State} (h : blockFinite s.blk = true)
    (f : Block → Host.Outcome State Fault Refusal) : s.withBlk f = f s.blk := by
  have : firstNonFinite s.blk.toList = none := firstNonFinite_eq_none.mpr h
  simp [State.withBlk, this]

/-- A next state after a read of `BLK` comes from what the read was for. -/
theorem State.withBlk_next {s t : State} {f : Block → Host.Outcome State Fault Refusal} (h : s.withBlk f = .next t) :
    blockFinite s.blk = true ∧ f s.blk = .next t := by
  unfold State.withBlk at h
  split at h
  · cases h
  · exact ⟨firstNonFinite_eq_none.mp ‹_›, h⟩

theorem State.withSeq_of_finite {s : State} {v : Block} (hv : s.seq = some v) (h : blockFinite v = true)
    (f : Block → Host.Outcome State Fault Refusal) : s.withSeq f = f v := by
  have : firstNonFinite v.toList = none := firstNonFinite_eq_none.mpr h
  simp [State.withSeq, hv, this]

theorem State.withSeq_next {s t : State} {f : Block → Host.Outcome State Fault Refusal} (h : s.withSeq f = .next t) :
    ∃ v, s.seq = some v ∧ blockFinite v = true ∧ f v = .next t := by
  unfold State.withSeq at h
  split at h
  · cases h
  · rename_i v hv
    split at h
    · cases h
    · exact ⟨v, hv, firstNonFinite_eq_none.mp ‹_›, h⟩

theorem State.withDims_of_some {s : State} {w h : Half} (hw : s.width = some w) (hh : s.height = some h)
    (f : Half → Half → Host.Outcome State Fault Refusal) : s.withDims f = f w h := by
  simp [State.withDims, hw, hh]

theorem State.withDims_next {s t : State} {f : Half → Half → Host.Outcome State Fault Refusal}
    (h : s.withDims f = .next t) : ∃ w k, s.width = some w ∧ s.height = some k ∧ f w k = .next t := by
  unfold State.withDims at h
  split at h
  · cases h
  · rename_i w hw
    split at h
    · cases h
    · rename_i k hk
      exact ⟨w, k, hw, hk, h⟩

theorem State.withBlkList_of_some {s : State} {l : List Record} (hl : s.blkList = some l)
    (f : List Record → Host.Outcome State Fault Refusal) : s.withBlkList f = f l := by
  simp [State.withBlkList, hl]

theorem State.withBlkList_next {s t : State} {f : List Record → Host.Outcome State Fault Refusal}
    (h : s.withBlkList f = .next t) : ∃ l, s.blkList = some l ∧ f l = .next t := by
  unfold State.withBlkList at h
  split at h
  · cases h
  · exact ⟨_, ‹_›, h⟩

theorem State.withLen_of_some {s : State} {n : Nat} (hn : s.len = some n)
    (f : Nat → Host.Outcome State Fault Refusal) : s.withLen f = f n := by
  simp [State.withLen, hn]

theorem State.withLen_next {s t : State} {f : Nat → Host.Outcome State Fault Refusal} (h : s.withLen f = .next t) :
    ∃ n, s.len = some n ∧ f n = .next t := by
  unfold State.withLen at h
  split at h
  · cases h
  · exact ⟨_, ‹_›, h⟩

theorem readReal_eq_ok {place : Place} {m : Mem Real64} {i : Nat} {v : Real64} :
    readReal place m i = .ok v ↔ m.read i = some v := by
  unfold readReal
  cases m.read i <;> simp

/-- A plane is a legal operand when no value in it is infinite or NaN. -/
theorem Mem.firstNonFinite_eq_none {m : Mem Real64} {n : Nat} :
    m.firstNonFinite n = none ↔ ∀ i, i < n → ∀ v, m.read i = some v → v.isFinite = true := by
  simp only [Mem.firstNonFinite, List.find?_eq_none, List.mem_range]
  refine forall₂_congr fun i _ => ?_
  cases m.read i <;> simp

theorem withPlane_of_finite {place : Place} {m : Mem Real64} {n : Nat}
    (h : ∀ i, i < n → ∀ v, m.read i = some v → v.isFinite = true) (next : Host.Outcome State Fault Refusal) :
    withPlane place m n next = next := by
  rw [withPlane, Mem.firstNonFinite_eq_none.mpr h]

/-- An operation that answers a next state had finite values alone in its operand plane. -/
theorem withPlane_next {place : Place} {m : Mem Real64} {n : Nat} {next : Host.Outcome State Fault Refusal} {t : State}
    (h : withPlane place m n next = .next t) :
    (∀ i, i < n → ∀ v, m.read i = some v → v.isFinite = true) ∧ next = .next t := by
  unfold withPlane at h
  split at h
  · cases h
  · exact ⟨Mem.firstNonFinite_eq_none.mp ‹_›, h⟩

theorem readByte_eq_ok {place : Place} {m : ByteMem} {i : Nat} {b : Byte} :
    readByte place m i = .ok b ↔ Mem.read m i = some b := by
  unfold readByte
  cases Mem.read m i <;> simp

@[simp] theorem elem_getElem (N : Num α) (v : Vector α 64) (j : Nat) (h : j < 64) : elem N v j = v[j] := by
  simp [elem, h]

/-- What `exec` is for each operation: its own meaning. -/
theorem exec_qfwd (p : Plane) (s : State) : exec (.qfwd p) s = unitQfwd machineSetting p s := rfl

theorem exec_qinv (p : Plane) (s : State) : exec (.qinv p) s = unitQinv machineSetting p s := rfl

theorem exec_rgb2ycc (s : State) : exec .rgb2ycc s = unitRgb2ycc machineSetting s := rfl

theorem exec_ycc2rgb (s : State) : exec .ycc2rgb s = unitYcc2rgb machineSetting s := rfl

theorem exec_cdown2 (s : State) : exec .cdown2 s = unitCdown2 s := rfl

theorem exec_cup2 (s : State) : exec .cup2 s = unitCup2 specParams s := rfl

theorem exec_dct8f (s : State) : exec .dct8f s = unitDct8f machineSetting s := rfl

theorem exec_dct8i (s : State) : exec .dct8i s = unitDct8i machineSetting s := rfl

theorem exec_zzf (s : State) :
    exec .zzf s = s.withBlk fun b => .next { s with seq := some (scan b64 b) }.complete := rfl

theorem exec_zzi (s : State) :
    exec .zzi s = s.withSeq fun v => .next { s with blk := unscan b64 v }.complete := rfl

theorem exec_rlee (s : State) : exec .rlee s = unitRlee machineSetting s := rfl

theorem exec_rled (s : State) : exec .rled s = unitRled b64 s := rfl

theorem exec_fwr (s : State) : exec .fwr s = unitFwr specParams s := rfl

theorem exec_fpr (s : State) : exec .fpr s = unitFpr s := rfl

/-- Every next state of an operation is its completion or a fault taken: the completion's status is `statusDone` of the
status it began with, a fault's is `statusFault`. -/
theorem exec_status {i : Instr} {s t : State} (h : exec i s = .next t) :
    t.status = statusDone s.status ∧ t.errinfo = s.errinfo ∨ ∃ e, t.status = statusFault e := by
  cases i with
  | rgb2ycc =>
    rw [exec_rgb2ycc, unitRgb2ycc] at h
    obtain ⟨w, k, -, -, h⟩ := State.withDims_next h
    rcases Attempt.settle_eq_next.mp h with ⟨a, -, rfl⟩ | ⟨e, n, -, rfl⟩
    · exact .inl (by simp)
    · exact .inr ⟨e, rfl⟩
  | ycc2rgb =>
    rw [exec_ycc2rgb, unitYcc2rgb] at h
    obtain ⟨w, k, -, -, h⟩ := State.withDims_next h
    obtain ⟨-, h⟩ := withPlane_next h
    obtain ⟨-, h⟩ := withPlane_next h
    obtain ⟨-, h⟩ := withPlane_next h
    rcases Attempt.settle_eq_next.mp h with ⟨a, -, rfl⟩ | ⟨e, n, -, rfl⟩
    · exact .inl (by simp)
    · exact .inr ⟨e, rfl⟩
  | cdown2 =>
    rw [exec_cdown2, unitCdown2] at h
    obtain ⟨w, k, -, -, h⟩ := State.withDims_next h
    obtain ⟨-, h⟩ := withPlane_next h
    obtain ⟨-, h⟩ := withPlane_next h
    rcases Attempt.settle_eq_next.mp h with ⟨a, -, rfl⟩ | ⟨e, n, -, rfl⟩
    · exact .inl (by simp)
    · exact .inr ⟨e, rfl⟩
  | cup2 =>
    rw [exec_cup2, unitCup2] at h
    obtain ⟨w, k, -, -, h⟩ := State.withDims_next h
    obtain ⟨-, h⟩ := withPlane_next h
    obtain ⟨-, h⟩ := withPlane_next h
    rcases Attempt.settle_eq_next.mp h with ⟨a, -, rfl⟩ | ⟨e, n, -, rfl⟩
    · exact .inl (by simp)
    · exact .inr ⟨e, rfl⟩
  | dct8f =>
    rw [exec_dct8f, unitDct8f] at h
    obtain ⟨-, h⟩ := State.withBlk_next h
    simp only [Host.Outcome.next.injEq] at h
    subst h
    exact .inl (by simp)
  | dct8i =>
    rw [exec_dct8i, unitDct8i] at h
    obtain ⟨-, h⟩ := State.withBlk_next h
    simp only [Host.Outcome.next.injEq] at h
    subst h
    exact .inl (by simp)
  | qfwd p =>
    rw [exec_qfwd, unitQfwd] at h
    obtain ⟨-, h⟩ := State.withBlk_next h
    simp only [Host.Outcome.next.injEq] at h
    subst h
    exact .inl (by simp)
  | qinv p =>
    rw [exec_qinv, unitQinv] at h
    obtain ⟨-, h⟩ := State.withBlk_next h
    simp only [Host.Outcome.next.injEq] at h
    subst h
    exact .inl (by simp)
  | zzf =>
    rw [exec_zzf] at h
    obtain ⟨-, h⟩ := State.withBlk_next h
    simp only [Host.Outcome.next.injEq] at h
    subst h
    exact .inl (by simp)
  | zzi =>
    rw [exec_zzi] at h
    obtain ⟨v, -, -, h⟩ := State.withSeq_next h
    simp only [Host.Outcome.next.injEq] at h
    subst h
    exact .inl (by simp)
  | rlee =>
    rw [exec_rlee, unitRlee] at h
    obtain ⟨v, -, -, h⟩ := State.withSeq_next h
    simp only [Host.Outcome.next.injEq] at h
    subst h
    exact .inl (by simp)
  | rled =>
    rw [exec_rled, unitRled] at h
    simp only [Host.Outcome.next.injEq] at h
    split at h
    · subst h
      exact .inl (by simp)
    · subst h
      exact .inr ⟨_, rfl⟩
  | fwr =>
    rw [exec_fwr, unitFwr] at h
    obtain ⟨w, k, -, -, h⟩ := State.withDims_next h
    obtain ⟨l, -, h⟩ := State.withBlkList_next h
    simp only [Host.Outcome.next.injEq] at h
    split at h
    · subst h
      exact .inr ⟨_, rfl⟩
    · split at h
      · subst h
        exact .inr ⟨_, rfl⟩
      · split at h
        · subst h
          exact .inr ⟨_, rfl⟩
        · subst h
          exact .inl (by simp)
  | fpr =>
    rw [exec_fpr, unitFpr] at h
    obtain ⟨n, -, h⟩ := State.withLen_next h
    rcases Attempt.settle_eq_next.mp h with ⟨a, -, rfl⟩ | ⟨e, n, -, rfl⟩
    · exact .inl (by simp)
    · exact .inr ⟨e, rfl⟩

end Sys2Proof.Machine
end

