-- ==== Sys2Proof/Laws/PerInstr.lean ====
section
/-! SUPPORT. Families of statements about every operation as syntax, one lemma for each constructor of `Instr`. -/

namespace Sys2Proof.Laws

/-- The command word of an operation is legal (R73), carries the operation's code (R71) and its plane bit (R70). -/
def CommandWord.Statement (i : Instr) : Prop :=
  commandWellFormed (encode i) = true ∧ opField (encode i) = i.op ∧ (encode i).extractLsb' 4 1 = i.planeBit

theorem CommandWord.rgb2ycc : CommandWord.Statement .rgb2ycc := by unfold CommandWord.Statement; decide
theorem CommandWord.ycc2rgb : CommandWord.Statement .ycc2rgb := by unfold CommandWord.Statement; decide
theorem CommandWord.cdown2 : CommandWord.Statement .cdown2 := by unfold CommandWord.Statement; decide
theorem CommandWord.cup2 : CommandWord.Statement .cup2 := by unfold CommandWord.Statement; decide
theorem CommandWord.dct8f : CommandWord.Statement .dct8f := by unfold CommandWord.Statement; decide
theorem CommandWord.dct8i : CommandWord.Statement .dct8i := by unfold CommandWord.Statement; decide
theorem CommandWord.qfwd (plane : Plane) : CommandWord.Statement (.qfwd plane) := by unfold CommandWord.Statement; cases plane <;> decide
theorem CommandWord.qinv (plane : Plane) : CommandWord.Statement (.qinv plane) := by unfold CommandWord.Statement; cases plane <;> decide
theorem CommandWord.zzf : CommandWord.Statement .zzf := by unfold CommandWord.Statement; decide
theorem CommandWord.zzi : CommandWord.Statement .zzi := by unfold CommandWord.Statement; decide
theorem CommandWord.rlee : CommandWord.Statement .rlee := by unfold CommandWord.Statement; decide
theorem CommandWord.rled : CommandWord.Statement .rled := by unfold CommandWord.Statement; decide
theorem CommandWord.fwr : CommandWord.Statement .fwr := by unfold CommandWord.Statement; decide
theorem CommandWord.fpr : CommandWord.Statement .fpr := by unfold CommandWord.Statement; decide

end Sys2Proof.Laws
end

