-- ==== Sys2Proof/Laws/Sequencer.lean ====
section
/-! SUPPORT. Everything that the sequencer's moves and checks can do, said once for each. -/

namespace Sys2Proof.Machine

/-- A `LDBLK` that answers a next state has written `BLK` alone, from the 64 elements of the block. -/
theorem ldblk_next {P : Params} {seq : Plane} {n : Nat} {s t : State} (h : ldblk P seq n s = .next t) :
    ∃ w k vs, s.width = some w ∧ s.height = some k
      ∧ forEach (loadElement P s seq w.toNat k.toNat n) 0 64 = .ok vs ∧ t = { s with blk := blockOf vs } := by
  obtain ⟨w, k, hw, hk, h⟩ := State.withDims_next h
  cases hv : forEach (loadElement P s seq w.toNat k.toNat n) 0 64 with
  | ok vs =>
    simp only [hv, Host.Outcome.next.injEq] at h
    exact ⟨w, k, vs, hw, hk, hv, h.symm⟩
  | raised e info =>
    exfalso
    have hne : ∀ start m, forEach (loadElement P s seq w.toNat k.toNat n) start m ≠ .raised e info := by
      intro start m
      induction m generalizing start with
      | zero => simp [forEach]
      | succ m ih =>
        simp only [forEach]
        cases hl : loadElement P s seq w.toNat k.toNat n start with
        | ok a =>
          simp only [Attempt.bind_ok]
          cases hr : forEach (loadElement P s seq w.toNat k.toNat n) (start + 1) m with
          | ok as => simp
          | raised e' i' =>
            simp only [Attempt.map_raised]
            intro heq
            exact ih (start + 1) (by rw [hr]; simpa using heq)
          | refused r => simp
        | raised e' i' =>
          simp only [loadElement] at hl
          split at hl <;> (try split at hl) <;> simp at hl
        | refused r => simp
    exact hne 0 64 hv
  | refused r => simp only [hv] at h; cases h

/-- A store of one element writes at most one element of one plane memory. -/
theorem storeElement_eq (P : Params) (seq : Plane) (w h n : Nat) (s : State) (k : Nat) :
    storeElement P seq w h n s k = s
      ∨ ∃ p i, locate P seq w h n k = some (p, i)
        ∧ storeElement P seq w h n s k = s.setSource p ((s.source p).write i (elem b64 s.blk k)) := by
  cases hl : locate P seq w h n k with
  | none => exact .inl (by simp [storeElement, hl])
  | some q => exact .inr ⟨q.1, q.2, rfl, by simp [storeElement, hl]⟩

/-- Stores change nothing but the three plane memories that blocks are cut from. -/
theorem storeElements_frame (P : Params) (seq : Plane) (w h n : Nat) (ks : List Nat) (s : State) :
    ∃ py pb pr, ks.foldl (storeElement P seq w h n) s = { s with planeY := py, planeCbh := pb, planeCrh := pr } := by
  induction ks generalizing s with
  | nil => exact ⟨s.planeY, s.planeCbh, s.planeCrh, rfl⟩
  | cons k ks ih =>
    rw [List.foldl_cons]
    rcases storeElement_eq P seq w h n s k with he | ⟨p, i, -, he⟩
    · rw [he]
      exact ih s
    · rw [he]
      obtain ⟨py, pb, pr, e⟩ := ih (s.setSource p ((s.source p).write i (elem b64 s.blk k)))
      exact ⟨py, pb, pr, by rw [e]; cases p <;> rfl⟩

/-- A `STBLK` that answers a next state has stored the 64 elements in order. -/
theorem stblk_next {P : Params} {seq : Plane} {n : Nat} {s t : State} (h : stblk P seq n s = .next t) :
    ∃ w k, s.width = some w ∧ s.height = some k
      ∧ t = (List.range 64).foldl (storeElement P seq w.toNat k.toNat n) s := by
  obtain ⟨w, k, hw, hk, h⟩ := State.withDims_next h
  simp only [Host.Outcome.next.injEq] at h
  exact ⟨w, k, hw, hk, h.symm⟩

theorem pushsym_next {s t : State} (h : pushsym s = .next t) :
    ∃ l, s.blkList = some l ∧ t = { s with blkList := some (l ++ [s.sym]) } := by
  obtain ⟨l, hl, h⟩ := State.withBlkList_next h
  simp only [Host.Outcome.next.injEq] at h
  exact ⟨l, hl, h.symm⟩

theorem popsym_next {b : Nat} {s t : State} (h : popsym b s = .next t) :
    ∃ l r, s.blkList = some l ∧ l[b]? = some r ∧ t = { s with sym := r } := by
  obtain ⟨l, hl, h⟩ := State.withBlkList_next h
  split at h
  · rename_i r hr
    simp only [Host.Outcome.next.injEq] at h
    exact ⟨l, r, hl, hr, h.symm⟩
  · cases h

/-- The dimension check writes the two registers or raises `DimensionError`. -/
theorem checkDims_eq (w h : Nat) (s : State) :
    (dimensionFault w h = none
      ∧ checkDims w h s = { s with width := some (BitVec.ofNat 16 w), height := some (BitVec.ofNat 16 h) })
    ∨ ∃ info, dimensionFault w h = some info ∧ checkDims w h s = s.raise .dimensionError info := by
  cases hd : dimensionFault w h with
  | none => exact .inl ⟨rfl, by simp only [checkDims, hd]⟩
  | some info => exact .inr ⟨info, rfl, by simp only [checkDims, hd]⟩

/-- The block count check puts the block loops in front of what is left, or raises `MalformedStreamError`. -/
theorem checkCount_next {P : Params} {s t : State} (h : checkCount P s = .next t) :
    ∃ w k l, s.width = some w ∧ s.height = some k ∧ s.blkList = some l
      ∧ (l.length = lumaBlocks P w.toNat k.toNat + chromaBlocks P w.toNat k.toNat
          ∧ t = { s with pending := decompressSteps P w.toNat k.toNat ++ s.pending }
        ∨ l.length ≠ lumaBlocks P w.toNat k.toNat + chromaBlocks P w.toNat k.toNat
          ∧ t = s.raise .malformedStream 4) := by
  obtain ⟨w, k, hw, hk, h⟩ := State.withDims_next h
  obtain ⟨l, hl, h⟩ := State.withBlkList_next h
  simp only [Host.Outcome.next.injEq] at h
  refine ⟨w, k, l, hw, hk, hl, ?_⟩
  split at h
  · exact .inl ⟨‹_›, h.symm⟩
  · exact .inr ⟨‹_›, h.symm⟩

end Sys2Proof.Machine
end

