-- ==== Sys2Proof/Laws/Step.lean ====
section
/-! SUPPORT. What a step of the sequencer can be, said once. -/

namespace Sys2Proof.Machine

/-- The four things a step can be: a reset the host asked for, the next pending step, the host's next call, or nothing. -/
theorem step_cases {s t : State} (h : step s = .next t) :
    (∃ more, s.inbox = .reset :: more ∧ t = State.applyReset { s with inbox := more }) ∨
    (∃ x rest, s.pending = x :: rest ∧ seqStep x { s with pending := rest } = .next t) ∨
    (∃ c more, s.pending = [] ∧ s.inbox = c :: more ∧ t = startCall c { s with inbox := more }) ∨
    (s.pending = [] ∧ s.inbox = [] ∧ t = s) := by
  unfold step at h
  rcases hi : s.inbox with _ | ⟨c, more⟩
  · rcases hp : s.pending with _ | ⟨x, rest⟩
    · simp only [sequencerStep, hi, hp, Host.Outcome.next.injEq] at h
      exact .inr (.inr (.inr ⟨rfl, rfl, h.symm⟩))
    · simp only [sequencerStep, hi, hp] at h
      exact .inr (.inl ⟨x, rest, rfl, h⟩)
  · by_cases hc : c = .reset
    · subst hc
      simp only [sequencerStep, hi, startCall, Host.Outcome.next.injEq] at h
      exact .inl ⟨more, rfl, h.symm⟩
    · rcases hp : s.pending with _ | ⟨x, rest⟩
      · simp only [sequencerStep, hi, hp, Host.Outcome.next.injEq] at h
        exact .inr (.inr (.inl ⟨c, more, rfl, rfl, h.symm⟩))
      · refine .inr (.inl ⟨x, rest, rfl, ?_⟩)
        cases c with
        | reset => exact absurd rfl hc
        | compress w k r => simp only [sequencerStep, hi, hp] at h; exact h
        | decompress b n => simp only [sequencerStep, hi, hp] at h; exact h
        | convert w k r => simp only [sequencerStep, hi, hp] at h; exact h
        | issue l => simp only [sequencerStep, hi, hp] at h; exact h

/-- A pending step is taken whenever the host has not asked for a reset. -/
theorem step_pending {s : State} {x : SeqStep} {rest : List SeqStep} (hp : s.pending = x :: rest)
    (hi : ∀ more, s.inbox ≠ .reset :: more) : step s = seqStep x { s with pending := rest } := by
  unfold step
  rcases hc : s.inbox with _ | ⟨c, more⟩
  · simp only [sequencerStep, hc, hp]
  · cases c with
    | reset => exact absurd hc (hi more)
    | compress w h r => simp only [sequencerStep, hc, hp]
    | decompress b n => simp only [sequencerStep, hc, hp]
    | convert w h r => simp only [sequencerStep, hc, hp]
    | issue l => simp only [sequencerStep, hc, hp]

/-- While a fault stands, a pending step does nothing (R227). -/
theorem seqStep_of_faulted {s : State} (h : s.faulted = true) (x : SeqStep) : seqStep x s = .next s := by
  simp [seqStep, h]

/-- What each pending step is while no fault stands. -/
theorem seqStep_of_not_faulted {s : State} (h : s.faulted = false) (x : SeqStep) :
    seqStep x s = match x with
      | .cmd w => issue w s
      | .ldblk seq n => ldblk specParams seq n s
      | .stblk seq n => stblk specParams seq n s
      | .pushsym => pushsym s
      | .popsym b => popsym b s
      | .checkDims w h => .next (checkDims w h s)
      | .checkCount => checkCount specParams s
      | .serialise => .refused .serialisation := by
  cases x <;> simp [seqStep, h]

/-- A command word issued with no fault standing and the unit not busy: the operation runs, or the word is illegal. -/
theorem issue_of_idle {s : State} (hf : s.faulted = false) (hb : busyBit s.status = false) (w : Byte) :
    issue w s = match decode w with
      | .error _ => .next ({ s with cmd := w }.raise .illegalOperation w.toNat)
      | .ok i => exec i (s.start w) := by
  simp only [issue, hf, hb]
  cases decode w <;> rfl

/-- The command that `withFetchWord` places is the next step. -/
theorem step_withFetchWord (s : State) (nbits w : Nat) :
    step (s.withFetchWord nbits w) =
      issue (BitVec.ofNat 8 w) { s with pending := s.pending.drop 1, inbox := s.inbox.dropWhile isReset } := by
  have hi : ∀ more, (s.withFetchWord nbits w).inbox ≠ .reset :: more := by
    intro more h
    have h' : s.inbox.dropWhile isReset = .reset :: more := h
    have hn : s.inbox.dropWhile isReset ≠ [] := by simp [h']
    have := List.head_dropWhile_not isReset hn
    simp only [h', List.head_cons, isReset] at this
    exact absurd this (by decide)
  rw [step_pending (x := .cmd (BitVec.ofNat 8 w)) (rest := s.pending.drop 1) rfl hi]
  cases hf : s.faulted with
  | true =>
    rw [seqStep_of_faulted (by exact hf)]
    simp [issue, State.faulted, State.withFetchWord] at hf ⊢
    simp [hf]
  | false => rw [seqStep_of_not_faulted (by exact hf)]; rfl

end Sys2Proof.Machine
end

