-- ==== Sys2Proof/Tests/Slice0.lean ====
section
/-! SUPPORT. Tests: command words from 30_encoding.md and V1, V2; the small vectors of 95_test_vectors.md (each named in its
comment); ill-formed terms for every check; and for every statement with hypotheses a witness that meets them. -/

-- one theorem after another: many kernel evaluations at once ask for more threads than the memory limit gives
set_option Elab.async false

namespace Sys2Proof.Tests

open Sys2Proof.Machine

/-! ### Helpers -/

def zeros : Block := Vector.replicate 64 (.fin 0)

/-- A small idle state: a 1 by 1 image, zero buffers, empty memories. -/
def blank : State where
  blk := zeros
  seq := some zeros
  sym := []
  cmd := 0x00
  width := some 1
  height := some 1
  len := some 0
  status := 0x00
  errinfo := 0
  work := Work.start
  opidx := 0
  raster := []
  planeY := []
  planeCb := []
  planeCr := []
  planeCbh := []
  planeCrh := []
  stream := []
  blkList := some []
  resets := 0
  pending := []
  inbox := []

/-- A part of the next state, if there is one. -/
def after {α : Type} (o : Host.Outcome State Fault Refusal) (f : State → α) : Option α :=
  match o with
  | .next s => some (f s)
  | .fault _ => none
  | .refused _ => none

/-- Is a value within `tol` of `q`? -/
def near (x : Real64) (q tol : Rat) : Bool :=
  match x with
  | .fin y => |y - q| ≤ tol
  | .inf _ => false
  | .nan => false

/-- A plane that holds these integers. -/
def plane (vs : List Int) : Mem Real64 := Mem.ofList (vs.map fun n => .fin n)

/-- A block of zeros but for the listed elements. -/
def sparse (l : List (Nat × Rat)) : Block := l.foldl (fun b p => b.setIfInBounds p.1 (.fin p.2)) zeros

def isNext (o : Host.Outcome State Fault Refusal) : Bool := (after o fun _ => ()).isSome

theorem next_of_isNext {o : Host.Outcome State Fault Refusal} (h : isNext o = true) : ∃ t, o = .next t := by
  cases o with
  | next t => exact ⟨t, rfl⟩
  | fault r => cases h
  | refused r => cases h

/-! ### Well-formedness: each check refuses an ill-formed term -/

theorem test_wellformed_command : commandWellFormed 0x17 = true := by decide
theorem test_illformed_op_zero : commandWellFormed 0x00 = false := by decide
theorem test_illformed_op_fifteen : commandWellFormed 0x1F = false := by decide
theorem test_illformed_reserved_field : commandWellFormed 0x27 = false := by decide
theorem test_wellformed_symbol : Symbol.wellFormed ⟨255, -128⟩ = true := by decide
theorem test_illformed_symbol_run : Symbol.wellFormed ⟨256, 1⟩ = false := by decide
theorem test_illformed_symbol_low : Symbol.wellFormed ⟨0, -129⟩ = false := by decide
theorem test_illformed_symbol_high : Symbol.wellFormed ⟨0, 128⟩ = false := by decide
theorem test_illformed_symbol_delimiter : Symbol.wellFormed ⟨0, 0⟩ = false := by decide
theorem test_wellformed_params : specParams.wellFormed = true := by decide +kernel
theorem test_illformed_params_luma :
    Params.wellFormed { specParams with qtLuma := qtLumaDefault.setIfInBounds 5 0 } = false := by decide +kernel
theorem test_illformed_params_chroma :
    Params.wellFormed { specParams with qtChroma := qtChromaDefault.setIfInBounds 63 0 } = false := by decide +kernel
theorem test_wellformed_call : HostCall.wellFormed (.compress 1 1 [1, 2, 3]) = true := by decide
theorem test_illformed_compress : HostCall.wellFormed (.compress 1 1 [1, 2]) = false := by decide
theorem test_illformed_decompress : HostCall.wellFormed (.decompress [1, 2] 3) = false := by decide
theorem test_illformed_convert : HostCall.wellFormed (.convert 2 1 [1, 2, 3]) = false := by decide

/-! ### Decoding: words written from the fields of R70 (reserved, PLANE, OP), with the selections of V1 and V2 -/

theorem test_decode_rgb2ycc : decode 0b00000001#8 = .ok .rgb2ycc := by decide
theorem test_decode_ycc2rgb : decode 0b00000010#8 = .ok .ycc2rgb := by decide
theorem test_decode_cdown2 : decode 0b00000011#8 = .ok .cdown2 := by decide
theorem test_decode_cup2 : decode 0b00000100#8 = .ok .cup2 := by decide
theorem test_decode_dct8f : decode 0b00000101#8 = .ok .dct8f := by decide
theorem test_decode_dct8i : decode 0b00000110#8 = .ok .dct8i := by decide
theorem test_decode_qfwd_y : decode 0b00000111#8 = .ok (.qfwd .luma) := by decide
theorem test_decode_qfwd_c : decode 0b00010111#8 = .ok (.qfwd .chroma) := by decide
theorem test_decode_qinv_y : decode 0b00001000#8 = .ok (.qinv .luma) := by decide
theorem test_decode_qinv_c : decode 0b00011000#8 = .ok (.qinv .chroma) := by decide
theorem test_decode_zzf : decode 0b00001001#8 = .ok .zzf := by decide
theorem test_decode_zzi : decode 0b00001010#8 = .ok .zzi := by decide
theorem test_decode_rlee : decode 0b00001011#8 = .ok .rlee := by decide
theorem test_decode_rled : decode 0b00001100#8 = .ok .rled := by decide
theorem test_decode_fwr : decode 0b00001101#8 = .ok .fwr := by decide
theorem test_decode_fpr : decode 0b00001110#8 = .ok .fpr := by decide
theorem test_decode_plane_ignored : decode 0b00010101#8 = .ok .dct8f ∧ decode 0b00011110#8 = .ok .fpr := by decide
theorem test_decode_reserved_op : [0x00#8, 0x0F#8, 0x10#8, 0x1F#8].all (fun w => decode w == .error .reservedOp) = true := by
  decide
theorem test_decode_reserved_field :
    [0x27#8, 0x45#8, 0x85#8, 0xFF#8].all (fun w => decode w == .error .reservedField) = true := by decide
theorem test_decode_table_word : decodeTableWord 8 0x18 = some (.qinv .chroma) ∧ decodeTableWord 8 0x0F = none := by decide

/-! ### Operations -/

/-- V3, pure red, to 1e-9. -/
theorem test_rgb2ycc_red :
    after (unitRgb2ycc referenceSetting { blank with raster := Mem.ofList [255, 0, 0] }) (fun s =>
      (s.planeY ++ s.planeCb ++ s.planeCr).map fun p => p.2)
      = some [.fin (mkRat 5365264899825991 70368744177664), .fin (mkRat 2989697724131301 35184372088832), .fin (mkRat 511 2)]
    ∧ near (.fin (mkRat 5365264899825991 70368744177664)) (mkRat 76245 1000) (mkRat 1 1000000000) = true
    ∧ near (.fin (mkRat 2989697724131301 35184372088832)) (mkRat 8497232 100000) (mkRat 1 1000000000) = true := by
  decide +kernel

/-- V3: the binary64 luminance of gray 128 is one unit in the last place (2 ^ -46) below 128. -/
theorem test_rgb2ycc_gray :
    after (unitRgb2ycc referenceSetting { blank with raster := Mem.ofList [128, 128, 128] }) (fun s => s.planeY.read 0)
      = some (some (.fin (128 - mkRat 1 70368744177664))) := by decide +kernel

/-- V4: (100, 128, 200) gives (200, 48, 100); (0, 0, 0) gives (0, 134, 0). -/
theorem test_ycc2rgb :
    after (unitYcc2rgb referenceSetting
      { blank with width := some 2, planeY := plane [100, 0], planeCb := plane [128, 0], planeCr := plane [200, 0] })
      (fun s => s.raster.map fun p => p.2) = some [200, 48, 100, 0, 134, 0] := by decide +kernel

/-- R108: a pixel without chroma. -/
theorem test_ycc2rgb_contract_violation :
    after (unitYcc2rgb referenceSetting
      { blank with width := some 2, planeY := plane [100, 0], planeCb := plane [128], planeCr := plane [200, 0] })
      (fun s => (s.status, s.errinfo, s.raster)) = some (0x50, 1, []) := by decide +kernel

/-- V6. -/
theorem test_cast8_trunc :
    ([mkRat (-32) 10, mkRat 999 1000, mkRat 1273 10, mkRat 254745 1000, 255, 300].map fun q => cast8 b64 specParams (.fin q))
      = [0, 0, 127, 254, 255, 255] := by decide +kernel

/-- V6. -/
theorem test_cast8_round :
    ([mkRat 999 1000, mkRat 1273 10, mkRat 254745 1000, mkRat 1285 10].map fun q =>
      cast8 b64 { specParams with cast8 := .round } (.fin q)) = [1, 127, 255, 128] := by decide +kernel

/-- V10: a 5 by 3 plane. -/
theorem test_cdown2 :
    after (unitCdown2 { blank with
      width := some 5, height := some 3
      planeCb := plane [1, 2, 3, 4, 5, 6, 7, 8, 9, 10, 11, 12, 13, 14, 15]
      planeCr := plane [1, 2, 3, 4, 5, 6, 7, 8, 9, 10, 11, 12, 13, 14, 15] })
      (fun s => (s.planeCbh, s.planeCrh)) = some (plane [1, 3], plane [1, 3]) := by decide +kernel

/-- V11: the half plane [1, 3] to 5 by 3, under the default policy. -/
theorem test_cup2 :
    after (unitCup2 specParams { blank with
      width := some 5, height := some 3, planeCbh := plane [1, 3], planeCrh := plane [1, 3] })
      (fun s => (List.range 15).map s.planeCb.read)
      = some [some (.fin 1), some (.fin 1), some (.fin 3), some (.fin 3), none, some (.fin 1), some (.fin 1), some (.fin 3),
        some (.fin 3), none, none, none, none, none, none] := by decide +kernel

/-- V11: the same under `ODD_DIM_POLICY = replicate`. -/
theorem test_cup2_replicate :
    after (unitCup2 { specParams with oddDim := .replicate } { blank with
      width := some 5, height := some 3, planeCbh := plane [1, 3], planeCrh := plane [1, 3] })
      (fun s => s.planeCr) = some (plane [1, 1, 3, 3, 3, 1, 1, 3, 3, 3, 1, 1, 3, 3, 3]) := by decide +kernel

/-- V15: the DC coefficient of the constant block 128. -/
theorem test_dct8f_dc :
    near (evalSite referenceDatapath (.dctF 0 0) fun _ => .fin 128) 1024 (mkRat 1 1000000000) = true := by decide +kernel

/-- V20: 100 at `H[0][1]` gives 17.3380 at the start of a row and its negative at the end. -/
theorem test_dct8i_index_convention :
    near (evalExpr b64 (refConst b64) (fun _ => .fin 100) (dctITerm 3 0 1)) (mkRat 173380 10000) (mkRat 1 1000) = true
    ∧ near (evalExpr b64 (refConst b64) (fun _ => .fin 100) (dctITerm 5 7 1)) (mkRat (-173380) 10000) (mkRat 1 1000) = true := by
  decide +kernel

/-- R122: the signs and indices of its table, row by row. -/
theorem test_basis_table :
    ((List.range 8).map fun u => (List.range 8).map fun x => basisIndex ((2 * x + 1) * u)) =
      [[(false, 0), (false, 0), (false, 0), (false, 0), (false, 0), (false, 0), (false, 0), (false, 0)],
        [(false, 1), (false, 3), (false, 5), (false, 7), (true, 7), (true, 5), (true, 3), (true, 1)],
        [(false, 2), (false, 6), (true, 6), (true, 2), (true, 2), (true, 6), (false, 6), (false, 2)],
        [(false, 3), (true, 7), (true, 1), (true, 5), (false, 5), (false, 1), (false, 7), (true, 3)],
        [(false, 4), (true, 4), (true, 4), (false, 4), (false, 4), (true, 4), (true, 4), (false, 4)],
        [(false, 5), (true, 1), (false, 7), (false, 3), (true, 3), (true, 7), (false, 1), (true, 5)],
        [(false, 6), (true, 2), (false, 2), (true, 6), (true, 6), (false, 2), (true, 2), (false, 6)],
        [(false, 7), (true, 5), (false, 3), (true, 1), (false, 1), (true, 3), (false, 5), (true, 7)]] := by decide

/-- R128's cosines lie within the tolerance about R122's values, and so do the printed digits rounded to binary64. -/
theorem test_basis_tolerance :
    ((List.range 8).all fun u => (List.range 8).all fun x =>
      near (refConst b64 (.cosBasis u x)) (basisValue u x) (basisTolerance u x)
        && near (round64 (basisValue u x)) (basisValue u x) (basisTolerance u x)) = true := by decide +kernel

/-- V25: ties at T = 16, and -30 at T = 11. -/
theorem test_qfwd_luma :
    after (unitQfwd referenceSetting .luma { blank with blk := sparse [(0, 8), (1, -30), (63, 50)] })
      (fun s => (s.blk[0], s.blk[1], s.blk[63])) = some (.fin 0, .fin (-3), .fin 1) := by decide +kernel

/-- V26: 1024 at T = 17. -/
theorem test_qfwd_chroma :
    after (unitQfwd referenceSetting .chroma { blank with blk := sparse [(0, 1024)] }) (fun s => s.blk[0])
      = some (.fin 60) := by decide +kernel

/-- V27. -/
theorem test_qinv_luma :
    after (unitQinv referenceSetting .luma { blank with blk := sparse [(0, 64), (1, -84), (3, 20)] })
      (fun s => (s.blk[0], s.blk[1], s.blk[3])) = some (.fin 1024, .fin (-924), .fin 320) := by decide +kernel

/-- V27, with the legacy parameter: 60 at `[0][0]` gives 960. -/
theorem test_qinv_legacy :
    after (unitQinv ⟨referenceDatapath, { specParams with legacyDequant := true }⟩ .chroma { blank with blk := sparse [(0, 60)] })
      (fun s => s.blk[0]) = some (.fin 960) := by decide +kernel

/-- V25: the three tie rules on 8/16, 24/16, 40/16 and their negatives. -/
theorem test_round_ties :
    ([RoundTie.halfEven, .halfAway, .halfUp].map fun tie =>
      [mkRat 1 2, mkRat 3 2, mkRat 5 2, mkRat (-1) 2, mkRat (-3) 2, mkRat (-5) 2].map (roundRat tie))
      = [[0, 2, 2, 0, -2, -2], [1, 2, 3, -1, -2, -3], [1, 2, 3, 0, -1, -2]] := by decide +kernel

/-- V30: single elements of the scan. -/
theorem test_zzf :
    after (exec .zzf { blank with blk := sparse [(1, 1), (8, 2), (3, 3), (56, 4), (63, 5)] })
      (fun s => s.seq.map fun v => (v[1], v[2], v[6], v[35], v[63]))
      = some (some (.fin 1, .fin 2, .fin 3, .fin 4, .fin 5)) := by decide +kernel

/-- V30: the same elements back. -/
theorem test_zzi :
    after (exec .zzi { blank with seq := some (sparse [(1, 1), (2, 2), (6, 3), (35, 4), (63, 5)]) })
      (fun s => s.blk) = some (sparse [(1, 1), (8, 2), (3, 3), (56, 4), (63, 5)]) := by decide +kernel

/-- V33. -/
theorem test_rlee :
    after (unitRlee referenceSetting { blank with seq := some (sparse [(0, 64), (1, -84), (6, 20), (15, -5), (28, 3)]) })
      (fun s => s.sym) = some [⟨0, 64⟩, ⟨0, -84⟩, ⟨4, 20⟩, ⟨8, -5⟩, ⟨12, 3⟩] := by decide +kernel

/-- V33: rounding before the comparison, ties to even. -/
theorem test_rlee_rounds :
    after (unitRlee referenceSetting { blank with
      seq := some (sparse [(0, mkRat 4 10), (1, mkRat (-4) 10), (2, mkRat 1 2), (3, mkRat 3 2), (4, mkRat (-5) 2), (5, mkRat 6 10)]) })
      (fun s => s.sym) = some [⟨3, 2⟩, ⟨0, -2⟩, ⟨0, 1⟩] := by decide +kernel

/-- V34: a zero-valued symbol is decoded literally. -/
theorem test_rled :
    after (exec .rled { blank with sym := [⟨5, 0⟩, ⟨0, 7⟩] }) (fun s => s.seq) = some (some (sparse [(6, 7)])) := by
  decide +kernel

/-- V34: the third symbol asks for position 64. -/
theorem test_rled_overflow :
    after (exec .rled { blank with sym := [⟨0, 64⟩, ⟨62, 1⟩, ⟨0, 2⟩] }) (fun s => (s.status, s.errinfo, s.seq))
      = some (0x40, 64, none) := by decide +kernel

/-- V40. -/
theorem test_fwr :
    after (exec .fwr { blank with
      width := some 300, height := some 2, blkList := some [[⟨0, -1⟩, ⟨63, -128⟩], [⟨2, 127⟩]] })
      (fun s => (s.stream.map fun p => p.2, s.len))
      = some ([0x01, 0x2C, 0x00, 0x02, 0x00, 0xFF, 0x3F, 0x80, 0x00, 0x00, 0x02, 0x7F, 0x00, 0x00], some 14) := by
  decide +kernel

/-- V41: the second block cannot be encoded. -/
theorem test_fwr_value_range :
    after (exec .fwr { blank with blkList := some [[⟨0, 5⟩], [⟨0, 128⟩]] }) (fun s => (s.status, s.errinfo, s.len))
      = some (0x30, 1, none) := by decide +kernel

/-- V42: the zero bytes at offsets 5 and 6 straddle two groups. -/
theorem test_fpr :
    after (exec .fpr { blank with
      stream := Mem.ofList [0x00, 0x08, 0x00, 0x08, 0x07, 0x00, 0x00, 0x09, 0x00, 0x00], len := some 10 })
      (fun s => (s.width, s.height, s.blkList)) = some (some 8, some 8, some [[⟨7, 0⟩, ⟨0, 9⟩]]) := by decide +kernel

/-- V43: a symbol that no delimiter closes. -/
theorem test_fpr_missing_delimiter :
    after (exec .fpr { blank with
      stream := Mem.ofList [0x00, 0x08, 0x00, 0x08, 0x00, 0x40, 0x00, 0x00, 0x00, 0x3C], len := some 10 })
      (fun s => (s.status, s.errinfo, s.blkList)) = some (0x20, 3, none) := by decide +kernel

/-! ### The machine -/

/-- R224, V2: an illegal command issued by a step. -/
theorem test_illegal_command :
    after (step { blank with pending := [.cmd 0x85, .cmd 0x05] }) (fun s => (s.status, s.errinfo, s.pending))
      = some (0x60, 0x85, []) := by decide +kernel

/-- S7: the four degenerate dimensions. -/
theorem test_degenerate_dimensions :
    ([(0, 0), (5, 0), (65536, 1), (1, 70000)].map fun p =>
      after (step { blank with pending := [.checkDims p.1 p.2] }) fun s => (s.status, s.errinfo))
      = [some (0x10, 1), some (0x10, 2), some (0x10, 3), some (0x10, 4)] := by decide +kernel

/-- R194: a 16 by 16 image has 27 unit operations in its listing (P1), and 6 moves. -/
theorem test_compress_listing :
    ((compressSteps specParams 16 16).filter fun x => match x with | .cmd _ => true | _ => false).length = 27
    ∧ (compressSteps specParams 16 16).length = 39 := by decide +kernel

/-- The command that `withFetchWord` places is run by the next step. -/
theorem test_with_fetch_word :
    after (step (blank.withFetchWord 8 0x0C)) (fun s => (s.cmd, s.status, s.opidx, s.pending)) = some (0x0C, 0x02, 1, []) := by
  decide +kernel

/-- R14: another grouping of the luminance formula is an evaluation of it; a formula with a factor changed is not. -/
theorem test_is_evaluation :
    isEvaluation (.pixel .y)
      (.fma (.operand 2) (lit 114 1000) (.add (.mul (.operand 1) (lit 587 1000)) (.mul (lit 299 1000) (.operand 0)))) = true
    ∧ isEvaluation (.pixel .y)
      (.add (.add (.mul (lit 299 1000) (.operand 0)) (.mul (lit 587 1000) (.operand 1))) (.mul (lit 114 1000) (.operand 1)))
      = false := by decide +kernel

/-- R14, V4: to multiply the parentheses of R104 out is no order of the formula. -/
theorem test_parentheses :
    isRearrangement (.pixel .blue)
      (.sub (.add (.operand 0) (.mul (lit 1765 1000) (.operand 1))) (.mul (lit 1765 1000) (lit 128 1))) = false
    ∧ isRearrangement (.pixel .blue) (.fma (.sub (.operand 1) (lit 128 1)) (lit 1765 1000) (.operand 0)) = true := by
  decide +kernel

/-- R15: a NaN in a sample that decimation drops, and one after a pixel without chroma. -/
theorem test_non_finite_plane :
    let nan : Mem Real64 := [(0, .fin 1), (1, .nan)]
    exec .cdown2 { blank with width := some 2, height := some 2, planeCb := nan, planeCr := plane [1] }
      = .refused (.nonFinite .planeCb 1)
    ∧ exec .ycc2rgb { blank with width := some 2, planeY := nan } = .refused (.nonFinite .planeY 1) := ⟨rfl, rfl⟩

/-- R129: on a constant block a coefficient of 6e-9 is not admitted, and one of 1e-13 is; on another block both are. -/
theorem test_admit_value :
    admitValue (.dctF 1 0) (fun _ => .fin 255) (.fin (mkRat 6 (10 ^ 9))) = .fin 0
    ∧ admitValue (.dctF 1 0) (fun _ => .fin 255) (.fin (mkRat 1 (10 ^ 13))) = .fin (mkRat 1 (10 ^ 13))
    ∧ admitValue (.dctF 1 0) (fun j => .fin j) (.fin (mkRat 6 (10 ^ 9))) = .fin (mkRat 6 (10 ^ 9)) := by decide +kernel

/-- `c_3 * c_5 = c_2 / 2`, and `1 / c_4 = 2 c_4`: R122's cosines under the identities that fast transforms use. -/
theorem test_cosine_arithmetic :
    cosMul (cosUnit 3) (cosUnit 5) = cosScale (1 / 2) (cosUnit 2)
    ∧ cosInv (cosUnit 4) = some (cosScale 2 (cosUnit 4)) := by decide +kernel

/-- R124: a butterfly, and a rotation with one product shared, are the same sums; a butterfly with the wrong sign is not. -/
theorem test_same_sums :
    sameSums (.mul (.const (.cosBasis 1 0)) (.sub (.operand 0) (.operand 7)))
      (.add (.mul (.const (.cosBasis 1 0)) (.operand 0)) (.mul (.const (.cosBasis 1 7)) (.operand 7))) = true
    ∧ sameSums
      (.add (.mul (.const (.cosBasis 1 3)) (.add (.operand 0) (.operand 1)))
        (.mul (.const (.cosSum #v[0, 1, 0, 0, 0, 0, 0, -1])) (.operand 0)))
      (.add (.mul (.const (.cosBasis 1 0)) (.operand 0)) (.mul (.const (.cosBasis 1 3)) (.operand 1))) = true
    ∧ sameSums (.mul (.const (.cosBasis 1 0)) (.add (.operand 0) (.operand 7)))
      (.add (.mul (.const (.cosBasis 1 0)) (.operand 0)) (.mul (.const (.cosBasis 1 7)) (.operand 7))) = false := by
  decide +kernel

/-- R133: the printed order is accurate; to add and take away 10^12 on the way is not, though the sum is the same. -/
theorem test_accuracy :
    isAccurate forwardRange (dctFExpr 7 7) = true
    ∧ isAccurate forwardRange (.sub (.add (.operand 0) (lit (10 ^ 12) 1)) (lit (10 ^ 12) 1)) = false := by decide +kernel

/-- R15: the printed orders stay finite; to scale up by 2^1000 and back on the way does not, accurate as it is. -/
theorem test_stays_finite :
    let scale (e : Expr) (c : Expr) : Expr := (List.range 20).foldl (fun e _ => .mul e c) e
    let scaled := scale (scale (.operand 0) (lit (2 ^ 50) 1)) (lit 1 (2 ^ 50))
    staysFinite (dctFExpr 7 7) = true ∧ staysFinite (dctIExpr 7 7) = true
      ∧ isAccurate forwardRange scaled = true ∧ staysFinite scaled = false := by decide +kernel

/-- R123: numbers that cancel over the reals but not in binary64 are no part of the sum. -/
theorem test_no_number_added :
    linearOf (.add (.operand 0) (.sub (.add (lit 1 10) (lit 2 10)) (lit 3 10))) = none := by decide +kernel

/-! ### Witnesses: for each statement with hypotheses, states and operands that meet them together -/

/-- `StepRunsTheDecodedOperation`: the highest legal word, with a reset that is asked for later. -/
theorem witness_step_runs :
    let s := { blank with pending := [.cmd 0x1E, .pushsym], inbox := [.issue [], .reset] }
    s.pending = .cmd 0x1E :: [.pushsym] ∧ (∀ more, s.inbox ≠ .reset :: more) ∧ s.faulted = false ∧ busyBit s.status = false
      ∧ decode 0x1E = .ok .fpr := by
  refine ⟨rfl, ?_, by decide, by decide, by decide⟩
  intro more h
  cases h

/-- `IllegalCommandFaults`. -/
theorem witness_illegal_command :
    let s := { blank with pending := [.cmd 0x20, .pushsym] }
    s.pending = .cmd 0x20 :: [.pushsym] ∧ (∀ more, s.inbox ≠ .reset :: more) ∧ s.faulted = false ∧ busyBit s.status = false
      ∧ commandWellFormed 0x20 = false := by
  refine ⟨rfl, ?_, by decide, by decide, by decide⟩
  intro more h
  cases h

/-- `AfterAFaultOnlyResetChangesAnything`: with steps pending, and with a call waiting. -/
theorem witness_after_a_fault :
    State.faulted { blank with status := 0x60, pending := [.cmd 0x05] } = true
    ∧ State.faulted { blank with status := 0x10, inbox := [.compress 1 1 [1, 2, 3]] } = true := by decide

/-- `ResetValues`: the host asks for a reset while steps are pending, with no fault standing and with one. -/
theorem witness_reset_call :
    State.inbox { blank with pending := [.pushsym], inbox := [.reset, .issue []] } = .reset :: [.issue []]
    ∧ State.inbox { blank with status := 0x10, inbox := [.reset] } = .reset :: [] := ⟨rfl, rfl⟩

/-- `IdleBlockStays`, `ResetInv`'s companions: an idle state. -/
theorem witness_idle : blank.pending = [] ∧ blank.inbox = [] := ⟨rfl, rfl⟩

/-- `OperationCompletesOrFaults`: an operation that completes, and one that faults. -/
theorem witness_completes : ∃ t, exec .zzf blank = .next t := next_of_isNext (by decide +kernel)

theorem witness_faults : ∃ t, exec .rled { blank with sym := [⟨64, 1⟩] } = .next t := next_of_isNext (by decide +kernel)

/-- `SequencerAdvances`: an ordinary step, a fault, and the block count check. -/
theorem witness_advances_ordinary :
    (∀ more, blank.inbox ≠ .reset :: more) ∧ ∃ t, step { blank with pending := [.pushsym, .pushsym] } = .next t := by
  refine ⟨fun more h => ?_, next_of_isNext (by decide +kernel)⟩
  cases h

theorem witness_advances_fault : ∃ t, step { blank with pending := [.checkDims 0 1, .pushsym] } = .next t :=
  next_of_isNext (by decide +kernel)

theorem witness_advances_count : ∃ t, step { blank with pending := [.checkCount], blkList := some [[]] } = .next t :=
  next_of_isNext (by decide +kernel)

/-- `NonFiniteOperandIsRefused`: an infinity in the last element, a NaN in the first, no value. -/
theorem witness_non_finite :
    blockFinite (zeros.setIfInBounds 63 (.inf true)) = false ∧ blockFinite (zeros.setIfInBounds 0 .nan) = false
      ∧ State.seq { blank with seq := none } = none := by decide +kernel

theorem witness_non_finite_plane :
    let s := { blank with width := some 3, height := some 2, planeY := [(5, .nan)], planeCr := [(5, .inf true)], planeCrh := [(0, .nan)] }
    s.planeY.read 5 = some .nan ∧ s.planeCr.read 5 = some (.inf true) ∧ s.planeCrh.read 0 = some .nan
      ∧ Real64.isFinite .nan = false ∧ Real64.isFinite (.inf true) = false
      ∧ 5 < (3 : Half).toNat * (2 : Half).toNat ∧ 0 < ((3 : Half).toNat / 2) * ((2 : Half).toNat / 2) := by decide +kernel

/-- `Rgb2yccConverts`: one pixel; and the empty image. -/
theorem witness_rgb2ycc :
    let s := { blank with raster := Mem.ofList [255, 0, 7] }
    s.width = some 1 ∧ s.height = some 1 ∧ ∀ a, a < 3 * ((1 : Half).toNat * (1 : Half).toNat) → (Mem.read s.raster a).isSome = true := by
  refine ⟨rfl, rfl, ?_⟩
  decide +kernel

theorem witness_rgb2ycc_empty :
    ∀ a, a < 3 * ((0 : Half).toNat * (1 : Half).toNat) → (Mem.read blank.raster a).isSome = true := by decide +kernel

/-- Two pixels with all three planes. -/
def twoPixels : State := { blank with width := some 2, planeY := plane [1, 2], planeCb := plane [3, 4], planeCr := plane [5, 6] }

theorem twoPixels_values : ∀ i, i < 2 →
    ∃ y cb cr : Rat, twoPixels.planeY.read i = some (.fin y) ∧ twoPixels.planeCb.read i = some (.fin cb)
      ∧ twoPixels.planeCr.read i = some (.fin cr) := by
  intro i hi
  obtain rfl | rfl : i = 0 ∨ i = 1 := by omega
  · exact ⟨1, 3, 5, by decide +kernel, by decide +kernel, by decide +kernel⟩
  · exact ⟨2, 4, 6, by decide +kernel, by decide +kernel, by decide +kernel⟩

/-- `Ycc2rgbConverts`. -/
theorem witness_ycc2rgb :
    twoPixels.width = some 2 ∧ twoPixels.height = some 1 ∧ ∀ i, i < (2 : Half).toNat * (1 : Half).toNat →
      ∃ y cb cr : Rat, twoPixels.planeY.read i = some (.fin y) ∧ twoPixels.planeCb.read i = some (.fin cb)
        ∧ twoPixels.planeCr.read i = some (.fin cr) := ⟨rfl, rfl, twoPixels_values⟩

/-- `Ycc2rgbContractViolation`: the last of three pixels holds no chroma. -/
theorem witness_contract_violation :
    let s := { twoPixels with width := some 3 }
    s.width = some 3 ∧ s.height = some 1 ∧ 2 < (3 : Half).toNat * (1 : Half).toNat
      ∧ (∀ k v, k < (3 : Half).toNat * (1 : Half).toNat →
        s.planeY.read k = some v ∨ s.planeCb.read k = some v ∨ s.planeCr.read k = some v → v.isFinite = true)
      ∧ (∀ j, j < 2 → ∃ y cb cr : Rat, s.planeY.read j = some (.fin y) ∧ s.planeCb.read j = some (.fin cb)
        ∧ s.planeCr.read j = some (.fin cr))
      ∧ (s.planeCb.read 2 = none ∨ s.planeCr.read 2 = none) :=
  ⟨rfl, rfl, by decide,
    fun k v hk hv => hv.elim (Mem.firstNonFinite_eq_none.mp (by decide +kernel) k hk v) fun hv =>
      hv.elim (Mem.firstNonFinite_eq_none.mp (by decide +kernel) k hk v)
        (Mem.firstNonFinite_eq_none.mp (by decide +kernel) k hk v),
    twoPixels_values, .inl (by decide +kernel)⟩

/-- `Cast8ClampsThenCasts`: both settings of `CAST8`. -/
theorem witness_cast8 : specParams.cast8 = .trunc ∧ Params.cast8 { specParams with cast8 := .round } = .round := ⟨rfl, rfl⟩

/-- `ColourFormulas`, `ColourRanges`, `ColourRoundTrip`, `DctFormulas`, `DctIsOrthogonal`, `DcCoefficient`,
`CoefficientBound`: legal expressions. -/
theorem witness_allLegal : allLegal refExpr := allLegal_refExpr

/-- `EvaluationOrders`: an expression other than the printed one. -/
theorem witness_evaluation :
    isEvaluation (.pixel .red) (.add (.mul (.sub (.operand 2) (lit 128 1)) (lit 14 10)) (.operand 0)) = true
    ∧ isRearrangement (.pixel .red) (.add (.mul (.sub (.operand 2) (lit 128 1)) (lit 14 10)) (.operand 0)) = true := by
  decide +kernel

/-- `DcCoefficient`: the greatest constant block of R129, and the all-zero block. -/
theorem witness_constant_block :
    State.blk { blank with blk := Vector.replicate 64 (.fin 255) } = Vector.replicate 64 (.fin 255) ∧ |(255 : Rat)| ≤ 255
      ∧ blank.blk = Vector.replicate 64 (.fin 0) := ⟨rfl, by norm_num, rfl⟩

/-- `EvaluationOrders`: a block at the end of R15's range. -/
theorem witness_finite_results :
    ∀ (k : Nat) (_ : k < 64), ∃ q : Rat,
      (State.blk { blank with blk := Vector.replicate 64 (.fin (2 ^ 1000)) })[k] = .fin q ∧ |q| ≤ 2 ^ 1000 :=
  fun k hk => ⟨2 ^ 1000, by simp, by rw [abs_of_pos (by positivity)]⟩

/-- `EvaluationOrders`: a block at the end of R133's range. -/
theorem witness_near_identity :
    ∀ (k : Nat) (_ : k < 64), ∃ q : Rat,
      (State.blk { blank with blk := Vector.replicate 64 (.fin (-(511 / 2))) })[k] = .fin q ∧ |q| ≤ 511 / 2 :=
  fun k hk => ⟨-(511 / 2), by simp, by norm_num⟩

/-- `ColourRanges`: the ends of the ranges meet its bounds. -/
theorem witness_colour_ranges : (0 : ℝ) ≤ 0 ∧ (0 : ℝ) ≤ 255 ∧ (255 : ℝ) ≤ 255 := ⟨le_refl 0, by norm_num, le_refl 255⟩

/-- `Cdown2Decimates`, `DecimateThenReplicate`: 3 by 3, the odd column and row holding no value. -/
theorem witness_cdown2 :
    let s := { blank with width := some 3, height := some 3, planeCb := plane [9], planeCr := plane [8] }
    s.width = some 3 ∧ s.height = some 3
      ∧ (∀ k v, k < (3 : Half).toNat * (3 : Half).toNat → s.planeCb.read k = some v ∨ s.planeCr.read k = some v →
        v.isFinite = true)
      ∧ ∀ i j, i < (3 : Half).toNat / 2 → j < (3 : Half).toNat / 2 → ∃ cb cr : Rat, s.planeCb.read (2 * j * (3 : Half).toNat + 2 * i) = some (.fin cb)
        ∧ s.planeCr.read (2 * j * (3 : Half).toNat + 2 * i) = some (.fin cr) := by
  refine ⟨rfl, rfl, fun k v hk hv => hv.elim (Mem.firstNonFinite_eq_none.mp (by decide +kernel) k hk v)
    (Mem.firstNonFinite_eq_none.mp (by decide +kernel) k hk v), fun i j hi hj => ?_⟩
  have hi' : i < 1 := hi
  have hj' : j < 1 := hj
  obtain rfl : i = 0 := by omega
  obtain rfl : j = 0 := by omega
  exact ⟨9, 8, by decide +kernel, by decide +kernel⟩

/-- `Cup2Replicates`, `Cup2ReplicatePolicy`: 3 by 3 again. -/
theorem witness_cup2 :
    let s := { blank with width := some 3, height := some 3, planeCbh := plane [9], planeCrh := plane [8] }
    s.width = some 3 ∧ s.height = some 3 ∧ Params.oddDim { specParams with oddDim := .replicate } = .replicate
      ∧ ∀ k, k < ((3 : Half).toNat / 2) * ((3 : Half).toNat / 2) →
        ∃ cb cr : Rat, s.planeCbh.read k = some (.fin cb) ∧ s.planeCrh.read k = some (.fin cr) := by
  refine ⟨rfl, rfl, rfl, fun k hk => ?_⟩
  have hk' : k < 1 := hk
  obtain rfl : k = 0 := by omega
  exact ⟨9, 8, by decide +kernel, by decide +kernel⟩

/-- `DctCompletes`, `QuantizersComplete`, `ZzfScans`, `ZigzagRoundTrip`, `RunLengthRoundTrip`: a block of finite binary64
values. -/
theorem witness_finite_block :
    blockFinite (sparse [(0, 255), (63, mkRat (-1) 2)]) = true
      ∧ (sparse [(0, 255), (63, mkRat (-1) 2)]).toList.all wf64 = true := by decide +kernel

/-- `QfwdGivesIntegers`. -/
theorem witness_qfwd : blank.realsOk = true ∧ ∃ t, exec (.qfwd .chroma) blank = .next t :=
  ⟨by decide +kernel, next_of_isNext (by decide +kernel)⟩

/-- `QuantizationLoss`: the luminance table, and the least legal one. -/
theorem witness_tables :
    (∀ k : Fin 64, 1 ≤ qtLumaDefault[k]) ∧ ∀ k : Fin 64, 1 ≤ (Vector.replicate 64 1 : Vector Nat 64)[k] := by decide +kernel

/-- `ZziScatters`, `ZigzagRoundTrip`, `RleeEncodes`: a finite scan vector; its first and last places. -/
theorem witness_scan_vector :
    blank.seq = some zeros ∧ blockFinite zeros = true ∧ zz[0] = 0 ∧ zz[63] = 63 := by decide +kernel

/-- `RleeListInvariants`: a last non-zero value at position 63, none at all, and two runs that give one list. -/
theorem witness_rlee :
    (∃ t, exec .rlee { blank with seq := some (sparse [(63, -7)]) } = .next t) ∧ (∃ t, exec .rlee blank = .next t)
      ∧ rnd64 .halfEven (sparse [(63, -7)])[63] ≠ 0 ∧ (∀ (k : Fin 64), rnd64 .halfEven zeros[k] = 0) :=
  ⟨next_of_isNext (by decide +kernel), next_of_isNext (by decide +kernel), by decide +kernel, by decide +kernel⟩

/-- `RledDecodes`: lists that fill the block exactly. -/
theorem witness_rled : (expandRuns [⟨62, 1⟩, ⟨0, 2⟩]).length ≤ 64 ∧ (expandRuns []).length ≤ 64 := by decide +kernel

/-- `RledOverflows`: the first position past the block, after a list that fills it and after none. -/
theorem witness_rled_overflow :
    ((expandRuns [⟨62, 1⟩, ⟨0, 2⟩]).length ≤ 64 ∧ 63 < (expandRuns [⟨62, 1⟩, ⟨0, 2⟩]).length + (⟨0, 5⟩ : Symbol).run)
      ∧ (expandRuns []).length ≤ 64 ∧ 63 < (expandRuns []).length + (⟨64, 5⟩ : Symbol).run := by decide +kernel

/-- `RunLengthRoundTrip`: a list of non-zero values that fills the block. -/
theorem witness_list : (∀ sy ∈ ([⟨62, 1⟩, ⟨0, -2⟩] : Record), sy.value ≠ 0) ∧ (expandRuns [⟨62, 1⟩, ⟨0, -2⟩]).length ≤ 64 := by
  decide +kernel

/-- `RunLengthRoundTrip`, on the machine: values at the bound. -/
theorem witness_list_machine :
    (∀ sy ∈ ([⟨62, 2 ^ 53⟩, ⟨0, -2 ^ 53⟩] : Record), sy.value ≠ 0 ∧ |sy.value| ≤ 2 ^ 53)
      ∧ (expandRuns [⟨62, 2 ^ 53⟩, ⟨0, -2 ^ 53⟩]).length ≤ 64 := by decide +kernel

/-- `RoundingRule`: a finite result, the bound of overflow, and values of binary64 on both sides of a tie. -/
theorem witness_rounding :
    round64 (2 ^ 53 + 1) = .fin (2 ^ 53) ∧ round64 (2 ^ 1024 - 2 ^ 970) = .inf false
      ∧ wf64 (.fin (2 ^ 53)) = true ∧ wf64 (.fin (2 ^ 53 + 2)) = true ∧ wf64 (.fin (2 ^ 53 + 1)) = false
      ∧ round64 (2 ^ 53 + 3) = .fin (2 ^ 53 + 4) := by decide +kernel

/-- `ValueByteMapping`: the ends of the range. -/
theorem witness_value_byte : (-128 : Int) ≤ -128 ∧ (127 : Int) ≤ 127 ∧ decodeValue (encodeValue (-128)) = -128 := by decide

/-- `FwrWritesTheStream`, `WriterParserRoundTrip`: symbols at the ends of their ranges. -/
theorem witness_fwr :
    blank.width = some 1 ∧ blank.height = some 1 ∧ (1 : Half) ≠ 0
      ∧ ∀ r ∈ ([[⟨255, -128⟩, ⟨0, 127⟩], [], [⟨1, 0⟩]] : List Record), ∀ sy ∈ r, sy.wellFormed = true := by decide +kernel

/-- `FwrStreamShape`: a `FWR` that ends without fault. -/
theorem witness_fwr_done :
    after (exec .fwr { blank with blkList := some [[⟨255, -128⟩], []] }) (fun t => doneBit t.status) = some true := by
  decide +kernel

/-- `FwrDimensionError`: each of the two clauses. -/
theorem witness_fwr_dimension :
    (State.width { blank with width := some 0 } = some 0 ∧ (0 : Half) = 0)
      ∧ State.height { blank with height := some 0 } = some 0 ∧ (1 : Half) ≠ 0 ∧ blank.blkList = some [] := by decide

/-- `FwrValueRangeFault`: symbols just past each of the three bounds, and symbols that can be written under each setting. -/
theorem witness_value_range :
    ¬ writable specParams ⟨256, 1⟩ ∧ ¬ writable specParams ⟨0, 128⟩ ∧ ¬ writable specParams ⟨0, -129⟩
      ∧ ¬ writable specParams ⟨0, 0⟩ ∧ ¬ writable { specParams with valueWrap := true } ⟨0, 256⟩
      ∧ writable specParams ⟨255, -128⟩ ∧ writable { specParams with valueWrap := true } ⟨0, 128⟩ := by
  unfold writable
  decide

/-- A state whose `STREAM` and `LEN` hold these bytes. -/
def holding (bytes : List Byte) : State := { blank with stream := Mem.ofList bytes, len := some bytes.length }

theorem holding_holds (bytes : List Byte) : (holding bytes).holdsStream bytes :=
  ⟨rfl, fun i _ => Mem.read_ofList bytes i⟩

/-- `FprParsesEveryByteString`: a stream for each clause: 3 bytes; zero width; zero height; one byte over; an open record; a
closed one; no record. -/
theorem witness_fpr :
    (holding [0, 8, 0]).holdsStream [0, 8, 0] ∧ (holding [0, 0, 0, 0]).holdsStream [0, 0, 0, 0]
      ∧ (holding [0, 1, 0, 0]).holdsStream [0, 1, 0, 0] ∧ (holding [0, 1, 0, 1, 0]).holdsStream [0, 1, 0, 1, 0]
      ∧ (holding [0, 1, 0, 1, 0, 4]).holdsStream [0, 1, 0, 1, 0, 4] ∧ closed [0, 4] = false
      ∧ (holding [0, 1, 0, 1, 0, 4, 0, 0]).holdsStream [0, 1, 0, 1, 0, 4, 0, 0] ∧ closed [0, 4, 0, 0] = true
      ∧ (holding [0, 1, 0, 1]).holdsStream [0, 1, 0, 1] ∧ closed [] = true :=
  ⟨holding_holds _, holding_holds _, holding_holds _, holding_holds _, holding_holds _, by decide, holding_holds _,
    by decide, holding_holds _, by decide⟩

/-- `WriterParserRoundTrip`: a stream that `FPR` accepts. -/
theorem witness_fpr_done :
    after (exec .fpr (holding [0, 1, 0, 1, 5, 0, 0, 0])) (fun t => doneBit t.status) = some true := by decide +kernel

/-- `DimensionCheck`: the values where its clauses meet. -/
theorem witness_dimension_check :
    let s := { blank with pending := [.checkDims 65535 65536, .pushsym] }
    s.pending = .checkDims 65535 65536 :: [.pushsym] ∧ (∀ more, s.inbox ≠ .reset :: more) ∧ s.faulted = false := by
  refine ⟨rfl, ?_, by decide⟩
  intro more h
  cases h

/-- `LoadBlock`: the one sample of a 1 by 1 image, and a block that is all padding. -/
theorem witness_load_block :
    (let s := { blank with planeY := plane [5], pending := [.ldblk .luma 0, .pushsym] };
      s.pending = .ldblk .luma 0 :: [.pushsym] ∧ (∀ more, s.inbox ≠ .reset :: more) ∧ s.faulted = false
        ∧ s.width = some 1 ∧ s.height = some 1
        ∧ ∀ i, 64 * 0 ≤ i → i < 64 * 0 + 64 → i < sampleCount .luma (1 : Half).toNat (1 : Half).toNat →
          (s.sample .luma (1 : Half).toNat (1 : Half).toNat i).isSome = true)
    ∧ ∀ i, 64 * 0 ≤ i → i < 64 * 0 + 64 → i < sampleCount .chroma (1 : Half).toNat (1 : Half).toNat →
      (State.sample blank .chroma (1 : Half).toNat (1 : Half).toNat i).isSome = true := by
  refine ⟨⟨rfl, (by simp [blank]), by decide, rfl, rfl, fun i _ _ h => ?_⟩, fun i _ _ h => ?_⟩
  · have h' : i < 1 := h
    obtain rfl : i = 0 := by omega
    decide +kernel
  · exact absurd h (Nat.not_lt_zero i)

/-- `StoreBlock`: a block that is part padding. -/
theorem witness_store_block :
    let s := { blank with pending := [.stblk .luma 0, .pushsym] }
    s.pending = .stblk .luma 0 :: [.pushsym] ∧ (∀ more, s.inbox ≠ .reset :: more) ∧ s.faulted = false
      ∧ s.width = some 1 ∧ s.height = some 1 := ⟨rfl, (by simp [blank]), by decide, rfl, rfl⟩

/-- `PushAndPop`: a list with a record, and each of the two steps pending. -/
theorem witness_pop :
    let s := { blank with blkList := some [[⟨0, 1⟩]], pending := [.popsym 0, .pushsym] }
    let s' := { s with pending := [.pushsym, .cmd 0x0D] }
    (∀ more, s.inbox ≠ .reset :: more) ∧ s.faulted = false ∧ s.blkList = some [[⟨0, 1⟩]]
      ∧ s.pending = .popsym 0 :: [.pushsym] ∧ ([[⟨0, 1⟩]] : List Record)[0]? = some [⟨0, 1⟩]
      ∧ s'.pending = .pushsym :: [.cmd 0x0D] := ⟨by simp [blank], by decide, rfl, rfl, rfl, rfl⟩

/-- `BlockCountCheck`: as many records as blocks, and one fewer. -/
theorem witness_count_check :
    let s := { blank with pending := [.checkCount, .pushsym], blkList := some [[]] }
    s.pending = .checkCount :: [.pushsym] ∧ (∀ more, s.inbox ≠ .reset :: more) ∧ s.faulted = false
      ∧ s.width = some 1 ∧ s.height = some 1
      ∧ ([[]] : List Record).length = lumaBlocks specParams (1 : Half).toNat (1 : Half).toNat
        + chromaBlocks specParams (1 : Half).toNat (1 : Half).toNat
      ∧ ([] : List Record).length ≠ lumaBlocks specParams (1 : Half).toNat (1 : Half).toNat
        + chromaBlocks specParams (1 : Half).toNat (1 : Half).toNat := by
  refine ⟨rfl, ?_, by decide, rfl, rfl, by decide, by decide⟩
  intro more h
  cases h

/-- `BlockCounts`, `Listings`: the least dimensions, and places in both loops. -/
theorem witness_block_counts :
    (1 : Nat) ≤ 1 ∧ 0 < lumaBlocks specParams 2 2 ∧ 0 < chromaBlocks specParams 2 2 ∧ 2 % 2 = 0 := by decide

/-- `InvocationStartsClean`: calls at the head of the inbox of an idle block, and the step that is refused. -/
theorem witness_invocation :
    (State.pending { blank with inbox := [.compress 1 1 [1, 2, 3], .reset] } = []
      ∧ State.inbox { blank with inbox := [.compress 1 1 [1, 2, 3], .reset] } = .compress 1 1 [1, 2, 3] :: [.reset])
    ∧ State.inbox { blank with inbox := [.decompress [0] 1] } = .decompress [0] 1 :: []
    ∧ State.inbox { blank with inbox := [.convert 1 1 [1, 2, 3]] } = .convert 1 1 [1, 2, 3] :: []
    ∧ State.pending { blank with pending := [.serialise, .pushsym] } = .serialise :: [.pushsym]
    ∧ (∀ more, blank.inbox ≠ .reset :: more) ∧ blank.faulted = false
    ∧ ∀ l, HostCall.reset ≠ .issue l := by
  refine ⟨⟨rfl, rfl⟩, rfl, rfl, rfl, by simp [blank], by decide, ?_⟩
  intro l h
  cases h

/-- `StepKeepsInv`, `StepKeepsRealsOk`: a state with both invariants and a step of an operation on it. -/
theorem witness_invariants :
    State.Inv { blank with pending := [.cmd 0x09] } ∧ State.realsOk { blank with pending := [.cmd 0x09] } = true
      ∧ ∃ t, step { blank with pending := [.cmd 0x09] } = .next t :=
  ⟨by decide +kernel, by decide +kernel, next_of_isNext (by decide +kernel)⟩

end Sys2Proof.Tests
end

section
/-! PROOF. R13, R14, R127: what `rnd`, `trunc` and the rounding to binary64 are, and `RoundingRule`. -/

namespace Sys2Proof.Machine

/-! ### `rnd` and `trunc` of R13 -/

theorem tieBreak_cases (tie : RoundTie) (f : Int) : tieBreak tie f = f ∨ tieBreak tie f = f + 1 := by
  cases tie <;> simp only [tieBreak] <;> grind

theorem exactNum_rnd (tie : RoundTie) (x : ℝ) :
    exactNum.rnd tie x
      = if x - (⌊x⌋ : ℝ) < 1 / 2 then ⌊x⌋ else if 1 / 2 < x - (⌊x⌋ : ℝ) then ⌊x⌋ + 1 else tieBreak tie ⌊x⌋ := rfl

theorem exactNum_trunc (x : ℝ) : exactNum.trunc x = if 0 ≤ x then ⌊x⌋ else ⌈x⌉ := rfl

theorem exactNum_rnd_near (tie : RoundTie) (x : ℝ) : |x - exactNum.rnd tie x| ≤ 1 / 2 := by
  have h1 := Int.floor_le x
  have h2 := Int.lt_floor_add_one x
  rw [exactNum_rnd, abs_le]
  split_ifs with ha hb
  · constructor <;> linarith
  · push_cast; constructor <;> linarith
  · rcases tieBreak_cases tie ⌊x⌋ with h | h <;> rw [h] <;> push_cast <;> constructor <;> linarith

/-- Half-way between two integers the tie rule decides. -/
theorem exactNum_rnd_half (tie : RoundTie) (k : Int) : exactNum.rnd tie ((k : ℝ) + 1 / 2) = tieBreak tie k := by
  have hf : ⌊(k : ℝ) + 1 / 2⌋ = k := by rw [Int.floor_eq_iff]; constructor <;> linarith
  rw [exactNum_rnd, hf, add_sub_cancel_left, if_neg (lt_irrefl _), if_neg (lt_irrefl _)]

theorem exactNum_trunc_toward_zero (x : ℝ) :
    |(exactNum.trunc x : ℝ)| ≤ |x| ∧ |x - exactNum.trunc x| < 1 ∧ 0 ≤ x * exactNum.trunc x := by
  rw [exactNum_trunc]
  split_ifs with h
  · have h0 : (0 : ℝ) ≤ ⌊x⌋ := by exact_mod_cast Int.floor_nonneg.mpr h
    have h1 := Int.floor_le x
    have h2 := Int.lt_floor_add_one x
    refine ⟨by rwa [abs_of_nonneg h0, abs_of_nonneg h], ?_, mul_nonneg h h0⟩
    rw [abs_lt]; constructor <;> linarith
  · have hx : x < 0 := not_le.mp h
    have h0 : (⌈x⌉ : ℝ) ≤ 0 := by exact_mod_cast Int.ceil_le.mpr (by simpa using hx.le)
    have h1 := Int.le_ceil x
    have h2 := Int.ceil_lt_add_one x
    refine ⟨?_, ?_, mul_nonneg_of_nonpos_of_nonpos hx.le h0⟩
    · rw [abs_of_nonpos h0, abs_of_neg hx]; linarith
    · rw [abs_lt]; constructor <;> linarith

/-- On rationals the machine rounds as the reals do. -/
theorem roundRat_eq_exactNum (tie : RoundTie) (q : Rat) : roundRat tie q = exactNum.rnd tie (q : ℝ) := by
  have hf : ⌊(q : ℝ)⌋ = q.floor := Rat.floor_cast q
  have hlt : (q : ℝ) - (q.floor : ℝ) < 1 / 2 ↔ q - q.floor < 1 / 2 := by
    rw [← Rat.cast_lt (K := ℝ)]; push_cast; rfl
  have hgt : 1 / 2 < (q : ℝ) - (q.floor : ℝ) ↔ 1 / 2 < q - q.floor := by
    rw [← Rat.cast_lt (K := ℝ)]; push_cast; rfl
  simp only [exactNum_rnd, roundRat, hf, hlt, hgt]

theorem truncRat_eq_exactNum (q : Rat) : truncRat q = exactNum.trunc (q : ℝ) := by
  have hf : ⌊(q : ℝ)⌋ = q.floor := Rat.floor_cast q
  have hc : ⌈(q : ℝ)⌉ = q.ceil :=
    (Rat.ceil_cast q).trans (eq_of_forall_ge_iff fun n => by rw [Int.ceil_le, Rat.ceil_le_iff])
  simp only [exactNum_trunc, truncRat, hf, hc, Rat.cast_nonneg]

/-- No integer is nearer than the one that `rnd` takes. -/
theorem roundRat_nearest (tie : RoundTie) (q : Rat) (n : Int) : |q - roundRat tie q| ≤ |q - n| := by
  have hn := roundRat_near tie q
  by_cases h : n = roundRat tie q
  · rw [h]
  have h1 : (1 : Rat) ≤ |(n : Rat) - roundRat tie q| := by
    exact_mod_cast Int.one_le_abs (sub_ne_zero.mpr h)
  have h2 := abs_sub_le (n : Rat) q (roundRat tie q)
  rw [abs_sub_comm (n : Rat) q, abs_sub_comm q (roundRat tie q : Rat)] at h2
  rw [abs_sub_comm]
  linarith

theorem roundRat_intCast (tie : RoundTie) (n : Int) : roundRat tie (n : Rat) = n := by
  have h := roundRat_nearest tie (n : Rat) n
  rw [sub_self, abs_zero, abs_nonpos_iff, sub_eq_zero] at h
  exact_mod_cast h.symm

/-- At a tie `half_even` takes the even integer. -/
theorem even_roundRat_of_tie {q : Rat} (h : |q - roundRat .halfEven q| = 1 / 2) : Even (roundRat .halfEven q) := by
  have h1 : ((q.floor : Int) : Rat) ≤ q := Int.floor_le q
  have h2 : q < (q.floor : Int) + 1 := Int.lt_floor_add_one q
  simp only [roundRat] at h ⊢
  split_ifs at h ⊢ with ha hb
  · rw [abs_of_nonneg (by linarith)] at h; linarith
  · push_cast at h
    rw [abs_of_nonpos (by linarith)] at h; linarith
  · simp only [tieBreak, Int.even_iff]
    split_ifs <;> omega

/-! ### Powers of two and the unit in the last place -/

theorem pow2_add (a b : Int) : pow2 (a + b) = pow2 a * pow2 b := by
  simp only [pow2_eq]; exact zpow_add₀ (by norm_num) a b

theorem pow2_ofNat (n : Nat) [n.AtLeastTwo] : pow2 (OfNat.ofNat n) = 2 ^ (OfNat.ofNat n : Nat) := by
  rw [pow2_eq]; exact zpow_ofNat 2 n

theorem pow2_one : pow2 1 = 2 := by rw [pow2_eq, zpow_one]

theorem pow2_le_pow2 {a b : Int} : pow2 a ≤ pow2 b ↔ a ≤ b := by
  simp only [pow2_eq]; exact zpow_le_zpow_iff_right₀ (by norm_num)

theorem pow2_lt_pow2 {a b : Int} : pow2 a < pow2 b ↔ a < b := by
  simp only [pow2_eq]; exact zpow_lt_zpow_iff_right₀ (by norm_num)

/-- A power of two is a whole number of times every smaller one. -/
theorem pow2_eq_mul {a b : Int} (h : b ≤ a) : ∃ n : Int, pow2 a = n * pow2 b := by
  obtain ⟨n, hn⟩ := Int.eq_ofNat_of_zero_le (sub_nonneg.mpr h)
  refine ⟨2 ^ n, ?_⟩
  rw [show a = (n : Int) + b by omega, pow2_add, pow2_eq (n : Int)]
  push_cast [zpow_natCast]
  rfl

theorem lt_pow2_ilog2_succ (q : Rat) : |q| < pow2 (ilog2 q + 1) := by
  simp only [ilog2]
  split
  case isFalse hlt => simpa using not_le.mp hlt
  case isTrue =>
    have hn : (q.num.natAbs : Rat) < pow2 (Nat.log2 q.num.natAbs + 1) := by
      rw [pow2_eq]; exact_mod_cast Nat.lt_log2_self (n := q.num.natAbs)
    have hd : pow2 (Nat.log2 q.den) ≤ (q.den : Rat) := by
      rw [pow2_eq]; exact_mod_cast Nat.log2_self_le q.den_ne_zero
    have hq : |q| = (q.num.natAbs : Rat) / q.den := by
      conv_lhs => rw [← Rat.num_div_den q]
      rw [abs_div, Nat.cast_natAbs, Int.cast_abs, Nat.abs_cast]
    have hp : (0 : Rat) < q.den := by exact_mod_cast q.den_pos
    rw [hq, div_lt_iff₀ hp]
    calc (q.num.natAbs : Rat) < pow2 (Nat.log2 q.num.natAbs + 1) := hn
      _ = pow2 ((Nat.log2 q.num.natAbs : Int) - Nat.log2 q.den + 1) * pow2 (Nat.log2 q.den) := by
        rw [← pow2_add]; congr 1; ring
      _ ≤ _ := mul_le_mul_of_nonneg_left hd (pow2_pos _).le

/-- The unit is that of 53 bits, or the least subnormal one. -/
theorem ulpExp_cases (q : Rat) : ulpExp q = ilog2 q - 52 ∨ (ulpExp q = -1074 ∧ ilog2 q - 52 ≤ -1074) := by
  rw [ulpExp]; omega

/-- A number is less than 2^53 of its units. -/
theorem abs_lt_ulp (q : Rat) : |q| < pow2 (ulpExp q + 53) :=
  (lt_pow2_ilog2_succ q).trans_le (pow2_le_pow2.mpr (by rw [ulpExp]; omega))

/-- Below 2^1024 a unit is at most 2^971. -/
theorem ulpExp_le {q : Rat} (h : q ≠ 0) (hq : |q| < pow2 1024) : ulpExp q ≤ 971 := by
  have := pow2_lt_pow2.mp ((pow2_ilog2_le h).trans_lt hq)
  rw [ulpExp]; omega

/-- The number of units that rounding leaves. -/
def significand (q : Rat) : Int := roundRat .halfEven (q / pow2 (ulpExp q))

/-- What rounding with 53 bits and no greatest exponent gives. -/
def nearestMultiple (q : Rat) : Rat := significand q * pow2 (ulpExp q)

theorem round64_eq {q : Rat} (h : q ≠ 0) :
    round64 q = if pow2 1024 ≤ |nearestMultiple q| then .inf (decide (nearestMultiple q < 0))
      else .fin (nearestMultiple q) := by
  simp only [round64, if_neg h, nearestMultiple, significand]
  rfl

theorem round64_eq_fin {q r : Rat} (h : q ≠ 0) : round64 q = .fin r ↔ r = nearestMultiple q ∧ |r| < pow2 1024 := by
  rw [round64_eq h]
  split_ifs with hb
  · simp only [false_iff, not_and, not_lt]
    rintro rfl; exact hb
  · simp only [Real64.fin.injEq]
    constructor
    · rintro rfl; exact ⟨rfl, not_le.mp hb⟩
    · exact fun h => h.1.symm

/-- The distance to a multiple of the unit, in units. -/
theorem abs_sub_mul_ulp (q x : Rat) :
    |q - x * pow2 (ulpExp q)| = |q / pow2 (ulpExp q) - x| * pow2 (ulpExp q) := by
  have hu := pow2_pos (ulpExp q)
  conv_rhs => rw [← abs_of_pos hu, ← abs_mul, abs_of_pos hu, sub_mul, div_mul_cancel₀ _ hu.ne']

theorem nearestMultiple_nearest (q : Rat) (n : Int) :
    |q - nearestMultiple q| ≤ |q - n * pow2 (ulpExp q)| := by
  rw [nearestMultiple, abs_sub_mul_ulp, abs_sub_mul_ulp]
  exact mul_le_mul_of_nonneg_right (roundRat_nearest _ _ n) (pow2_pos _).le

theorem nearestMultiple_near (q : Rat) : |q - nearestMultiple q| ≤ pow2 (ulpExp q) / 2 := by
  rw [nearestMultiple, abs_sub_mul_ulp, abs_sub_comm]
  have := mul_le_mul_of_nonneg_right (roundRat_near .halfEven (q / pow2 (ulpExp q))) (pow2_pos (ulpExp q)).le
  rw [significand]
  linarith

theorem significand_near (q : Rat) : |q / pow2 (ulpExp q) - significand q| ≤ 1 / 2 := by
  rw [abs_sub_comm]; exact roundRat_near _ _

/-! ### The values of binary64 -/

theorem isBinary64_iff {v : Rat} :
    isBinary64 v ↔ ∃ m e : Int, |m| < 2 ^ 53 ∧ -1074 ≤ e ∧ e ≤ 971 ∧ v = m * pow2 e := by
  simp only [isBinary64, pow2_eq]

theorem abs_intCast_mul_pow2 (m e : Int) : |(m : Rat) * pow2 e| = ((|m| : Int) : Rat) * pow2 e := by
  rw [abs_mul, abs_of_pos (pow2_pos e), Int.cast_abs]

theorem isBinary64.abs_lt {v : Rat} (h : isBinary64 v) : |v| < pow2 1024 := by
  obtain ⟨m, e, hm, -, he, rfl⟩ := isBinary64_iff.mp h
  have hm' : ((|m| : Int) : Rat) < pow2 53 := by rw [pow2_ofNat]; exact_mod_cast hm
  rw [abs_intCast_mul_pow2]
  calc ((|m| : Int) : Rat) * pow2 e < pow2 53 * pow2 e := mul_lt_mul_of_pos_right hm' (pow2_pos e)
    _ = pow2 (53 + e) := (pow2_add _ _).symm
    _ ≤ pow2 1024 := pow2_le_pow2.mpr (by omega)

/-- A value of binary64 is a multiple of the unit at `q`, or lies below the binade of `q`. -/
theorem isBinary64.multiple_or_below {v : Rat} (h : isBinary64 v) (q : Rat) :
    (∃ n : Int, v = n * pow2 (ulpExp q)) ∨ (|v| < pow2 (ilog2 q) ∧ ulpExp q = ilog2 q - 52) := by
  obtain ⟨m, e, hm, he, -, rfl⟩ := isBinary64_iff.mp h
  by_cases hu : ulpExp q ≤ e
  · obtain ⟨n, hn⟩ := pow2_eq_mul hu
    exact .inl ⟨m * n, by rw [hn]; push_cast; ring⟩
  · have hq : ulpExp q = ilog2 q - 52 := by have := ulpExp_cases q; omega
    have hm' : ((|m| : Int) : Rat) < pow2 53 := by rw [pow2_ofNat]; exact_mod_cast hm
    refine .inr ⟨?_, hq⟩
    rw [abs_intCast_mul_pow2]
    calc ((|m| : Int) : Rat) * pow2 e < pow2 53 * pow2 e := mul_lt_mul_of_pos_right hm' (pow2_pos e)
      _ = pow2 (53 + e) := (pow2_add _ _).symm
      _ ≤ pow2 (ilog2 q) := pow2_le_pow2.mpr (by omega)

/-- A value of binary64 is a multiple of its own unit. -/
theorem isBinary64.multiple {v : Rat} (h : isBinary64 v) (hv : v ≠ 0) : ∃ n : Int, v = n * pow2 (ulpExp v) :=
  (h.multiple_or_below v).resolve_right fun hb => absurd (pow2_ilog2_le hv) (not_le.mpr hb.1)

theorem round64_of_isBinary64 {v : Rat} (h : isBinary64 v) : round64 v = .fin v := by
  by_cases hv : v = 0
  · rw [hv, round64_zero]
  obtain ⟨n, hn⟩ := h.multiple hv
  have hs : significand v = n := by
    rw [significand, (div_eq_iff (pow2_pos _).ne').mpr hn, roundRat_intCast]
  exact (round64_eq_fin hv).mpr ⟨by rw [nearestMultiple, hs]; exact hn, h.abs_lt⟩

/-- Rounding leaves at most 2^53 units. -/
theorem abs_significand_le (q : Rat) : |significand q| ≤ 2 ^ 53 := by
  have hq : |q / pow2 (ulpExp q)| < pow2 53 := by
    rw [abs_div, abs_of_pos (pow2_pos _), div_lt_iff₀ (pow2_pos _), ← pow2_add, add_comm]
    exact abs_lt_ulp q
  have hr := roundRat_near .halfEven (q / pow2 (ulpExp q))
  have ht := abs_sub_abs_le_abs_sub (significand q : Rat) (q / pow2 (ulpExp q))
  rw [pow2_ofNat] at hq
  have : ((|significand q| : Int) : Rat) < 2 ^ 53 + 1 := by
    push_cast
    rw [significand] at ht ⊢
    linarith
  exact Int.lt_add_one_iff.mp (by exact_mod_cast this)

/-- Where the unit is not the least subnormal one, rounding keeps 53 bits. -/
theorem le_abs_significand {q : Rat} (h : q ≠ 0) (hu : ulpExp q = ilog2 q - 52) : 2 ^ 52 ≤ |significand q| := by
  have hq : pow2 52 ≤ |q / pow2 (ulpExp q)| := by
    rw [abs_div, abs_of_pos (pow2_pos _), le_div_iff₀ (pow2_pos _), ← pow2_add]
    exact (pow2_le_pow2.mpr (by omega)).trans (pow2_ilog2_le h)
  have ht := (abs_sub_abs_le_abs_sub (q / pow2 (ulpExp q)) _).trans (significand_near q)
  have : (2 : Rat) ^ 52 - 1 < ((|significand q| : Int) : Rat) := by
    rw [pow2_ofNat] at hq
    push_cast
    linarith
  exact Int.sub_one_lt_iff.mp (by exact_mod_cast this)

theorem pow2_ilog2_le_abs_nearestMultiple {q : Rat} (h : q ≠ 0) (hu : ulpExp q = ilog2 q - 52) :
    pow2 (ilog2 q) ≤ |nearestMultiple q| := by
  have hs : (2 : Rat) ^ 52 ≤ ((|significand q| : Int) : Rat) := by exact_mod_cast le_abs_significand h hu
  rw [nearestMultiple, abs_intCast_mul_pow2, show ilog2 q = 52 + ulpExp q by omega, pow2_add, pow2_ofNat]
  exact mul_le_mul_of_nonneg_right hs (pow2_pos _).le

/-- At most 2^53 units that are not too large make a value of binary64. -/
theorem isBinary64_mul_pow2 {m e : Int} (hm : |m| ≤ 2 ^ 53) (he : -1074 ≤ e) (he' : e ≤ 971)
    (hlt : |(m : Rat) * pow2 e| < pow2 1024) : isBinary64 (m * pow2 e) := by
  rcases hm.lt_or_eq with hm | hm
  · exact isBinary64_iff.mpr ⟨m, e, hm, he, he', rfl⟩
  · rw [abs_intCast_mul_pow2, hm, Int.cast_pow, Int.cast_ofNat, ← pow2_ofNat, ← pow2_add] at hlt
    have he1 := pow2_lt_pow2.mp hlt
    obtain ⟨n, hn⟩ : ∃ n, m = n * 2 := by
      rcases abs_choice m with h | h
      · exact ⟨2 ^ 52, by omega⟩
      · exact ⟨-2 ^ 52, by omega⟩
    refine isBinary64_iff.mpr ⟨n, e + 1, ?_, by omega, by omega, ?_⟩
    · rw [hn, abs_mul] at hm
      norm_num at hm ⊢
      omega
    · rw [pow2_add, pow2_one, hn]; push_cast; ring

/-- A finite result of rounding is a value of binary64. -/
theorem isBinary64_of_round64 {q r : Rat} (h : round64 q = .fin r) : isBinary64 r := by
  by_cases hq : q = 0
  · subst hq
    rw [round64_zero, Real64.fin.injEq] at h
    exact ⟨0, 0, by norm_num, by norm_num, by norm_num, by simp [← h]⟩
  obtain ⟨rfl, hlt⟩ := (round64_eq_fin hq).mp h
  refine isBinary64_mul_pow2 (abs_significand_le q) ?_ ?_ hlt
  · rw [ulpExp]; omega
  · rcases ulpExp_cases q with hu | ⟨hu, -⟩
    · have := pow2_lt_pow2.mp ((pow2_ilog2_le_abs_nearestMultiple hq hu).trans_lt hlt)
      omega
    · omega

theorem wf64_fin_iff (v : Rat) : wf64 (.fin v) = true ↔ isBinary64 v := by
  rw [wf64, beq_iff_eq]
  exact ⟨isBinary64_of_round64, round64_of_isBinary64⟩

/-! ### Rounding to binary64 -/

/-- Every value of binary64 that is no multiple of the unit is farther away than some multiple of it. -/
theorem isBinary64.multiple_nearer {q v : Rat} (hq : q ≠ 0) (h : isBinary64 v) :
    (∃ n : Int, v = n * pow2 (ulpExp q)) ∨ |q - nearestMultiple q| < |q - v| := by
  refine (h.multiple_or_below q).imp_right fun ⟨hv, hu⟩ => ?_
  have hl := pow2_ilog2_le hq
  have hn : pow2 (ilog2 q) = (2 ^ 52 : Int) * pow2 (ulpExp q) := by
    rw [show ilog2 q = 52 + ulpExp q by omega, pow2_add, pow2_ofNat 52]; norm_num
  obtain ⟨n, hd⟩ : ∃ n : Int, |q - n * pow2 (ulpExp q)| = |q| - pow2 (ilog2 q) := by
    rcases abs_cases q with ⟨ha, -⟩ | ⟨ha, -⟩ <;> rw [ha] at hl ⊢
    · exact ⟨2 ^ 52, by rw [← hn, abs_of_nonneg (by linarith)]⟩
    · exact ⟨-2 ^ 52, by rw [Int.cast_neg, neg_mul, ← hn, abs_of_nonpos (by linarith)]; ring⟩
  calc |q - nearestMultiple q| ≤ |q| - pow2 (ilog2 q) := hd ▸ nearestMultiple_nearest q n
    _ < |q| - |v| := by linarith
    _ ≤ |q - v| := abs_sub_abs_le_abs_sub q v

theorem nearestMultiple_le {q v : Rat} (hq : q ≠ 0) (h : isBinary64 v) : |q - nearestMultiple q| ≤ |q - v| := by
  rcases h.multiple_nearer hq with ⟨n, rfl⟩ | hlt
  · exact nearestMultiple_nearest q n
  · exact hlt.le

/-- At a tie between two values of binary64 the significand of the one taken is even, and they are one unit apart. -/
theorem nearestMultiple_tie {q v : Rat} (hq : q ≠ 0) (h : isBinary64 v) (hne : v ≠ nearestMultiple q)
    (ht : |q - nearestMultiple q| = |q - v|) :
    ∃ m : Int, nearestMultiple q = 2 * (m : Rat) * |v - nearestMultiple q| := by
  obtain ⟨n, rfl⟩ := (h.multiple_nearer hq).resolve_right (by rw [ht]; exact lt_irrefl _)
  have hu := pow2_pos (ulpExp q)
  have hs := significand_near q
  rw [nearestMultiple, abs_sub_mul_ulp, abs_sub_mul_ulp] at ht
  have ht' : |q / pow2 (ulpExp q) - significand q| = |q / pow2 (ulpExp q) - n| := mul_right_cancel₀ hu.ne' ht
  have hd : (1 : Rat) ≤ |(n : Rat) - significand q| := by
    have : n ≠ significand q := fun e => hne (by rw [e, nearestMultiple])
    exact_mod_cast Int.one_le_abs (sub_ne_zero.mpr this)
  have htri := abs_sub_le (n : Rat) (q / pow2 (ulpExp q)) (significand q)
  rw [abs_sub_comm (n : Rat) (q / _), ← ht'] at htri
  obtain ⟨m, hm⟩ := even_roundRat_of_tie (q := q / pow2 (ulpExp q)) (le_antisymm hs (by rw [significand] at *; linarith))
  have hone : |(n : Rat) - significand q| = 1 := le_antisymm (by linarith) hd
  refine ⟨m, ?_⟩
  rw [nearestMultiple, ← sub_mul, abs_mul, hone, abs_of_pos hu, significand, hm]
  push_cast
  ring

/-- Below half a unit past the greatest value of binary64 the result is finite. -/
theorem round64_finite {q : Rat} (h : |q| < pow2 1024 - pow2 970) : ∃ r, round64 q = .fin r := by
  by_cases hq : q = 0
  · exact ⟨0, by rw [hq, round64_zero]⟩
  have hp := pow2_pos 970
  have hu : pow2 (ulpExp q) ≤ pow2 970 * 2 := by
    rw [← pow2_one, ← pow2_add]
    exact pow2_le_pow2.mpr (ulpExp_le hq (by linarith))
  have hn := nearestMultiple_near q
  have ht := abs_sub_abs_le_abs_sub (nearestMultiple q) q
  rw [abs_sub_comm] at ht
  exact ⟨_, (round64_eq_fin hq).mpr ⟨rfl, by linarith⟩⟩

/-- From there on the unit is 2^971 or more. -/
theorem ilog2_of_overflow {q : Rat} (h : pow2 1024 - pow2 970 ≤ |q|) :
    q ≠ 0 ∧ 1023 ≤ ilog2 q ∧ ulpExp q = ilog2 q - 52 := by
  have h1023 : pow2 1023 < |q| := by
    have hd : pow2 1024 = 2 * pow2 1023 := by
      rw [show (1024 : Int) = 1 + 1023 by norm_num, pow2_add, pow2_one]
    linarith [pow2_lt_pow2.mpr (show (970 : Int) < 1023 by norm_num)]
  have hl := pow2_lt_pow2.mp (h1023.trans (lt_pow2_ilog2_succ q))
  refine ⟨abs_pos.mp ((pow2_pos _).trans h1023), by omega, ?_⟩
  have := ulpExp_cases q
  omega

/-- Rounding takes such a number to 2^1024 or more: 2^53 - 1 units would be an odd significand at a tie. -/
theorem pow2_1024_le_nearestMultiple {q : Rat} (h : pow2 1024 - pow2 970 ≤ |q|) : pow2 1024 ≤ |nearestMultiple q| := by
  obtain ⟨hq, hlog, hu⟩ := ilog2_of_overflow h
  by_contra hlt
  have hlog' := pow2_lt_pow2.mp ((pow2_ilog2_le_abs_nearestMultiple hq hu).trans_lt (not_le.mp hlt))
  have hu' : ulpExp q = 971 := by omega
  have hp := pow2_pos 971
  have h53 : pow2 1024 = pow2 53 * pow2 971 := by rw [← pow2_add]; rfl
  have h970 : pow2 971 = 2 * pow2 970 := by
    rw [show (971 : Int) = 1 + 970 by norm_num, pow2_add, pow2_one]
  have hx : pow2 53 - 1 / 2 ≤ |q / pow2 (ulpExp q)| := by
    rw [hu', abs_div, abs_of_pos hp, le_div_iff₀ hp]; linarith
  have hs : |significand q| < 2 ^ 53 := by
    rw [not_le, nearestMultiple, abs_intCast_mul_pow2, hu', h53, pow2_ofNat 53] at hlt
    exact_mod_cast lt_of_mul_lt_mul_right hlt hp.le
  have hs' : |(significand q : Rat)| ≤ 2 ^ 53 - 1 := by exact_mod_cast Int.le_sub_one_of_lt hs
  have hn := significand_near q
  have ht := abs_sub_abs_le_abs_sub (q / pow2 (ulpExp q)) (significand q)
  rw [pow2_ofNat] at hx
  have htie : |q / pow2 (ulpExp q) - significand q| = 1 / 2 := le_antisymm hn (by linarith)
  have hodd : |significand q| = 2 ^ 53 - 1 := by
    have : |(significand q : Rat)| = 2 ^ 53 - 1 := le_antisymm hs' (by linarith)
    exact_mod_cast this
  have heven := even_abs.mpr (even_roundRat_of_tie htie)
  rw [← significand, hodd] at heven
  revert heven
  decide

/-- Rounding a number that is not below its unit keeps its sign. -/
theorem nearestMultiple_neg_iff {q : Rat} (h : q ≠ 0) (hu : ulpExp q = ilog2 q - 52) : nearestMultiple q < 0 ↔ q < 0 := by
  have hn := nearestMultiple_near q
  have hl : pow2 (ulpExp q) ≤ |q| := (pow2_le_pow2.mpr (by omega)).trans (pow2_ilog2_le h)
  have hp := pow2_pos (ulpExp q)
  rw [abs_le] at hn
  constructor
  · intro hr
    by_contra hs
    rw [abs_of_nonneg (not_lt.mp hs)] at hl
    linarith
  · intro hs
    rw [abs_of_neg hs] at hl
    linarith

/-- From half a unit past the greatest value of binary64 on the result is an infinity. -/
theorem round64_overflow {q : Rat} (h : pow2 1024 - pow2 970 ≤ |q|) : round64 q = .inf (decide (q < 0)) := by
  obtain ⟨hq, -, hu⟩ := ilog2_of_overflow h
  rw [round64_eq hq, if_pos (pow2_1024_le_nearestMultiple h)]
  simp only [nearestMultiple_neg_iff hq hu]

/-! ### The arithmetic of the machine -/

theorem sub64_fin (a b : Rat) : sub64 (.fin a) (.fin b) = round64 (a - b) := by
  simp only [sub64, neg64, add64, sub_eq_add_neg]

theorem div64_fin (a : Rat) {b : Rat} (h : b ≠ 0) : div64 (.fin a) (.fin b) = round64 (a / b) := by
  simp only [div64, if_neg h]

/-- Settles O30: `rnd` and `trunc` on the reals, the rounding to binary64 by multiples of the unit in the last place, and the
arithmetic, each operation of which is one rounding by its definition. -/
theorem roundingRule : Obligations.RoundingRule := by
  refine ⟨⟨rfl, exactNum_rnd_near, fun k => ⟨exactNum_rnd_half _ k, exactNum_rnd_half _ k, exactNum_rnd_half _ k⟩,
    exactNum_trunc_toward_zero, roundRat_eq_exactNum, truncRat_eq_exactNum⟩,
    ⟨wf64_fin_iff, fun q r h => ⟨isBinary64_of_round64 h, fun v hv => ?_⟩,
      fun q h => round64_finite (by rwa [pow2_ofNat, pow2_ofNat]),
      fun q h => round64_overflow (by rwa [pow2_ofNat, pow2_ofNat])⟩,
    fun n => rfl, fun a b => ⟨rfl, sub64_fin a b, rfl, div64_fin a, rfl⟩, fun a b c => rfl⟩
  by_cases hq : q = 0
  · subst hq
    obtain rfl : 0 = r := Real64.fin.inj (round64_zero.symm.trans h)
    simp [eq_comm]
  · obtain ⟨rfl, -⟩ := (round64_eq_fin hq).mp h
    exact ⟨nearestMultiple_le hq hv, nearestMultiple_tie hq hv⟩

end Sys2Proof.Machine
end

section
/-! PROOF. R14: an evaluation "in some order" has the printed formula's value over the reals, whatever its constants are. -/

namespace Sys2Proof.Machine

section
variable (const : Const → ℝ) (operand : Nat → ℝ)

/-- The value of a factor over the reals. -/
noncomputable def Factor.real : Factor → ℝ
  | .operand i => operand i
  | .const c => const c
  | .recip c => (const c)⁻¹
  | .offset i c => operand i - const c

/-- The value of a signed product. -/
noncomputable def Product.real (p : Product) : ℝ :=
  (if p.negative then -1 else 1) * (p.factors.map (Factor.real const operand)).prod

/-- The value of what a list of products adds up to. -/
noncomputable def productsReal (ps : List Product) : ℝ := (ps.map (Product.real const operand)).sum

@[simp] theorem productsReal_nil : productsReal const operand [] = 0 := rfl

@[simp] theorem productsReal_cons (p : Product) (ps : List Product) :
    productsReal const operand (p :: ps) = p.real const operand + productsReal const operand ps := rfl

@[simp] theorem productsReal_append (ps qs : List Product) :
    productsReal const operand (ps ++ qs) = productsReal const operand ps + productsReal const operand qs := by
  simp [productsReal]

@[simp] theorem Product.real_flip (p : Product) : p.flip.real const operand = -p.real const operand := by
  cases h : p.negative <;> simp [Product.real, Product.flip, h]

@[simp] theorem productsReal_flip (ps : List Product) :
    productsReal const operand (ps.map Product.flip) = -productsReal const operand ps := by
  induction ps with
  | nil => simp
  | cons p ps ih => simp [ih, add_comm]

@[simp] theorem Product.real_times (p q : Product) :
    (p.times q).real const operand = p.real const operand * q.real const operand := by
  cases hp : p.negative <;> cases hq : q.negative <;> simp [Product.real, Product.times, hp, hq]

@[simp] theorem productsReal_timesAll (ps qs : List Product) :
    productsReal const operand (timesAll ps qs) = productsReal const operand ps * productsReal const operand qs := by
  have one (p : Product) :
      productsReal const operand (qs.map p.times) = p.real const operand * productsReal const operand qs := by
    induction qs with
    | nil => simp
    | cons q qs ih => simp [ih, mul_add]
  induction ps with
  | nil => simp [timesAll]
  | cons p ps ih =>
    have hc : timesAll (p :: ps) qs = qs.map p.times ++ timesAll ps qs := rfl
    rw [hc, productsReal_append, one, ih, productsReal_cons, add_mul]

theorem Product.real_of_same {p q : Product} (h : p.same q = true) : p.real const operand = q.real const operand := by
  simp only [Product.same, Bool.and_eq_true, beq_iff_eq, List.isPerm_iff] at h
  rw [Product.real, Product.real, h.1, (h.2.map (Factor.real const operand)).prod_eq]

theorem productsReal_of_takeProduct {p : Product} {qs rest : List Product} (h : takeProduct p qs = some rest) :
    productsReal const operand qs = p.real const operand + productsReal const operand rest := by
  induction qs generalizing rest with
  | nil => cases h
  | cons q qs ih =>
    simp only [takeProduct] at h
    split at h
    case isTrue hs =>
      rw [← Option.some.inj h, productsReal_cons, Product.real_of_same const operand hs]
    case isFalse =>
      obtain ⟨rest', hr, rfl⟩ := Option.map_eq_some_iff.mp h
      rw [productsReal_cons, productsReal_cons, ih hr]
      ring

/-- The same products add up to the same value. -/
theorem productsReal_of_sameProducts {ps qs : List Product} (h : sameProducts ps qs = true) :
    productsReal const operand ps = productsReal const operand qs := by
  induction ps generalizing qs with
  | nil => rw [List.isEmpty_iff.mp h]
  | cons p ps ih =>
    simp only [sameProducts] at h
    split at h
    case h_1 rest hr => rw [productsReal_cons, ih h, productsReal_of_takeProduct const operand hr]
    case h_2 => cases h

/-- An expression multiplied out has the expression's value. -/
theorem productsReal_expandExpr (e : Expr) :
    productsReal const operand (expandExpr e) = evalExpr exactNum const operand e := by
  fun_induction expandExpr e with
  | case1 i => simp [evalExpr, Product.real, Factor.real]
  | case2 c => simp [evalExpr, Product.real, Factor.real]
  | case3 a ih => simp [evalExpr, ih]
  | case4 a b iha ihb => simp [evalExpr, iha, ihb]
  | case5 i c => simp [evalExpr, Product.real, Factor.real]
  | case6 a b _ iha ihb => simp [evalExpr, iha, ihb, sub_eq_add_neg]
  | case7 a b iha ihb => simp [evalExpr, iha, ihb]
  | case8 a c ih => simp [evalExpr, Product.real, Factor.real, ih, div_eq_mul_inv]
  | case9 a b c iha ihb ihc => simp [evalExpr, iha, ihb, ihc]

end

theorem isRearrangement_real {site : Site} {e : Expr} (h : isRearrangement site e = true) (const : Const → ℝ)
    (operand : Nat → ℝ) : evalExpr exactNum const operand e = evalExpr exactNum const operand (refExpr site) := by
  rw [← productsReal_expandExpr, ← productsReal_expandExpr, productsReal_of_sameProducts const operand h]

/-- What R124 asks of another expression of a transform, or the printed one. -/
theorem isTransform_real {range : Rat} {site : Site} {e : Expr} (h : isTransform range site e = true) (operand : Nat → ℝ) :
    evalExpr exactNum (refConst exactNum) operand e = evalExpr exactNum (refConst exactNum) operand (refExpr site) := by
  simp only [isTransform, Bool.or_eq_true, Bool.and_eq_true, beq_iff_eq] at h
  rcases h with rfl | ⟨⟨hs, -⟩, -⟩
  · rfl
  · exact sameSums_real hs operand

theorem isEvaluation_real {site : Site} {e : Expr} (h : isEvaluation site e = true) (operand : Nat → ℝ) :
    evalExpr exactNum (refConst exactNum) operand e = evalExpr exactNum (refConst exactNum) operand (refExpr site) := by
  cases site with
  | pixel ch => exact isRearrangement_real h _ operand
  | dctF u v => exact isTransform_real h operand
  | dctI x y => exact isTransform_real h operand

theorem isEvaluation_machineExpr (site : Site) : isEvaluation site (machineExpr site) = true := by
  unfold machineExpr
  split
  case isTrue h => exact h
  case isFalse => exact isEvaluation_refExpr site

end Sys2Proof.Machine
end

section
/-! PROOF. R121, R122: the printed digits lie within 2^-53 of the cosines they print. -/

namespace Sys2Proof.Machine

theorem cosAngle_nonneg {j : Nat} (h : j ≤ 8) : 0 ≤ cosAngle j := by
  have hj : (j : ℝ) ≤ 8 := by exact_mod_cast h
  have hp := Real.pi_pos
  refine Real.cos_nonneg_of_mem_Icc ⟨?_, ?_⟩
  · have : 0 ≤ (j : ℝ) * Real.pi / 16 := by positivity
    linarith
  · nlinarith

/-- The half-angle formula. -/
theorem cosAngle_sq (j : Nat) : cosAngle j ^ 2 = (1 + cosAngle (2 * j)) / 2 := by
  rw [cosAngle, cosAngle, Nat.cast_mul, Nat.cast_ofNat, show (2 : ℝ) * j * Real.pi / 16 = 2 * (j * Real.pi / 16) by ring,
    Real.cos_two_mul]
  ring

/-- From bounds of the cosine of the double angle, bounds of a cosine. -/
theorem cosAngle_near_of_double {j : Nat} (hj : j ≤ 8) {d ε D δ : ℝ} (hD : |cosAngle (2 * j) - D| ≤ δ) (hd : ε ≤ d) (hε : 0 ≤ ε)
    (hlow : (d - ε) ^ 2 ≤ (1 + (D - δ)) / 2) (hhigh : (1 + (D + δ)) / 2 ≤ (d + ε) ^ 2) : |cosAngle j - d| ≤ ε := by
  have hsq := cosAngle_sq j
  have hc := cosAngle_nonneg hj
  rw [abs_le] at hD ⊢
  have h1 : d - ε ≤ cosAngle j := abs_le_of_sq_le_sq' (by linarith) hc |>.2
  have h2 : cosAngle j ≤ d + ε := abs_le_of_sq_le_sq' (by linarith) (by linarith) |>.2
  constructor <;> linarith

theorem cosAngle_four_near : |cosAngle 4 - 0.7071067811865475244| ≤ 1 / 10 ^ 19 :=
  cosAngle_near_of_double (D := 0) (δ := 0) (by norm_num) (by simp [cosAngle_eight]) (by norm_num) (by norm_num) (by norm_num)
    (by norm_num)

theorem cosAngle_two_near : |cosAngle 2 - 0.9238795325112867561| ≤ 1 / 10 ^ 18 :=
  cosAngle_near_of_double (by norm_num) cosAngle_four_near (by norm_num) (by norm_num) (by norm_num) (by norm_num)

/-- The same for the cosine of an angle past the right angle. -/
theorem cosAngle_reflect_near {m j : Nat} (h : m + j = 16) {d ε : ℝ} (hj : |cosAngle j - d| ≤ ε) : |cosAngle m - -d| ≤ ε := by
  rwa [cosAngle_reflect h, ← neg_sub', abs_neg]

theorem cosAngle_six_near : |cosAngle 6 - 0.3826834323650897717| ≤ 1 / 10 ^ 18 :=
  cosAngle_near_of_double (by norm_num) (cosAngle_reflect_near (by norm_num) cosAngle_four_near) (by norm_num) (by norm_num)
    (by norm_num) (by norm_num)

/-- R122's digits, and 0 for `c_8`. -/
def cosDigits (j : Nat) : Rat := basisDigits[j]?.getD 0

theorem cosAngle_near {j : Nat} (h : j ≤ 8) : |cosAngle j - (cosDigits j : ℝ)| ≤ 1 / 2 ^ 53 := by
  have printed {d : Rat} (hd : cosDigits j = d) {d' ε : ℝ} (hn : |cosAngle j - d'| ≤ ε) (hε : ε + |d' - d| ≤ 1 / 2 ^ 53) :
      |cosAngle j - (cosDigits j : ℝ)| ≤ 1 / 2 ^ 53 := by
    rw [hd]; linarith [abs_sub_le (cosAngle j) d' d]
  interval_cases j
  · exact printed (d := 1) (d' := 1) (ε := 0) (by decide +kernel) (by simp [cosAngle_zero]) (by norm_num)
  · refine printed (d := 0.98078528040323043) (d' := 0.98078528040323045) (ε := 2 / 10 ^ 17) (by decide +kernel) ?_
      (by norm_num)
    exact cosAngle_near_of_double (by norm_num) cosAngle_two_near (by norm_num) (by norm_num) (by norm_num) (by norm_num)
  · exact printed (d := 0.92387953251128674) (by decide +kernel) cosAngle_two_near (by norm_num)
  · refine printed (d := 0.83146961230254524) (d' := 0.83146961230254524) (ε := 2 / 10 ^ 17) (by decide +kernel) ?_
      (by norm_num)
    exact cosAngle_near_of_double (by norm_num) cosAngle_six_near (by norm_num) (by norm_num) (by norm_num) (by norm_num)
  · exact printed (d := 0.70710678118654752) (by decide +kernel) cosAngle_four_near (by norm_num)
  · refine printed (d := 0.55557023301960229) (d' := 0.55557023301960222) (ε := 2 / 10 ^ 17) (by decide +kernel) ?_
      (by norm_num)
    exact cosAngle_near_of_double (by norm_num) (cosAngle_reflect_near (by norm_num) cosAngle_six_near) (by norm_num)
      (by norm_num) (by norm_num) (by norm_num)
  · exact printed (d := 0.38268343236508984) (by decide +kernel) cosAngle_six_near (by norm_num)
  · refine printed (d := 0.19509032201612833) (d' := 0.19509032201612827) (ε := 2 / 10 ^ 17) (by decide +kernel) ?_
      (by norm_num)
    exact cosAngle_near_of_double (by norm_num) (cosAngle_reflect_near (by norm_num) cosAngle_two_near) (by norm_num)
      (by norm_num) (by norm_num) (by norm_num)
  · exact printed (d := 0) (d' := 0) (ε := 0) (by decide +kernel) (by simp [cosAngle_eight]) (by norm_num)

theorem basisValue_eq (u x : Nat) :
    basisValue u x = (if (basisIndex ((2 * x + 1) * u)).1 then -1 else 1) * cosDigits (basisIndex ((2 * x + 1) * u)).2 := by
  cases h : (basisIndex ((2 * x + 1) * u)).1 <;> simp [basisValue, cosDigits, h]

theorem cosReal_eq_cosAngle (u x : Nat) : cosReal u x = cosAngle ((2 * x + 1) * u) := by
  rw [cosReal, cosAngle]; push_cast; rfl

/-- R122: a printed basis cosine lies within 2^-53 of the real one. -/
theorem cosReal_near (u x : Nat) : |cosReal u x - (basisValue u x : ℝ)| ≤ 1 / 2 ^ 53 := by
  have hn := cosAngle_near (basisIndex_le ((2 * x + 1) * u))
  rw [cosReal_eq_cosAngle, basisIndex_angle, basisValue_eq]
  cases (basisIndex ((2 * x + 1) * u)).1 with
  | false => simpa using hn
  | true => simpa [← sub_eq_neg_add, abs_sub_comm] using hn

theorem normReal_zero : normReal 0 = cosAngle 4 := by
  have h : refConst exactNum (.norm 0) = normReal 0 := by simp [refConst, normReal]
  rw [← h, exactConst_real]
  simp [exactConst]

/-- R121: the printed `1/sqrt(2)` lies within 2^-53 of the real one. -/
theorem normReal_zero_near : |normReal 0 - (normValue : ℝ)| ≤ 1 / 2 ^ 53 := by
  rw [normReal_zero]
  exact cosAngle_near (j := 4) (by norm_num)

end Sys2Proof.Machine
end

section
/-! PROOF. R14, R121, R122, R128: how near the constants of the machine and of the reference lie to the real ones. -/

namespace Sys2Proof.Machine

/-! ### Integers and quotients -/

theorem isBinary64_intCast {n : Int} (h : |n| ≤ 2 ^ 53) : isBinary64 (n : Rat) := by
  have h0 : pow2 0 = 1 := by rw [pow2_eq, zpow_zero]
  have hn : ((|n| : Int) : Rat) ≤ pow2 53 := by rw [pow2_ofNat]; exact_mod_cast h
  have hb := isBinary64_mul_pow2 (e := 0) h (by norm_num) (by norm_num) <| by
    rw [abs_intCast_mul_pow2, h0, mul_one]
    exact hn.trans_lt (pow2_lt_pow2.mpr (by norm_num))
  rwa [h0, mul_one] at hb

theorem ofInt64_eq {n : Int} (h : |n| ≤ 2 ^ 53) : ofInt64 n = .fin n := round64_of_isBinary64 (isBinary64_intCast h)

/-- R14: a literal of the rules is the quotient rounded once. -/
theorem refConst_lit {num : Int} {den : Nat} (hnum : |num| ≤ 2 ^ 53) (h0 : den ≠ 0) (hden : den ≤ 2 ^ 53) :
    refConst b64 (.lit num den) = round64 ((num : Rat) / (den : Rat)) := by
  have hd : |(den : Int)| ≤ 2 ^ 53 := by rw [Nat.abs_cast]; exact_mod_cast hden
  change div64 (ofInt64 num) (ofInt64 (den : Int)) = _
  rw [ofInt64_eq hnum, ofInt64_eq hd, Int.cast_natCast, div64_fin _ (by exact_mod_cast h0)]

/-- A number not below 2^-1022 moves by at most its part of 2^-53 when it is rounded. -/
theorem round64_near_normal {q : Rat} (hlow : pow2 (-1022) ≤ |q|) (h : |q| ≤ pow2 1023) :
    ∃ r, round64 q = .fin r ∧ |r - q| ≤ |q| * pow2 (-53) := by
  have hq : q ≠ 0 := abs_pos.mp ((pow2_pos _).trans_le hlow)
  obtain ⟨r, hr, -⟩ := round64_near h
  refine ⟨r, hr, ?_⟩
  obtain ⟨rfl, -⟩ := (round64_eq_fin hq).mp hr
  have hl := pow2_lt_pow2.mp (hlow.trans_lt (lt_pow2_ilog2_succ q))
  have hu : ulpExp q = ilog2 q + -53 + 1 := by have := ulpExp_cases q; omega
  rw [abs_sub_comm]
  calc |q - nearestMultiple q| ≤ pow2 (ulpExp q) / 2 := nearestMultiple_near q
    _ = pow2 (ilog2 q) * pow2 (-53) := by rw [hu, pow2_add, pow2_add, pow2_one, mul_div_assoc, div_self two_ne_zero, mul_one]
    _ ≤ |q| * pow2 (-53) := mul_le_mul_of_nonneg_right (pow2_ilog2_le hq) (pow2_pos _).le

theorem round64_quotient_near {num : Int} {den : Nat} (hnum : |num| ≤ 2 ^ 53) (h0 : 0 < den) (hden : den ≤ 2 ^ 53) :
    ∃ r, round64 ((num : Rat) / (den : Rat)) = .fin r
      ∧ |r - (num : Rat) / (den : Rat)| ≤ |(num : Rat) / (den : Rat)| * pow2 (-53) := by
  have hd1 : (1 : Rat) ≤ den := by exact_mod_cast h0
  have hd53 : (den : Rat) ≤ pow2 53 := by rw [pow2_ofNat]; exact_mod_cast hden
  have hn53 : |(num : Rat)| ≤ pow2 53 := by rw [pow2_ofNat]; exact_mod_cast hnum
  have hv : |(num : Rat) / (den : Rat)| = |(num : Rat)| / den := by rw [abs_div, Nat.abs_cast]
  by_cases hz : num = 0
  · exact ⟨0, by simp [hz, round64_zero], by simp [hz]⟩
  have hn1 : (1 : Rat) ≤ |(num : Rat)| := by exact_mod_cast Int.one_le_abs hz
  refine round64_near_normal ?_ ?_ <;> rw [hv]
  · rw [le_div_iff₀ (by linarith)]
    calc pow2 (-1022) * den ≤ pow2 (-1022) * pow2 53 := mul_le_mul_of_nonneg_left hd53 (pow2_pos _).le
      _ = pow2 (-969) := (pow2_add _ _).symm
      _ ≤ pow2 0 := pow2_le_pow2.mpr (by norm_num)
      _ = 1 := by rw [pow2_eq, zpow_zero]
      _ ≤ _ := hn1
  · exact (div_le_self (abs_nonneg _) hd1).trans (hn53.trans (pow2_le_pow2.mpr (by norm_num)))

/-! ### Values of binary64 near a number -/

/-- Is a value a finite one of binary64, at most `tolerance` from `center`? -/
def isNear64 (center tolerance : Rat) : Real64 → Bool
  | .fin q => wf64 (.fin q) && decide (|q - center| ≤ tolerance)
  | .inf _ => false
  | .nan => false

theorem isNear64_iff {center tolerance : Rat} {v : Real64} :
    isNear64 center tolerance v = true ↔ ∃ q, v = .fin q ∧ isBinary64 q ∧ |q - center| ≤ tolerance := by
  cases v with
  | fin q => simp [isNear64, wf64_fin_iff]
  | inf s => simp [isNear64]
  | nan => simp [isNear64]

/-- A free constant of the machine is near, if the value in its place is. -/
theorem isNear64_nearOr {center tolerance free : Rat} {other : Real64} (h : isNear64 center tolerance other = true) :
    isNear64 center tolerance (nearOr center tolerance free other) = true := by
  unfold nearOr
  split
  case isTrue hf => exact isNear64_iff.mpr ⟨free, rfl, isBinary64_of_round64 hf.1, hf.2⟩
  case isFalse => exact h

/-- R128's cosines. -/
theorem isNear64_refConst_cosBasis : ∀ u < 8, ∀ x < 8,
    isNear64 (basisValue u x) (basisTolerance u x) (refConst b64 (.cosBasis u x)) = true := by decide +kernel

/-- R128's `1/sqrt(2)`. -/
theorem isNear64_refConst_norm : isNear64 normValue (4 * pow2 (-53)) (refConst b64 (.norm 0)) = true := by decide +kernel

/-- R128's scale factors. -/
theorem refConst_scale : refConst b64 .quarter = .fin (1 / 4) ∧ refConst b64 .eighth = .fin (1 / 8) := by decide +kernel

theorem refConst_norm {k : Nat} (h : k ≠ 0) : refConst b64 (.norm k) = .fin 1 := by
  simp only [refConst, h, if_false]
  exact ofInt64_eq (n := 1) (by norm_num)

/-- The constants of the machine, and those of the reference. -/
def machineOrRef (const : Const → Real64) : Prop := const = machineConst ∨ const = refConst b64

theorem const_lit {const : Const → Real64} (h : machineOrRef const) {num : Int} {den : Nat} (hnum : |num| ≤ 2 ^ 53)
    (h0 : den ≠ 0) (hden : den ≤ 2 ^ 53) : const (.lit num den) = round64 ((num : Rat) / (den : Rat)) := by
  rcases h with rfl | rfl <;> exact refConst_lit hnum h0 hden

theorem const_quarter {const : Const → Real64} (h : machineOrRef const) : const .quarter = .fin (1 / 4) := by
  rcases h with rfl | rfl <;> exact refConst_scale.1

theorem const_eighth {const : Const → Real64} (h : machineOrRef const) : const .eighth = .fin (1 / 8) := by
  rcases h with rfl | rfl <;> exact refConst_scale.2

theorem const_norm {const : Const → Real64} (h : machineOrRef const) {k : Nat} (hk : k ≠ 0) : const (.norm k) = .fin 1 := by
  rcases h with rfl | rfl
  · simp only [machineConst, if_neg hk, refConst_norm hk]
  · exact refConst_norm hk

theorem const_norm_zero {const : Const → Real64} (h : machineOrRef const) :
    isNear64 normValue (4 * pow2 (-53)) (const (.norm 0)) = true := by
  rcases h with rfl | rfl
  · exact isNear64_nearOr isNear64_refConst_norm
  · exact isNear64_refConst_norm

theorem const_cosBasis {const : Const → Real64} (h : machineOrRef const) {u x : Nat} (hu : u < 8) (hx : x < 8) :
    isNear64 (basisValue u x) (basisTolerance u x) (const (.cosBasis u x)) = true := by
  have hr := isNear64_refConst_cosBasis u hu x hx
  rcases h with rfl | rfl
  · simp only [machineConst]
    split
    · exact hr
    · exact isNear64_nearOr hr
  · exact hr

/-! ### Sums of cosines -/

theorem abs_cosDigits_le (j : Nat) (h : j < 8) : |cosDigits j| ≤ 1 := by
  have : ∀ j < 8, |cosDigits j| ≤ 1 := by decide +kernel
  exact this j h

theorem cosSumValue_eq (p : CosSum) : cosSumValue p = ∑ j ∈ Finset.range 8, coeff p j * cosDigits j := rfl

theorem cosSumSize_eq (p : CosSum) : cosSumSize p = ∑ j ∈ Finset.range 8, |coeff p j| := rfl

/-- The value with R122's digits is at most the sum of the magnitudes. -/
theorem abs_cosSumValue_le (p : CosSum) : |cosSumValue p| ≤ cosSumSize p := by
  rw [cosSumValue_eq, cosSumSize_eq]
  refine (Finset.abs_sum_le_sum_abs _ _).trans (Finset.sum_le_sum fun j hj => ?_)
  rw [abs_mul]
  exact mul_le_of_le_one_right (abs_nonneg _) (abs_cosDigits_le j (Finset.mem_range.mp hj))

/-- A sum of cosines over the reals and with R122's digits. -/
theorem cosSumReal_near (p : CosSum) : |cosSumReal p - (cosSumValue p : ℝ)| ≤ (cosSumSize p : ℝ) * (1 / 2 ^ 53) := by
  rw [cosSumValue_eq, cosSumSize_eq, cosSumReal]
  push_cast
  rw [← Finset.sum_sub_distrib, Finset.sum_mul]
  refine (Finset.abs_sum_le_sum_abs _ _).trans (Finset.sum_le_sum fun j hj => ?_)
  rw [← mul_sub, abs_mul]
  exact mul_le_mul_of_nonneg_left (cosAngle_near (Finset.mem_range.mp hj).le) (abs_nonneg _)

/-- The machine's value of another constant of a transform. -/
theorem machineConst_cosSum {q : CosSum} (hlow : pow2 (-500) ≤ cosSumSize q) (hhigh : cosSumSize q ≤ pow2 500) :
    isNear64 (cosSumValue q) (cosSumTolerance q) (machineConst (.cosSum q)) = true := by
  have hv := abs_cosSumValue_le q
  obtain ⟨r, hr, hn⟩ := round64_near (hv.trans (hhigh.trans (pow2_le_pow2.mpr (by norm_num : (500 : Int) ≤ 1023))))
  refine isNear64_nearOr (isNear64_iff.mpr ⟨r, hr, isBinary64_of_round64 hr, hn.trans ?_⟩)
  have h53 := pow2_pos (-53)
  have h1 : |cosSumValue q| * pow2 (-53) ≤ cosSumSize q * pow2 (-53) := mul_le_mul_of_nonneg_right hv h53.le
  have h2 : pow2 (-1074) ≤ cosSumSize q * pow2 (-53) :=
    calc pow2 (-1074) ≤ pow2 (-500 + -53) := pow2_le_pow2.mpr (by norm_num)
      _ = pow2 (-500) * pow2 (-53) := pow2_add _ _
      _ ≤ cosSumSize q * pow2 (-53) := mul_le_mul_of_nonneg_right hlow h53.le
  rw [cosSumTolerance]
  linarith [pow2_pos (-1074)]

/-! ### What the error analysis knows of a constant -/

theorem cast_pow2_neg_53 : ((pow2 (-53) : Rat) : ℝ) = 1 / 2 ^ 53 := by rw [pow2_eq]; norm_num

theorem refConst_exactNum_cosBasis (u x : Nat) : refConst exactNum (.cosBasis u x) = cosReal u x := by
  rw [exactConst_real, cosReal_eq_cosAngle]; simp [exactConst]

theorem refConst_exactNum_norm (k : Nat) : refConst exactNum (.norm k) = normReal k := by
  by_cases h : k = 0 <;> simp [refConst, normReal, h]

theorem refConst_exactNum_quarter : refConst exactNum .quarter = 1 / 4 := by
  rw [exactConst_real]; simp [exactConst]

theorem refConst_exactNum_eighth : refConst exactNum .eighth = 1 / 8 := by
  rw [exactConst_real]; simp [exactConst]

/-- One unit of 2^-53 stays within a bound of one unit or more. -/
theorem basisTolerance_ge (u x : Nat) : 1 / 2 ^ 53 ≤ ((basisTolerance u x : Rat) : ℝ) := by
  rw [basisTolerance, Rat.cast_mul, cast_pow2_neg_53, Rat.cast_natCast]
  refine le_mul_of_one_le_left (by positivity) ?_
  exact_mod_cast Nat.le_add_left 1 _

/-- The real value of a constant lies as near as the error analysis takes it to be. -/
theorem refConst_exactNum_near {c : Const} {k : Known} (h : constKnown c = some k) :
    |refConst exactNum c - (k.value : ℝ)| ≤ (k.slack : ℝ) := by
  cases c with
  | lit num den =>
    simp only [constKnown, Option.ite_none_right_eq_some, Option.some.injEq] at h
    obtain ⟨-, rfl⟩ := h
    have hv : refConst exactNum (.lit num den) = (((num : Rat) / (den : Rat) : Rat) : ℝ) := by simp [refConst]
    rw [hv, sub_self, abs_zero]
    exact_mod_cast mul_nonneg (abs_nonneg _) (pow2_pos _).le
  | norm n =>
    rw [refConst_exactNum_norm]
    simp only [constKnown] at h
    split at h <;> obtain rfl := Option.some.inj h
    case isTrue hn =>
      rw [hn]
      refine normReal_zero_near.trans ?_
      rw [Rat.cast_mul, cast_pow2_neg_53]; norm_num
    case isFalse hn => simp [normReal, hn]
  | cosBasis u x =>
    simp only [constKnown, Option.ite_none_right_eq_some, Option.some.injEq] at h
    obtain ⟨-, rfl⟩ := h
    rw [refConst_exactNum_cosBasis]
    exact (cosReal_near u x).trans (basisTolerance_ge u x)
  | quarter => rw [refConst_exactNum_quarter, ← Option.some.inj h]; norm_num
  | eighth => rw [refConst_exactNum_eighth, ← Option.some.inj h]; norm_num
  | cosSum q =>
    simp only [constKnown, Option.ite_none_right_eq_some, Option.some.injEq] at h
    obtain ⟨⟨hlow, -⟩, rfl⟩ := h
    have hs : (0 : ℝ) ≤ cosSumSize q := by exact_mod_cast (pow2_pos _).le.trans hlow
    rw [exactConst_real, exactConst]
    refine (cosSumReal_near q).trans ?_
    rw [cosSumTolerance, Rat.cast_mul, Rat.cast_mul, cast_pow2_neg_53]
    push_cast
    linarith

/-- So does the machine's. -/
theorem machineConst_near {c : Const} {k : Known} (h : constKnown c = some k) :
    ∃ q : Rat, machineConst c = .fin q ∧ |q - k.value| ≤ k.slack := by
  have near {v : Real64} (hv : isNear64 k.value k.slack v = true) : ∃ q : Rat, v = .fin q ∧ |q - k.value| ≤ k.slack := by
    obtain ⟨q, hq, -, hn⟩ := isNear64_iff.mp hv
    exact ⟨q, hq, hn⟩
  have hm : machineOrRef machineConst := .inl rfl
  cases c with
  | lit num den =>
    simp only [constKnown, Option.ite_none_right_eq_some, Option.some.injEq] at h
    obtain ⟨⟨hnum, h0, hden⟩, rfl⟩ := h
    rw [const_lit hm hnum h0.ne' hden]
    exact round64_quotient_near hnum h0 hden
  | norm n =>
    simp only [constKnown] at h
    split at h <;> obtain rfl := Option.some.inj h
    case isTrue hn => exact near (hn ▸ const_norm_zero hm)
    case isFalse hn => exact ⟨1, const_norm hm hn, by simp⟩
  | cosBasis u x =>
    simp only [constKnown, Option.ite_none_right_eq_some, Option.some.injEq] at h
    obtain ⟨⟨hu, hx⟩, rfl⟩ := h
    exact near (const_cosBasis hm hu hx)
  | quarter => exact ⟨1 / 4, const_quarter hm, by simp [← Option.some.inj h]⟩
  | eighth => exact ⟨1 / 8, const_eighth hm, by simp [← Option.some.inj h]⟩
  | cosSum q =>
    simp only [constKnown, Option.ite_none_right_eq_some, Option.some.injEq] at h
    obtain ⟨⟨hlow, hhigh⟩, rfl⟩ := h
    exact near (machineConst_cosSum hlow hhigh)

theorem constantsKnown_machineConst : ConstantsKnown machineConst := fun _ _ h =>
  ⟨machineConst_near h, refConst_exactNum_near h⟩

/-! ### Distance to the real constants -/

/-- A value near a number that is near a real one. -/
theorem near_real_of_isNear64 {v : Real64} {center tolerance : Rat} {x : ℝ} (h : isNear64 center tolerance v = true)
    (hx : |x - center| ≤ 1 / 2 ^ 53) :
    ∃ q : Rat, v = .fin q ∧ isBinary64 q ∧ |(q : ℝ) - x| ≤ (tolerance : ℝ) + 1 / 2 ^ 53 := by
  obtain ⟨q, hq, hb, hn⟩ := isNear64_iff.mp h
  have hn' : |(q : ℝ) - center| ≤ (tolerance : ℝ) := by exact_mod_cast hn
  refine ⟨q, hq, hb, ?_⟩
  have := abs_sub_le (q : ℝ) center x
  rw [abs_sub_comm (center : ℝ)] at this
  linarith

theorem const_norm_zero_near {const : Const → Real64} (h : machineOrRef const) :
    ∃ q : Rat, const (.norm 0) = .fin q ∧ isBinary64 q ∧ |(q : ℝ) - normReal 0| ≤ 5 / 2 ^ 53 := by
  obtain ⟨q, hq, hb, hn⟩ := near_real_of_isNear64 (const_norm_zero h) normReal_zero_near
  refine ⟨q, hq, hb, hn.trans (le_of_eq ?_)⟩
  rw [Rat.cast_mul, cast_pow2_neg_53]
  norm_num

theorem const_cosBasis_near {const : Const → Real64} (h : machineOrRef const) {u x : Nat} (hu : u < 8) (hx : x < 8) :
    ∃ q : Rat, const (.cosBasis u x) = .fin q ∧ isBinary64 q
      ∧ |(q : ℝ) - cosReal u x| ≤ ((2 * (x : ℝ) + 1) * u + 9) / 2 ^ 53 := by
  obtain ⟨q, hq, hb, hn⟩ := near_real_of_isNear64 (const_cosBasis h hu hx) (cosReal_near u x)
  refine ⟨q, hq, hb, hn.trans (le_of_eq ?_)⟩
  rw [basisTolerance, Rat.cast_mul, cast_pow2_neg_53]
  push_cast
  ring

end Sys2Proof.Machine
end

section
/-! PROOF. R15, R124, R133: the printed orders of R128 are accurate and stay finite. One bound serves for every coefficient and
every sample, since no constant of theirs exceeds 1 by more than its slack. -/

namespace Sys2Proof.Machine

/-- A bound that is not negative and at most another one. -/
structure Bound.Within (a b : Bound) : Prop where
  size_nonneg : 0 ≤ a.size
  size_le : a.size ≤ b.size
  err_nonneg : 0 ≤ a.err
  err_le : a.err ≤ b.err

theorem Bound.Within.add {a a' b b' : Bound} (h : a.Within b) (h' : a'.Within b') : (a.add a').Within (b.add b') where
  size_nonneg := add_nonneg h.size_nonneg h'.size_nonneg
  size_le := add_le_add h.size_le h'.size_le
  err_nonneg := add_nonneg h.err_nonneg h'.err_nonneg
  err_le := add_le_add h.err_le h'.err_le

theorem Bound.Within.mul {a a' b b' : Bound} (h : a.Within b) (h' : a'.Within b') : (a.mul a').Within (b.mul b') := by
  obtain ⟨hs, hsb, he, heb⟩ := h
  obtain ⟨hs', hsb', he', heb'⟩ := h'
  constructor <;> simp only [Bound.mul]
  · positivity
  · gcongr
    exact hs.trans hsb
  · positivity
  · have := hs.trans hsb
    have := hs'.trans hsb'
    have := he.trans heb
    gcongr

/-- A smaller bound is not lost by a rounding that a greater one survives. -/
theorem Bound.Within.rounded {a b b' : Bound} (h : a.Within b) (hb : b.rounded = some b') :
    ∃ a', a.rounded = some a' ∧ a'.Within b' := by
  obtain ⟨hs, hsb, he, heb⟩ := h
  simp only [Bound.rounded, Option.ite_none_right_eq_some, Option.some.injEq] at hb
  obtain ⟨hle, rfl⟩ := hb
  have hm := mul_le_mul_of_nonneg_right (add_le_add hsb heb) (pow2_pos (-53)).le
  have hp := mul_nonneg (add_nonneg hs he) (pow2_pos (-53)).le
  refine ⟨_, if_pos ((add_le_add hsb heb).trans hle), hs, hsb, ?_, ?_⟩
  · linarith [pow2_pos (-1074)]
  · linarith

/-- A bound of the product of two bounded expressions. -/
def productBound (x y : Option Bound) : Option Bound := x.bind fun x => y.bind fun y => (x.mul y).rounded

/-- The bound after `n` more terms of bound `t` have been added one by one. -/
def sumBound (t : Bound) : Nat → Bound → Option Bound
  | 0, b => some b
  | n + 1, b => (b.add t).rounded.bind (sumBound t n)

/-- A bound of the sum of 64 bounded expressions. -/
def sumBound64 (x : Option Bound) : Option Bound := x.bind fun t => sumBound t 63 t

/-- If there is the bound `x`, the error analysis of the expression gives one within it. -/
def Fits (range : Rat) (e : Expr) (x : Option Bound) : Prop :=
  ∀ b, x = some b → ∃ a, errorBound range e = some a ∧ a.Within b

section
variable {range : Rat}

theorem fits_some {e : Expr} {b : Bound} : Fits range e (some b) ↔ ∃ a, errorBound range e = some a ∧ a.Within b := by
  simp [Fits]

theorem Fits.isAccurate {e : Expr} {x : Option Bound} (h : Fits range e x) (hx : x.any (·.err ≤ roundTripShare) = true) :
    isAccurate range e = true := by
  rw [Option.any_eq_true] at hx
  obtain ⟨b, hb, hs⟩ := hx
  obtain ⟨a, ha, hw⟩ := h b hb
  rw [Machine.isAccurate, ha]
  exact decide_eq_true (hw.err_le.trans (of_decide_eq_true hs))

theorem Fits.staysFinite {e : Expr} {x : Option Bound} (h : Fits wideRange e x) (hx : x.isSome = true) :
    staysFinite e = true := by
  obtain ⟨b, hb⟩ := Option.isSome_iff_exists.mp hx
  obtain ⟨a, ha, -⟩ := h b hb
  rw [Machine.staysFinite, ha, Option.isSome_some]

theorem fits_operand (hr : 0 ≤ range) (i : Nat) : Fits range (.operand i) (some ⟨range, 0⟩) :=
  fits_some.mpr ⟨_, rfl, hr, le_rfl, le_rfl, le_rfl⟩

theorem fits_const {c : Const} {k : Known} {b : Bound} (hc : constKnown c = some k) (h0 : 0 ≤ k.slack)
    (hs : |k.value| + k.slack ≤ b.size) (he : 2 * k.slack ≤ b.err) : Fits range (.const c) (some b) := by
  refine fits_some.mpr ⟨⟨|k.value| + k.slack, 2 * k.slack⟩, ?_, add_nonneg (abs_nonneg _) h0, hs, by positivity, he⟩
  simp only [errorBound, hc, Option.map_some]

theorem Fits.mul {e f : Expr} {x y : Option Bound} (he : Fits range e x) (hf : Fits range f y) :
    Fits range (.mul e f) (productBound x y) := by
  intro z hz
  obtain ⟨b, hb, hz⟩ := Option.bind_eq_some_iff.mp hz
  obtain ⟨c, hc, hz⟩ := Option.bind_eq_some_iff.mp hz
  obtain ⟨a, ha, hab⟩ := he b hb
  obtain ⟨d, hd, hdc⟩ := hf c hc
  obtain ⟨r, hr, hrz⟩ := (hab.mul hdc).rounded hz
  exact ⟨r, by simp only [errorBound, ha, hd, Option.bind_some, hr], hrz⟩

theorem fits_foldl_add {t : Bound} {ts : List Expr} (ht : ∀ e ∈ ts, Fits range e (some t)) {e : Expr} {b : Bound}
    (he : Fits range e (some b)) : Fits range (ts.foldl .add e) (sumBound t ts.length b) := by
  induction ts generalizing e b with
  | nil => exact he
  | cons f ts ih =>
    intro z hz
    obtain ⟨c, hc, hz⟩ := Option.bind_eq_some_iff.mp hz
    obtain ⟨a, ha, hab⟩ := fits_some.mp he
    obtain ⟨d, hd, hdt⟩ := fits_some.mp (ht f List.mem_cons_self)
    obtain ⟨r, hr, hrc⟩ := (hab.add hdt).rounded hc
    have hadd : Fits range (.add e f) (some c) :=
      fits_some.mpr ⟨r, by simp only [errorBound, ha, hd, Option.bind_some, hr], hrc⟩
    exact ih (fun g hg => ht g (List.mem_cons_of_mem f hg)) hadd z hz

theorem fits_sumExpr {x : Option Bound} {term : Nat → Expr} (ht : ∀ j < 64, Fits range (term j) x) :
    Fits range (sumExpr ((List.range 64).map term)) (sumBound64 x) := by
  intro z hz
  obtain ⟨t, rfl, hsum⟩ := Option.bind_eq_some_iff.mp hz
  have hl : (List.range 64).map term = term 0 :: (List.range' 1 63).map term := rfl
  have htail : ∀ e ∈ (List.range' 1 63).map term, Fits range e (some t) := by
    intro e he
    obtain ⟨j, hj, rfl⟩ := List.mem_map.mp he
    have := List.mem_range'_1.mp hj
    exact ht j (by omega)
  have hlen : ((List.range' 1 63).map term).length = 63 := by rw [List.length_map, List.length_range']
  have hfit := fits_foldl_add htail (ht 0 (by norm_num))
  rw [hlen] at hfit
  rw [hl]
  exact hfit z hsum

/-! ### The constants of the printed orders -/

/-- A bound for `C(k)` and the basis cosines: 1, and the tolerance of `cb(7, 7)` rounded up to a power of two. -/
def unitBound : Bound := ⟨1 + pow2 (-46), pow2 (-45)⟩

/-- A bound for the literal 2. -/
def twoBound : Bound := ⟨2 + pow2 (-52), pow2 (-51)⟩

theorem fits_norm (k : Nat) : Fits range (.const (.norm k)) (some unitBound) := by
  by_cases hk : k = 0
  · exact fits_const (by rw [constKnown, if_pos hk]) (by decide +kernel) (by decide +kernel) (by decide +kernel)
  · exact fits_const (by rw [constKnown, if_neg hk]) (by decide +kernel) (by decide +kernel) (by decide +kernel)

theorem fits_cosBasis {u x : Nat} (hu : u < 8) (hx : x < 8) : Fits range (.const (.cosBasis u x)) (some unitBound) := by
  have h : ∀ u < 8, ∀ x < 8, 0 ≤ basisTolerance u x ∧ |basisValue u x| + basisTolerance u x ≤ unitBound.size
      ∧ 2 * basisTolerance u x ≤ unitBound.err := by decide +kernel
  obtain ⟨h0, hs, he⟩ := h u hu x hx
  exact fits_const (k := ⟨basisValue u x, basisTolerance u x⟩) (by rw [constKnown, if_pos ⟨hu, hx⟩]) h0 hs he

theorem fits_quarter : Fits range (.const .quarter) (some ⟨1 / 4, 0⟩) :=
  fits_const rfl le_rfl (by decide +kernel) (by decide +kernel)

theorem fits_eighth : Fits range (.const .eighth) (some ⟨1 / 8, 0⟩) :=
  fits_const rfl le_rfl (by decide +kernel) (by decide +kernel)

theorem fits_two : Fits range (lit 2 1) (some twoBound) :=
  fits_const (by rw [constKnown, if_pos (by decide)]) (by decide +kernel) (by decide +kernel) (by decide +kernel)

end

/-! ### The two sums of 64 terms -/

/-- The bound of `C(u) * C(v)` and of a product of two basis cosines. -/
def unitSquareBound : Option Bound := productBound (some unitBound) (some unitBound)

/-- The bound of a coefficient of `DCT8F` in the order of R128. -/
def forwardBound (range : Rat) : Option Bound :=
  productBound (productBound unitSquareBound (some ⟨1 / 4, 0⟩)) (sumBound64 (productBound unitSquareBound (some ⟨range, 0⟩)))

/-- The bound of a term of `DCT8I` in the order of R128. -/
def inverseTermBound (range : Rat) : Option Bound :=
  let scale := productBound (some twoBound) (productBound unitSquareBound (some ⟨1 / 8, 0⟩))
  productBound (productBound (productBound scale (some unitBound)) (some unitBound)) (some ⟨range, 0⟩)

/-- The bound of a sample of `DCT8I` in the order of R128. -/
def inverseBound (range : Rat) : Option Bound := sumBound64 (inverseTermBound range)

/-- One bound for all coefficients. -/
theorem fits_dctFExpr {range : Rat} (hr : 0 ≤ range) {u v : Nat} (hu : u < 8) (hv : v < 8) :
    Fits range (dctFExpr u v) (forwardBound range) := by
  have term : ∀ j < 64, Fits range (dctFTerm u v j) (productBound unitSquareBound (some ⟨range, 0⟩)) := fun j hj =>
    ((fits_cosBasis hu (by omega)).mul (fits_cosBasis hv (by omega))).mul (fits_operand hr j)
  exact (((fits_norm u).mul (fits_norm v)).mul fits_quarter).mul (fits_sumExpr term)

/-- One bound for all samples. -/
theorem fits_dctIExpr {range : Rat} (hr : 0 ≤ range) {x y : Nat} (hx : x < 8) (hy : y < 8) :
    Fits range (dctIExpr x y) (inverseBound range) := by
  have term : ∀ j < 64, Fits range (dctITerm x y j) (inverseTermBound range) := fun j hj =>
    (((fits_two.mul (((fits_norm _).mul (fits_norm _)).mul fits_eighth)).mul (fits_cosBasis (by omega) hx)).mul
      (fits_cosBasis (by omega) hy)).mul (fits_operand hr j)
  exact fits_sumExpr term

theorem forwardBound_accurate : (forwardBound forwardRange).any (·.err ≤ roundTripShare) = true := by decide +kernel

theorem inverseBound_accurate : (inverseBound inverseRange).any (·.err ≤ roundTripShare) = true := by decide +kernel

theorem forwardBound_finite : (forwardBound wideRange).isSome = true := by decide +kernel

theorem inverseBound_finite : (inverseBound wideRange).isSome = true := by decide +kernel

end Sys2Proof.Machine
end

section
/-! PROOF. R123, R125, R126: over the reals the printed sums are products with the orthogonal matrix `A`, which no block leaves
more than eight times as large. -/

namespace Sys2Proof.Machine

open Matrix

/-! ### The matrix `A` is orthogonal -/

/-- The cosines of the odd multiples of an angle add up to 0, their sum times twice its sine being a telescope. -/
theorem sum_cosAngle_odd {n : Nat} (h0 : n ≠ 0) (h : n < 16) : ∑ x : Fin 8, cosAngle ((2 * x + 1) * n) = 0 := by
  set θ : ℝ := n * Real.pi / 16 with hθ
  have hp := Real.pi_pos
  have hn : (0 : ℝ) < n := by exact_mod_cast Nat.pos_of_ne_zero h0
  have hn' : (n : ℝ) < 16 := by exact_mod_cast h
  have hs : 0 < Real.sin θ := Real.sin_pos_of_pos_of_lt_pi (by positivity) (by rw [hθ]; nlinarith)
  have step (x : Nat) : 2 * Real.sin θ * cosAngle ((2 * x + 1) * n)
      = Real.sin (2 * (x + 1 : Nat) * θ) - Real.sin (2 * x * θ) := by
    have hc : cosAngle ((2 * x + 1) * n) = Real.cos ((2 * x + 1) * θ) := by
      rw [cosAngle, hθ]; push_cast; congr 1; ring
    rw [hc, show 2 * ((x + 1 : Nat) : ℝ) * θ = (2 * x + 1) * θ + θ by push_cast; ring,
      show 2 * (x : ℝ) * θ = (2 * x + 1) * θ - θ by ring, Real.sin_add, Real.sin_sub]
    ring
  have hsum : 2 * Real.sin θ * ∑ x ∈ Finset.range 8, cosAngle ((2 * x + 1) * n) = 0 := by
    rw [Finset.mul_sum, Finset.sum_congr rfl fun x _ => step x, Finset.sum_range_sub fun x : Nat => Real.sin (2 * x * θ),
      show 2 * ((8 : Nat) : ℝ) * θ = n * Real.pi by rw [hθ]; push_cast; ring, Real.sin_nat_mul_pi]
    simp
  rw [Fin.sum_univ_eq_sum_range fun x => cosAngle ((2 * x + 1) * n)]
  exact (mul_eq_zero.mp hsum).resolve_left (by positivity)

/-- The product formula. -/
theorem cosAngle_mul (i j : Nat) :
    cosAngle i * cosAngle j = (cosAngle (max i j - min i j) + cosAngle (i + j)) / 2 := by
  rw [← cosSumReal_unitMul, cosUnitMul, cosSumReal_scale, cosSumReal_add, cosSumReal_unit, cosSumReal_unit]
  push_cast
  ring

/-- `A` of R126. -/
noncomputable def dctA : Matrix (Fin 8) (Fin 8) ℝ := of fun u x => dctMatrix u x

theorem dctA_apply (u x : Fin 8) : dctA u x = normReal u * cosReal u x / 2 := rfl

theorem normReal_zero_sq : normReal 0 * normReal 0 = 1 / 2 := by
  rw [normReal_zero, cosAngle_mul]
  simp [cosAngle_zero, cosAngle_eight]

theorem normReal_succ {k : Nat} (h : k ≠ 0) : normReal k = 1 := by simp [normReal, h]

theorem sum_cosReal_mul (u v : Nat) :
    ∑ x : Fin 8, cosReal u x * cosReal v x
      = (∑ x : Fin 8, cosAngle ((2 * x + 1) * (max u v - min u v)) + ∑ x : Fin 8, cosAngle ((2 * x + 1) * (u + v))) / 2 := by
  rw [← Finset.sum_add_distrib, Finset.sum_div]
  refine Finset.sum_congr rfl fun x _ => ?_
  rw [cosReal_eq_cosAngle, cosReal_eq_cosAngle, cosAngle_mul, ← Nat.mul_add, Nat.mul_max_mul_left, Nat.mul_min_mul_left,
    ← Nat.mul_sub]

theorem dctA_mul_transpose : dctA * dctAᵀ = 1 := by
  have eight : ∑ x : Fin 8, cosAngle ((2 * x + 1) * 0) = 8 := by simp [cosAngle_zero]
  ext u v
  have hs : (dctA * dctAᵀ) u v = normReal u * normReal v / 4 * ∑ x : Fin 8, cosReal u x * cosReal v x := by
    rw [mul_apply, Finset.mul_sum]
    refine Finset.sum_congr rfl fun x _ => ?_
    rw [transpose_apply, dctA_apply, dctA_apply]
    ring
  rw [hs, sum_cosReal_mul]
  by_cases huv : u = v
  · subst huv
    rw [max_self, min_self, Nat.sub_self, eight, one_apply_eq]
    by_cases hu : (u : Nat) = 0
    · rw [hu, eight, normReal_zero_sq]; norm_num
    · rw [sum_cosAngle_odd (by omega) (by omega), normReal_succ hu]; norm_num
  · have hne : (u : Nat) ≠ v := fun h => huv (Fin.ext h)
    rw [sum_cosAngle_odd (by omega) (by omega), sum_cosAngle_odd (by omega) (by omega), one_apply_ne huv]
    simp

theorem transpose_mul_dctA : dctAᵀ * dctA = 1 := mul_eq_one_comm.mp dctA_mul_transpose

/-! ### Magnitudes -/

/-- Products with an orthogonal matrix on both sides grow an entry at most eightfold: a row of eight numbers whose squares add
up to 1 has magnitudes that add up to at most the root of 8. -/
theorem abs_orthogonal_le {B M : Matrix (Fin 8) (Fin 8) ℝ} (hB : B * Bᵀ = 1) {K : ℝ} (hM : ∀ x y, |M x y| ≤ K) (u v : Fin 8) :
    |(B * M * Bᵀ) u v| ≤ 8 * K := by
  have row (u : Fin 8) : (∑ x, |B u x|) ^ 2 ≤ 8 := by
    have h1 : ∑ x, |B u x| ^ 2 = 1 := by
      have := congrFun (congrFun hB u) u
      simpa [mul_apply, ← sq] using this
    have h2 := sq_sum_le_card_mul_sum_sq (s := Finset.univ) (f := fun x => |B u x|)
    rw [h1] at h2
    simpa using h2
  have hK : 0 ≤ K := (abs_nonneg _).trans (hM 0 0)
  have hle : |(B * M * Bᵀ) u v| ≤ ∑ y, ∑ x, |B u x| * K * |B v y| := by
    simp only [mul_apply, transpose_apply, Finset.sum_mul]
    refine (Finset.abs_sum_le_sum_abs _ _).trans (Finset.sum_le_sum fun y _ => ?_)
    refine (Finset.abs_sum_le_sum_abs _ _).trans (Finset.sum_le_sum fun x _ => ?_)
    rw [abs_mul, abs_mul]
    gcongr
    exact hM x y
  calc |(B * M * Bᵀ) u v| ≤ ∑ y, ∑ x, |B u x| * K * |B v y| := hle
    _ = ((∑ x, |B u x|) * ∑ y, |B v y|) * K := by
      simp only [← Finset.sum_mul, ← Finset.mul_sum]; ring
    _ ≤ 8 * K := mul_le_mul_of_nonneg_right (by nlinarith [row u, row v, sq_nonneg (∑ x, |B u x| - ∑ y, |B v y|)]) hK

/-! ### The printed sums -/

/-- A block of operands as a matrix: operand `8 * x + y` in row `x` and column `y`. -/
def blockMatrix (operand : Nat → ℝ) : Matrix (Fin 8) (Fin 8) ℝ := of fun x y => operand (8 * x + y)

theorem evalExpr_foldl_add (const : Const → ℝ) (operand : Nat → ℝ) (ts : List Expr) (e : Expr) :
    evalExpr exactNum const operand (ts.foldl .add e)
      = evalExpr exactNum const operand e + (ts.map (evalExpr exactNum const operand)).sum := by
  induction ts generalizing e with
  | nil => simp
  | cons t ts ih => simp [ih, evalExpr, add_assoc]

theorem evalExpr_sumExpr (operand : Nat → ℝ) (ts : List Expr) :
    evalExpr exactNum (refConst exactNum) operand (sumExpr ts)
      = (ts.map (evalExpr exactNum (refConst exactNum) operand)).sum := by
  cases ts with
  | nil => simp [sumExpr, lit, evalExpr, refConst]
  | cons t ts => simp [sumExpr, evalExpr_foldl_add]

/-- A sum over the 64 places of a block, row by row. -/
theorem sum_range_64 (g : Nat → ℝ) : ((List.range 64).map g).sum = ∑ x : Fin 8, ∑ y : Fin 8, g (8 * x + y) := by
  have h : ((List.range 64).map g).sum = ∑ j : Fin (8 * 8), g j :=
    (rfl : _ = ∑ j ∈ Finset.range 64, g j).trans (Finset.sum_range g)
  rw [h, ← finProdFinEquiv.sum_comp, Fintype.sum_prod_type]
  simp [finProdFinEquiv, add_comm]

theorem place_div (x y : Fin 8) : (8 * (x : Nat) + y) / 8 = x := by omega

theorem place_mod (x y : Fin 8) : (8 * (x : Nat) + y) % 8 = y := by omega

/-- R123, R126: `DCT8F` is `A f Aᵀ`. -/
theorem dctFExpr_real (operand : Nat → ℝ) (u v : Fin 8) :
    evalExpr exactNum (refConst exactNum) operand (dctFExpr u v) = (dctA * blockMatrix operand * dctAᵀ) u v := by
  have hl : evalExpr exactNum (refConst exactNum) operand (dctFExpr u v) = normReal u * normReal v * (1 / 4)
      * ∑ x : Fin 8, ∑ y : Fin 8, cosReal u x * cosReal v y * operand (8 * x + y) := by
    simp only [dctFExpr, evalExpr, evalExpr_sumExpr, List.map_map, sum_range_64, Function.comp_apply, dctFTerm, exactNum_mul,
      refConst_exactNum_norm, refConst_exactNum_quarter, refConst_exactNum_cosBasis, place_div, place_mod]
  rw [hl, mul_apply, Finset.sum_comm, Finset.mul_sum]
  refine Finset.sum_congr rfl fun y _ => ?_
  rw [mul_apply, Finset.mul_sum, Finset.sum_mul]
  refine Finset.sum_congr rfl fun x _ => ?_
  rw [transpose_apply, dctA_apply, dctA_apply, blockMatrix, of_apply]
  ring

/-- R125, R126: `DCT8I` is `Aᵀ H A`. -/
theorem dctIExpr_real (operand : Nat → ℝ) (x y : Fin 8) :
    evalExpr exactNum (refConst exactNum) operand (dctIExpr x y) = (dctAᵀ * blockMatrix operand * dctA) x y := by
  have hl : evalExpr exactNum (refConst exactNum) operand (dctIExpr x y)
      = ∑ u : Fin 8, ∑ v : Fin 8,
        2 * (normReal u * normReal v * (1 / 8)) * cosReal u x * cosReal v y * operand (8 * u + v) := by
    have h2 : refConst exactNum (.lit 2 1) = 2 := by simp [refConst]
    simp only [dctIExpr, evalExpr, evalExpr_sumExpr, List.map_map, sum_range_64, Function.comp_apply, dctITerm, lit,
      exactNum_mul, refConst_exactNum_norm, refConst_exactNum_eighth, refConst_exactNum_cosBasis, h2, place_div, place_mod]
  rw [hl, mul_apply, Finset.sum_comm]
  refine Finset.sum_congr rfl fun v _ => ?_
  rw [mul_apply, Finset.sum_mul]
  refine Finset.sum_congr rfl fun u _ => ?_
  rw [transpose_apply, dctA_apply, dctA_apply, blockMatrix, of_apply]
  ring

/-- R129: a constant block has no coefficient but `F[0][0]`. -/
theorem forward_of_constant {operand : Nat → ℝ} {c : ℝ} (h : ∀ j < 64, operand j = c) {u v : Fin 8} (huv : ¬(u = 0 ∧ v = 0)) :
    (dctA * blockMatrix operand * dctAᵀ) u v = 0 := by
  have row {u : Fin 8} (hu : u ≠ 0) : ∑ x, dctA u x = 0 := by
    have hu' : (u : Nat) ≠ 0 := fun h => hu (Fin.ext h)
    simp only [dctA_apply, ← Finset.sum_div, ← Finset.mul_sum, cosReal_eq_cosAngle]
    rw [sum_cosAngle_odd hu' (by omega)]
    simp
  have hs : (dctA * blockMatrix operand * dctAᵀ) u v = (∑ x, dctA u x) * c * ∑ y, dctA v y := by
    simp only [mul_apply, transpose_apply, blockMatrix, of_apply, Finset.mul_sum, Finset.sum_mul]
    exact Finset.sum_congr rfl fun y _ => Finset.sum_congr rfl fun x _ => by rw [h _ (by omega)]
  rw [hs]
  by_cases hu : u = 0
  · rw [row fun hv => huv ⟨hu, hv⟩, mul_zero]
  · rw [row hu, zero_mul, zero_mul]

end Sys2Proof.Machine
end

section
/-! PROOF. R15, R124, R133: what the machine's transforms give on finite blocks, and `EvaluationOrders`. -/

namespace Sys2Proof.Machine

open Matrix

/-! ### The machine's expressions -/

/-- What an expression that may be used for a transform establishes, where the printed one does. -/
theorem isTransform_bounds {range : Rat} {site : Site} {e : Expr} (h : isTransform range site e = true)
    (ha : isAccurate range (refExpr site) = true) (hf : staysFinite (refExpr site) = true) :
    isAccurate range e = true ∧ staysFinite e = true := by
  simp only [isTransform, Bool.or_eq_true, Bool.and_eq_true, beq_iff_eq] at h
  rcases h with rfl | ⟨⟨-, ha⟩, hf⟩
  · exact ⟨ha, hf⟩
  · exact ⟨ha, hf⟩

theorem forwardRange_nonneg : 0 ≤ forwardRange := by norm_num [forwardRange]

theorem inverseRange_nonneg : 0 ≤ inverseRange := by norm_num [inverseRange]

theorem wideRange_nonneg : 0 ≤ wideRange := (pow2_pos 1000).le

/-- Every expression the machine uses for a coefficient is accurate and stays finite. -/
theorem machineExpr_dctF {u v : Nat} (hu : u < 8) (hv : v < 8) :
    isAccurate forwardRange (machineExpr (.dctF u v)) = true ∧ staysFinite (machineExpr (.dctF u v)) = true :=
  isTransform_bounds (isEvaluation_machineExpr (.dctF u v))
    ((fits_dctFExpr forwardRange_nonneg hu hv).isAccurate forwardBound_accurate)
    ((fits_dctFExpr wideRange_nonneg hu hv).staysFinite forwardBound_finite)

/-- Likewise for a sample. -/
theorem machineExpr_dctI {x y : Nat} (hx : x < 8) (hy : y < 8) :
    isAccurate inverseRange (machineExpr (.dctI x y)) = true ∧ staysFinite (machineExpr (.dctI x y)) = true :=
  isTransform_bounds (isEvaluation_machineExpr (.dctI x y))
    ((fits_dctIExpr inverseRange_nonneg hx hy).isAccurate inverseBound_accurate)
    ((fits_dctIExpr wideRange_nonneg hx hy).staysFinite inverseBound_finite)

/-! ### What R129 admits -/

theorem constantBlock_spec {operand : Nat → Real64} {c : Rat} (h : constantBlock operand = some c) {j : Nat} (hj : j < 64) :
    operand j = .fin c := by
  unfold constantBlock at h
  split at h
  case h_1 d _ =>
    simp only [Option.ite_none_right_eq_some, Option.some.injEq, List.all_eq_true, List.mem_range, beq_iff_eq] at h
    obtain ⟨hall, rfl⟩ := h
    exact hall j hj
  case h_2 => cases h
  case h_3 => cases h

/-- R129 replaces a coefficient by 0 only where its exact value is 0. -/
theorem admitValue_dctF (u w : Nat) (operand : Nat → Real64) (v : Real64) :
    admitValue (.dctF u w) operand v = v
    ∨ (¬(u = 0 ∧ w = 0) ∧ (∃ c, constantBlock operand = some c) ∧ admitValue (.dctF u w) operand v = .fin 0) := by
  by_cases h0 : u = 0 ∧ w = 0
  · refine .inl ?_
    simp only [admitValue]
    split
    · rfl
    · rw [if_pos (.inl h0)]
  · exact (admitValue_cases (.dctF u w) operand v).imp_right fun h => ⟨h0, h⟩

/-! ### Blocks of finite values -/

/-- Every element is finite and at most `range` in magnitude. -/
def blockWithin (range : Rat) (b : Block) : Prop := ∀ (k : Nat) (_ : k < 64), ∃ q : Rat, b[k] = .fin q ∧ |q| ≤ range

/-- The number that an operand of a transform is; 0 for one that is not finite. -/
def operandRat (b : Block) (j : Nat) : Rat :=
  match elem b64 b j with
  | .fin q => q
  | .inf _ => 0
  | .nan => 0

theorem operandRat_of_fin {b : Block} {k : Nat} (hk : k < 64) {q : Rat} (h : b[k] = .fin q) : operandRat b k = q := by
  simp [operandRat, hk, h]

theorem blockWithin.operand {range : Rat} {b : Block} (h : blockWithin range b) (h0 : 0 ≤ range) (j : Nat) :
    elem b64 b j = .fin (operandRat b j) ∧ |operandRat b j| ≤ range := by
  by_cases hj : j < 64
  · obtain ⟨q, hq, hr⟩ := h j hj
    rw [operandRat_of_fin hj hq, elem_getElem _ _ _ hj]
    exact ⟨hq, hr⟩
  · have he : elem b64 b j = .fin 0 := by
      rw [elem, dif_neg hj]; exact ofInt64_eq (n := 0) (by norm_num)
    simp [operandRat, he, h0]

theorem blockWithin.elem_eq {range : Rat} {b : Block} (h : blockWithin range b) (h0 : 0 ≤ range) :
    elem b64 b = fun j => .fin (operandRat b j) := funext fun j => (h.operand h0 j).1

theorem blockFinite_of_getElem {b : Block} (h : ∀ (k : Nat) (_ : k < 64), b[k].isFinite = true) : blockFinite b = true := by
  rw [blockFinite, List.all_eq_true]
  intro v hv
  obtain ⟨k, hk, rfl⟩ := List.mem_iff_getElem.mp hv
  exact h k (by simpa using hk)

theorem blockWithin.finite {range : Rat} {b : Block} (h : blockWithin range b) : blockFinite b = true :=
  blockFinite_of_getElem fun k hk => by
    obtain ⟨q, hq, -⟩ := h k hk
    rw [hq]; rfl

/-- The block of exact numbers. -/
noncomputable def realMatrix (b : Block) : Matrix (Fin 8) (Fin 8) ℝ := blockMatrix fun j => (operandRat b j : ℝ)

theorem blockWithin.abs_realMatrix_le {range : Rat} {b : Block} (h : blockWithin range b) (h0 : 0 ≤ range) (x y : Fin 8) :
    |realMatrix b x y| ≤ (range : ℝ) := by
  rw [realMatrix, blockMatrix, of_apply]
  exact_mod_cast (h.operand h0 _).2

/-! ### One transform -/

theorem evalSite_machineDatapath (site : Site) (operand : Nat → Real64) :
    evalSite machineDatapath site operand
      = admitValue site operand (evalExpr b64 machineConst operand (machineExpr site)) := rfl

theorem dct8f_getElem (b : Block) {k : Nat} (hk : k < 64) :
    (dct8f machineDatapath b)[k] = evalSite machineDatapath (.dctF (k / 8) (k % 8)) (elem b64 b) := by
  rw [dct8f, Vector.getElem_ofFn]; rfl

theorem dct8i_getElem (b : Block) {k : Nat} (hk : k < 64) :
    (dct8i machineDatapath b)[k] = evalSite machineDatapath (.dctI (k / 8) (k % 8)) (elem b64 b) := by
  rw [dct8i, Vector.getElem_ofFn]; rfl

/-- A coefficient of a block within R133's range. -/
theorem evalSite_dctF_near {b : Block} (h : blockWithin forwardRange b) (u v : Fin 8) :
    ∃ r : Rat, evalSite machineDatapath (.dctF u v) (elem b64 b) = .fin r
      ∧ |(r : ℝ) - (dctA * realMatrix b * dctAᵀ) u v| ≤ 1 / 10 ^ 7 := by
  obtain ⟨r, hr, hn⟩ :=
    isAccurate_holds constantsKnown_machineConst (fun i => (h.operand forwardRange_nonneg i).2) (machineExpr_dctF u.2 v.2).1
  rw [isEvaluation_real (isEvaluation_machineExpr _)] at hn
  rw [← h.elem_eq forwardRange_nonneg] at hr
  have hx := dctFExpr_real (fun j => (operandRat b j : ℝ)) u v
  rw [evalSite_machineDatapath, hr]
  rcases admitValue_dctF u v (elem b64 b) (.fin r) with he | ⟨huv, ⟨c, hc⟩, he⟩
  · exact ⟨r, he, hx ▸ hn⟩
  · have hz : (dctA * realMatrix b * dctAᵀ) u v = 0 := by
      refine forward_of_constant (c := (c : ℝ)) (fun j hj => ?_)
        fun ⟨hu, hv⟩ => huv ⟨congrArg Fin.val hu, congrArg Fin.val hv⟩
      rw [operandRat, constantBlock_spec hc hj]
    exact ⟨0, he, by rw [hz]; norm_num⟩

/-- A sample of coefficients within the range that R133 leads to. -/
theorem evalSite_dctI_near {b : Block} (h : blockWithin inverseRange b) (x y : Fin 8) :
    ∃ r : Rat, evalSite machineDatapath (.dctI x y) (elem b64 b) = .fin r
      ∧ |(r : ℝ) - (dctAᵀ * realMatrix b * dctA) x y| ≤ 1 / 10 ^ 7 := by
  obtain ⟨r, hr, hn⟩ :=
    isAccurate_holds constantsKnown_machineConst (fun i => (h.operand inverseRange_nonneg i).2) (machineExpr_dctI x.2 y.2).1
  rw [isEvaluation_real (isEvaluation_machineExpr _)] at hn
  rw [← h.elem_eq inverseRange_nonneg] at hr
  exact ⟨r, by rw [evalSite_machineDatapath, hr, admitValue_dctI], dctIExpr_real (fun j => (operandRat b j : ℝ)) x y ▸ hn⟩

/-- R15: a value on operands far below the binary64 range is finite. -/
theorem evalSite_finite {b : Block} (h : blockWithin wideRange b) {site : Site} (hs : staysFinite (machineExpr site) = true) :
    (evalSite machineDatapath site (elem b64 b)).isFinite = true := by
  obtain ⟨r, hr⟩ := staysFinite_holds constantsKnown_machineConst (fun i => (h.operand wideRange_nonneg i).2) hs
  rw [← h.elem_eq wideRange_nonneg] at hr
  rw [evalSite_machineDatapath, hr]
  rcases admitValue_cases site (elem b64 b) (.fin r) with he | ⟨-, he⟩ <;> rw [he] <;> rfl

theorem dct8f_finite {b : Block} (h : blockWithin wideRange b) : blockFinite (dct8f machineDatapath b) = true :=
  blockFinite_of_getElem fun k hk => by
    rw [dct8f_getElem b hk]
    exact evalSite_finite h (machineExpr_dctF (by omega) (by omega)).2

theorem dct8i_finite {b : Block} (h : blockWithin wideRange b) : blockFinite (dct8i machineDatapath b) = true :=
  blockFinite_of_getElem fun k hk => by
    rw [dct8i_getElem b hk]
    exact evalSite_finite h (machineExpr_dctI (by omega) (by omega)).2

/-! ### The two transforms together -/

/-- R130, R133: the machine's coefficients lie near the exact ones and within the range of the inverse transform. -/
theorem dct8f_near {b : Block} (h : blockWithin forwardRange b) :
    blockWithin inverseRange (dct8f machineDatapath b)
    ∧ ∀ u v, |realMatrix (dct8f machineDatapath b) u v - (dctA * realMatrix b * dctAᵀ) u v| ≤ 1 / 10 ^ 7 := by
  constructor
  · intro k hk
    obtain ⟨r, hr, hn⟩ := evalSite_dctF_near h ⟨k / 8, by omega⟩ ⟨k % 8, by omega⟩
    refine ⟨r, (dct8f_getElem b hk).trans hr, ?_⟩
    have hM := abs_orthogonal_le dctA_mul_transpose (h.abs_realMatrix_le forwardRange_nonneg) ⟨k / 8, by omega⟩
      ⟨k % 8, by omega⟩
    have ht := abs_sub_abs_le_abs_sub (r : ℝ) ((dctA * realMatrix b * dctAᵀ) ⟨k / 8, by omega⟩ ⟨k % 8, by omega⟩)
    have hr' : |(r : ℝ)| ≤ ((inverseRange : Rat) : ℝ) := by
      norm_num [forwardRange, inverseRange] at hM ⊢
      linarith
    exact_mod_cast hr'
  · intro u v
    obtain ⟨r, hr, hn⟩ := evalSite_dctF_near h u v
    have hk : 8 * (u : Nat) + v < 64 := by omega
    have hg : (dct8f machineDatapath b)[8 * (u : Nat) + v] = .fin r := by
      rw [dct8f_getElem b hk, place_div, place_mod, hr]
    rwa [realMatrix.eq_1 (dct8f machineDatapath b), blockMatrix, of_apply, operandRat_of_fin hk hg]

/-- R126: over the reals the inverse transform gives back the block. -/
theorem inverse_of_forward (M : Matrix (Fin 8) (Fin 8) ℝ) : dctAᵀ * (dctA * M * dctAᵀ) * dctA = M :=
  calc dctAᵀ * (dctA * M * dctAᵀ) * dctA = dctAᵀ * dctA * M * (dctAᵀ * dctA) := by simp only [Matrix.mul_assoc]
    _ = M := by rw [transpose_mul_dctA, Matrix.one_mul, Matrix.mul_one]

/-- R133: the forward errors grow at most eightfold through the inverse transform, which adds its own. -/
theorem roundTrip_near {b : Block} (h : blockWithin forwardRange b) (x y : Fin 8) :
    ∃ r : Rat, evalSite machineDatapath (.dctI x y) (elem b64 (dct8f machineDatapath b)) = .fin r
      ∧ |(r : ℝ) - realMatrix b x y| ≤ 1 / 10 ^ 6 := by
  obtain ⟨hw, hH⟩ := dct8f_near h
  obtain ⟨r, hr, hn⟩ := evalSite_dctI_near hw x y
  refine ⟨r, hr, ?_⟩
  set F := dctA * realMatrix b * dctAᵀ with hF
  set H := realMatrix (dct8f machineDatapath b)
  have hgrow : |(dctAᵀ * (H - F) * dctA) x y| ≤ 8 * (1 / 10 ^ 7) :=
    abs_orthogonal_le (B := dctAᵀ) (by rw [transpose_transpose, transpose_mul_dctA]) hH x y
  have hsplit : (dctAᵀ * (H - F) * dctA) x y = (dctAᵀ * H * dctA) x y - realMatrix b x y := by
    rw [Matrix.mul_sub, Matrix.sub_mul, Matrix.sub_apply, hF, inverse_of_forward]
  rw [hsplit] at hgrow
  have := abs_sub_le (r : ℝ) ((dctAᵀ * H * dctA) x y) (realMatrix b x y)
  linarith

/-! ### The operations -/

theorem exec_dct8f_of_finite {s : State} (h : blockFinite s.blk = true) :
    exec .dct8f s = .next { s with blk := dct8f machineDatapath s.blk }.complete := by
  rw [exec_dct8f, unitDct8f, State.withBlk_of_finite h]; rfl

theorem exec_dct8i_of_finite {s : State} (h : blockFinite s.blk = true) :
    exec .dct8i s = .next { s with blk := dct8i machineDatapath s.blk }.complete := by
  rw [exec_dct8i, unitDct8i, State.withBlk_of_finite h]; rfl

/-- R133 of the machine. -/
theorem dct_roundTrip {s : State} (h : blockWithin forwardRange s.blk) :
    ∃ t, thenExec (exec .dct8f s) .dct8i = .next t
      ∧ ∀ (k : Nat) (_ : k < 64) (q : Rat), s.blk[k] = .fin q → ∃ r : Rat, t.blk[k] = .fin r ∧ |r - q| ≤ 1 / 10 ^ 6 := by
  rw [exec_dct8f_of_finite h.finite]
  refine ⟨_, exec_dct8i_of_finite (dct8f_near h).1.finite, fun k hk q hq => ?_⟩
  obtain ⟨r, hr, hn⟩ := roundTrip_near h ⟨k / 8, by omega⟩ ⟨k % 8, by omega⟩
  refine ⟨r, (dct8i_getElem _ hk).trans hr, ?_⟩
  have hb : realMatrix s.blk ⟨k / 8, by omega⟩ ⟨k % 8, by omega⟩ = (q : ℝ) := by
    rw [realMatrix, blockMatrix, of_apply, Nat.div_add_mod, operandRat_of_fin hk hq]
  rw [hb] at hn
  rw [← Rat.cast_le (K := ℝ)]
  push_cast
  exact hn

/-- R15 of the machine. -/
theorem dct_finite {s : State} {i : Instr} (hi : i = .dct8f ∨ i = .dct8i) (h : blockWithin wideRange s.blk) :
    ∃ t, exec i s = .next t ∧ blockFinite t.blk = true := by
  rcases hi with rfl | rfl
  · exact ⟨_, exec_dct8f_of_finite h.finite, dct8f_finite h⟩
  · exact ⟨_, exec_dct8i_of_finite h.finite, dct8i_finite h⟩

/-- Settles O29: an order adds up the same products, another way the same linear form; the error analysis with one bound for
all sites and the orthogonality of `A` give R133; each constant is near its printed value, and that near the real one. -/
theorem evaluationOrders : Obligations.EvaluationOrders := by
  refine ⟨isEvaluation_machineExpr, fun site e => ⟨isRearrangement_real, isEvaluation_real⟩, fun s h => dct_roundTrip h,
    fun s i hi h => dct_finite hi fun k hk => ?_, fun const h => ⟨fun num den => const_lit h, const_quarter h, const_eighth h,
      fun k => const_norm h, const_norm_zero_near h, fun u x => const_cosBasis_near h⟩⟩
  obtain ⟨q, hq, hr⟩ := h k hk
  exact ⟨q, hq, by rwa [wideRange, pow2_ofNat]⟩

end Sys2Proof.Machine
end

section
/-! PROOF. R38, R250, R251: what a reset leaves, when a step takes one, and `ResetValues`. -/

namespace Sys2Proof.Machine

/-- A memory to which nothing was written holds no value at any address (U11, U12). -/
@[simp] theorem Mem.read_nil {α : Type} (a : Nat) : Mem.read ([] : Mem α) a = none := rfl

/-- R38, log 2: after power-on no memory holds a value. -/
theorem State.reset_memories_empty (a : Nat) :
    Mem.read State.reset.raster a = none ∧ Mem.read State.reset.stream a = none ∧ State.reset.planeY.read a = none
    ∧ State.reset.planeCb.read a = none ∧ State.reset.planeCr.read a = none ∧ State.reset.planeCbh.read a = none
    ∧ State.reset.planeCrh.read a = none :=
  ⟨Mem.read_nil a, Mem.read_nil a, Mem.read_nil a, Mem.read_nil a, Mem.read_nil a, Mem.read_nil a, Mem.read_nil a⟩

/-- The frame of a later reset: the registers of R251, the number of resets and the host's calls may differ from power-on,
nothing else. -/
theorem State.applyReset_frame (s : State) :
    s.applyReset = { State.reset with
      blk := s.applyReset.blk
      seq := s.applyReset.seq
      sym := s.applyReset.sym
      width := s.applyReset.width
      height := s.applyReset.height
      len := s.applyReset.len
      resets := s.resets + 1
      inbox := s.inbox } := rfl

/-- A register that may hold no value is as it was, which only one that held a value can be, or holds the free value. -/
theorem afterResetOption_kept_or_fresh {α : Type} (register : Unwritten) (n : Nat) (old : Option α) (fresh : α) :
    (old ≠ none ∧ afterResetOption register n old fresh = old) ∨ afterResetOption register n old fresh = some fresh := by
  rcases afterResetOption_cases register n old fresh with ⟨x, rfl, hkept⟩ | hfresh
  · exact .inl ⟨Option.some_ne_none x, hkept⟩
  · exact .inr hfresh

/-- A reset that the host asks for comes before every pending step and every other call, with a fault standing or not. -/
theorem step_of_reset_call {s : State} {more : List HostCall} (h : s.inbox = .reset :: more) :
    step s = .next (State.applyReset { s with inbox := more }) := by
  simp only [step, sequencerStep, h, startCall]

/-- Settles O8: the values of power-on as R38 gives them, the frame of a later reset, what becomes of each register that R251
names, and the step of a reset call. -/
theorem resetValues : Obligations.ResetValues := by
  refine ⟨rfl, rfl, rfl, rfl, rfl, State.reset_memories_empty, fun s => ⟨s.applyReset_frame, ?blk, ?seq, ?sym, ?width, ?height,
    ?len, fun more => step_of_reset_call⟩⟩
  case blk => exact afterReset_cases .blk (s.resets + 1) s.blk _
  case seq => exact afterResetOption_kept_or_fresh .seq (s.resets + 1) s.seq _
  case sym => exact afterReset_cases .sym (s.resets + 1) s.sym _
  case width => exact afterResetOption_kept_or_fresh .width (s.resets + 1) s.width _
  case height => exact afterResetOption_kept_or_fresh .height (s.resets + 1) s.height _
  case len => exact afterResetOption_kept_or_fresh .len (s.resets + 1) s.len _

end Sys2Proof.Machine
end

section
/-! PROOF. R77: a value's byte is its low eight bits, a byte's value their signed reading, and `ValueByteMapping`. -/

namespace Sys2Proof.Machine

/-- R77: the byte of any value, whether or not it decodes back to it. -/
theorem encodeValue_toNat (v : Int) : ((encodeValue v).toNat : Int) = v % 256 := by
  rw [encodeValue, BitVec.toNat_ofInt]
  omega

/-- R12, R77: `decodeValue` is the sign extension of the byte. -/
theorem decodeValue_eq_toInt (b : Byte) : decodeValue b = b.toInt := by
  rw [decodeValue, BitVec.toInt_eq_toNat_cond]
  split <;> split <;> omega

/-- What the byte of any value decodes to: the value modulo 256 in the range of a signed byte. -/
theorem decodeValue_encodeValue_eq_bmod (v : Int) : decodeValue (encodeValue v) = v.bmod 256 := by
  rw [decodeValue_eq_toInt, encodeValue, BitVec.toInt_ofInt]

/-- R77: the bytes carry the values of the signed byte range unchanged. -/
theorem decodeValue_encodeValue {v : Int} (hlo : -128 ≤ v) (hhi : v ≤ 127) : decodeValue (encodeValue v) = v := by
  rw [decodeValue_encodeValue_eq_bmod, Int.bmod_eq_of_le] <;> omega

/-- Settles O43: the byte is the residue of any value, the signed range is its own residue, and the decoder is the printed
case distinction. -/
theorem valueByteMapping : Obligations.ValueByteMapping :=
  ⟨fun v hlo hhi => ⟨encodeValue_toNat v, decodeValue_encodeValue hlo hhi⟩, fun _ => rfl⟩

end Sys2Proof.Machine
end

section
/-! PROOF. R83, R84, R85: what the entries of the two scan tables are to each other, and `ZigzagTables`. The entries themselves
are compared by evaluation; that `ZZ` has no entry twice follows from its inverse. -/

namespace Sys2Proof.Machine

/-- R84: every entry is the row-major index of a place of the block. -/
theorem zz_lt : ∀ k : Fin 64, zz[k] < 64 := by decide

/-- R85: `ZZINV` finds the scan position of the index that `ZZ` holds there. -/
theorem zzinv_zz : ∀ k : Fin 64, zzinv[zz[k]]? = some k.val := by decide

/-- R85: at the scan position that `ZZINV` gives for an index, `ZZ` holds that index. -/
theorem zz_zzinv : ∀ i : Fin 64, zz[zzinv[i]]? = some i.val := by decide

/-- No place of the block is scanned twice, since `ZZINV` tells the scan position from the place. -/
theorem zz_injective {j k : Fin 64} (h : zz[j] = zz[k]) : j = k := by
  have hpos : some j.val = some k.val := by
    calc some j.val = zzinv[zz[j]]? := (zzinv_zz j).symm
      _ = zzinv[zz[k]]? := congrArg (zzinv[·]?) h
      _ = some k.val := zzinv_zz k
  exact Fin.ext (Option.some.inj hpos)

theorem zz_nodup : zz.toList.Nodup := by
  rw [List.nodup_iff_injective_getElem]
  intro j k h
  have hjk := zz_injective (j := j.cast zz.length_toList) (k := k.cast zz.length_toList) (by simpa using h)
  exact Fin.ext (Fin.ext_iff.mp hjk)

/-- R83: the place `j` comes after the place `i` in the sweep over the anti-diagonals, which goes up an even one and down an
odd one. -/
def SweptBefore (i j : Nat) : Prop :=
  antiDiagonal i < antiDiagonal j
  ∨ (antiDiagonal i = antiDiagonal j ∧ if antiDiagonal i % 2 = 0 then j / 8 < i / 8 else i / 8 < j / 8)

/-- R83: each scan position holds a place that the sweep visits before the next one's. -/
theorem zz_sweptBefore_next : ∀ k : Fin 63, SweptBefore zz[k.val] zz[k.val + 1] := by
  unfold SweptBefore
  decide

/-- Settles O34: the two tables undo each other entry by entry, so `ZZ` has no entry twice, and its neighbours stand in the
order of the sweep. -/
theorem zigzagTables : Obligations.ZigzagTables :=
  ⟨zz_nodup, zz_lt, zzinv_zz, zz_zzinv, fun k hk => zz_sweptBefore_next ⟨k, by omega⟩⟩

end Sys2Proof.Machine
end

section
/-! PROOF. R101, R103, R104, R106: the colour formulas and the cast over the reals, the machine's cast, and `ColourFormulas`,
`ColourRanges`, `Cast8ClampsThenCasts`. -/

namespace Sys2Proof.Machine

/-! ### The six formulas -/

/-- R14: over the reals a legal evaluation of a channel has the value of the printed formula. -/
theorem channelValue_of_allLegal {expr : Site → Expr} (h : allLegal expr) (ch : Channel) (a b c : ℝ) :
    channelValue (exactDatapath expr) ch a b c = evalExpr exactNum (refConst exactNum) (three a b c) (channelExpr ch) :=
  isEvaluation_real (h (.pixel ch)) (three a b c)

@[simp] theorem evalExpr_lit (operand : Nat → ℝ) (num : Int) (den : Nat) :
    evalExpr exactNum (refConst exactNum) operand (lit num den) = (num : ℝ) / den := by
  simp [lit, evalExpr, refConst]

/-- R101: what the printed forward formulas are over the reals. -/
theorem evalExpr_forward (r g b : ℝ) :
    evalExpr exactNum (refConst exactNum) (three r g b) (channelExpr .y) = 0.299 * r + 0.587 * g + 0.114 * b
    ∧ evalExpr exactNum (refConst exactNum) (three r g b) (channelExpr .cb)
      = -0.168736 * r - 0.331264 * g + 0.5 * b + 128
    ∧ evalExpr exactNum (refConst exactNum) (three r g b) (channelExpr .cr)
      = 0.5 * r - 0.418688 * g - 0.081312 * b + 128 := by
  simp only [channelExpr, evalExpr, evalExpr_lit, three, exactNum_add, exactNum_sub, exactNum_mul]
  norm_num

/-- R104: what the printed inverse formulas are over the reals. -/
theorem evalExpr_inverse (y cb cr : ℝ) :
    evalExpr exactNum (refConst exactNum) (three y cb cr) (channelExpr .red) = y + 1.4 * (cr - 128)
    ∧ evalExpr exactNum (refConst exactNum) (three y cb cr) (channelExpr .green)
      = y - 0.343 * (cb - 128) - 0.711 * (cr - 128)
    ∧ evalExpr exactNum (refConst exactNum) (three y cb cr) (channelExpr .blue) = y + 1.765 * (cb - 128) := by
  simp only [channelExpr, evalExpr, evalExpr_lit, three, exactNum_add, exactNum_sub, exactNum_mul]
  norm_num

/-- Settles O17: a legal evaluation has the printed formula's value, and the printed formulas have these. -/
theorem colourFormulas : Obligations.ColourFormulas := by
  intro expr h
  simp only [channelValue_of_allLegal h]
  exact ⟨evalExpr_forward, evalExpr_inverse⟩

/-- Settles O18: the forward formulas have weights that add up to 1 for `Y` and to 0 for the two chroma channels, so gray pixels
are fixed; and each is largest and smallest where the channels of positive and of negative weight are at opposite ends. -/
theorem colourRanges : Obligations.ColourRanges := by
  intro expr h
  have forward := (colourFormulas expr h).1
  have hy r g b := (forward r g b).1
  have hcb r g b := (forward r g b).2.1
  have hcr r g b := (forward r g b).2.2
  simp only [hy, hcb, hcr]
  refine ⟨fun r g b hr0 hr1 hg0 hg1 hb0 hb1 => ?ranges, ?ends, fun g => ?gray⟩
  case ranges => refine ⟨?_, ?_, ?_, ?_, ?_, ?_⟩ <;> linarith
  case ends => norm_num
  case gray => refine ⟨?_, ?_, ?_⟩ <;> ring

/-! ### The clamp and the cast -/

theorem exactNum_le (a b : ℝ) : exactNum.le a b = true ↔ a ≤ b := decide_eq_true_iff

theorem b64_le_fin (a b : Rat) : b64.le (.fin a) (.fin b) = true ↔ a ≤ b := decide_eq_true_iff

/-- R12: over the reals the two comparisons of the clamp are a minimum and a maximum. -/
theorem clamp_exactNum (v lo hi : ℝ) : clamp exactNum v lo hi = max lo (min hi v) := by
  simp only [clamp, exactNum_le, max_def, min_def]
  split_ifs <;> order

/-- R12: and likewise on finite values of the machine. -/
theorem clamp_b64 (q lo hi : Rat) : clamp b64 (.fin q) (.fin lo) (.fin hi) = .fin (max lo (min hi q)) := by
  have hmin : (if b64.le (.fin hi) (.fin q) then Real64.fin hi else .fin q) = .fin (min hi q) := by
    simp only [b64_le_fin, min_def, apply_ite Real64.fin]
  have hmax (m : Rat) : (if b64.le (.fin m) (.fin lo) then Real64.fin lo else .fin m) = .fin (max lo m) := by
    simp only [b64_le_fin, max_comm lo m, max_def, apply_ite Real64.fin]
  rw [clamp, hmin, hmax]

/-- R13: rounding does not leave an interval whose ends are integers. -/
theorem exactNum_rnd_mem_Icc {lo hi : Int} {x : ℝ} (hx : x ∈ Set.Icc (lo : ℝ) hi) (tie : RoundTie) :
    exactNum.rnd tie x ∈ Set.Icc lo hi := by
  obtain ⟨hlo, hhi⟩ := abs_le.mp (exactNum_rnd_near tie x)
  constructor
  · have h : (lo : ℝ) < (exactNum.rnd tie x : ℝ) + 1 := by linarith [hx.1]
    exact Int.lt_add_one_iff.mp (by exact_mod_cast h)
  · have h : (exactNum.rnd tie x : ℝ) < (hi : ℝ) + 1 := by linarith [hx.2]
    exact Int.lt_add_one_iff.mp (by exact_mod_cast h)

theorem exactNum_trunc_of_nonneg {x : ℝ} (h : 0 ≤ x) : exactNum.trunc x = ⌊x⌋ := by rw [exactNum_trunc, if_pos h]

theorem truncRat_of_nonneg {q : Rat} (h : 0 ≤ q) : truncRat q = ⌊q⌋ := by rw [truncRat, if_pos h]; rfl

/-- R106 with `CAST8 = trunc`. -/
theorem cast8_exactNum_trunc {P : Params} (h : P.cast8 = .trunc) (v : ℝ) :
    cast8 exactNum P v = ⌊max 0 (min 255 v)⌋ := by
  simp [cast8, h, clamp_exactNum, exactNum_trunc_of_nonneg]

/-- R106 with `CAST8 = round`. -/
theorem cast8_exactNum_round {P : Params} (h : P.cast8 = .round) (v : ℝ) :
    cast8 exactNum P v = exactNum.rnd P.roundTie (max 0 (min 255 v)) := by
  simp [cast8, h, clamp_exactNum]

/-- R106: the cast of a clamped value is that of a byte under both settings. -/
theorem cast8_exactNum_mem_Icc (P : Params) (v : ℝ) : cast8 exactNum P v ∈ Set.Icc (0 : Int) 255 := by
  have hm : max 0 (min 255 v) ∈ Set.Icc ((0 : Int) : ℝ) (255 : Int) := by simp
  cases h : P.cast8 with
  | trunc =>
    rw [cast8_exactNum_trunc h]
    exact ⟨Int.le_floor.mpr hm.1, Int.floor_le_iff.mpr (hm.2.trans_lt (lt_add_one _))⟩
  | round =>
    rw [cast8_exactNum_round h]
    exact exactNum_rnd_mem_Icc hm P.roundTie

/-- R106 on the machine, whose `CAST8` is `trunc`. -/
theorem cast8_b64_fin (q : Rat) : cast8 b64 specParams (.fin q) = ⌊max 0 (min 255 q)⌋ := by
  have h0 : b64.ofInt 0 = .fin 0 := ofInt64_eq (n := 0) (by norm_num)
  have h255 : b64.ofInt 255 = .fin 255 := ofInt64_eq (n := 255) (by norm_num)
  rw [← truncRat_of_nonneg (le_max_left 0 _)]
  simp only [cast8, specParams, h0, h255, clamp_b64]
  rfl

/-- Settles O16: the two settings over the reals, the byte range, and the machine's cast. -/
theorem cast8ClampsThenCasts : Obligations.Cast8ClampsThenCasts :=
  ⟨fun P v => ⟨fun h => cast8_exactNum_trunc h v, fun h => cast8_exactNum_round h v, cast8_exactNum_mem_Icc P v⟩,
    cast8_b64_fin⟩

end Sys2Proof.Machine
end

section
/-! PROOF. R100, R102, R105, R108: what `RGB2YCC` and `YCC2RGB` write, when `YCC2RGB` raises `ContractViolation`, and
`Rgb2yccConverts`, `Ycc2rgbConverts`, `Ycc2rgbContractViolation`. -/

namespace Sys2Proof.Machine

/-! ### Loops and lists of records of one length -/

/-- A loop from 0 whose elements all come to some value comes to the list of these values. -/
theorem exists_forEach_ok {α : Type} {f : Nat → Attempt α} {n : Nat} (h : ∀ i, i < n → ∃ a, f i = .ok a) :
    ∃ vs, forEach f 0 n = .ok vs ∧ vs.length = n ∧ ∀ i (hi : i < vs.length), f i = .ok vs[i] := by
  choose a ha using h
  have hloop : forEach f 0 n = .ok (List.ofFn fun i : Fin n => a i i.2) :=
    forEach_eq_ok.mpr ⟨List.length_ofFn, fun i hi => by simpa using ha i _⟩
  obtain ⟨hlen, hvs⟩ := forEach_eq_ok.mp hloop
  exact ⟨_, hloop, hlen, fun i hi => by simpa only [Nat.zero_add] using hvs i hi⟩

theorem length_flatten_of_length {α : Type} {ls : List (List α)} {k : Nat} (h : ∀ l ∈ ls, l.length = k) :
    ls.flatten.length = k * ls.length := by
  rw [List.length_flatten, List.map_eq_replicate_iff.mpr h, List.sum_replicate, smul_eq_mul, Nat.mul_comm]

/-- Element `j` of list `i` stands at place `k * i + j` of the lists put together, where each list has `k` elements. -/
theorem getElem?_flatten_of_length {α : Type} {ls : List (List α)} {k i j : Nat} (h : ∀ l ∈ ls, l.length = k)
    (hi : i < ls.length) (hj : j < k) : ls.flatten[k * i + j]? = ls[i][j]? := by
  induction ls generalizing i with
  | nil => simp at hi
  | cons l ls ih =>
    obtain ⟨hl, hls⟩ := List.forall_mem_cons.mp h
    cases i with
    | zero => simp [List.getElem?_append_left (hl ▸ hj)]
    | succ i =>
      have hplace : k * (i + 1) + j - l.length = k * i + j := by rw [hl, Nat.mul_succ]; omega
      rw [List.flatten_cons, List.getElem?_append_right (by rw [hl, Nat.mul_succ]; omega), hplace,
        ih hls (by simpa using hi), List.getElem_cons_succ]

/-! ### `RGB2YCC` -/

theorem readPixel_eq_ok {m : ByteMem} {i : Nat} {r g b : Byte} :
    readPixel m i = .ok (r, g, b)
      ↔ Mem.read m (3 * i) = some r ∧ Mem.read m (3 * i + 1) = some g ∧ Mem.read m (3 * i + 2) = some b := by
  simp [readPixel, Attempt.bind_eq_ok, Attempt.map_eq_ok, readByte_eq_ok]

/-- R102: a byte is the real 0..255 that it reads as, without rounding. -/
theorem byteReal_b64 (b : Byte) : byteReal b64 b = .fin b.toNat := by
  have hb : |(b.toNat : Int)| ≤ 2 ^ 53 := by have := b.isLt; rw [Nat.abs_cast]; omega
  have h := ofInt64_eq hb
  rwa [Int.cast_natCast] at h

/-- R100, R102: sample `i` of a channel is a function of pixel `i` alone. -/
theorem read_ofList_channelPlane (ch : Channel) (pixels : List (Byte × Byte × Byte)) (i : Nat) :
    (Mem.ofList (channelPlane machineDatapath ch pixels)).read i
      = (pixels[i]?).map fun p =>
          channelValue machineDatapath ch (.fin p.1.toNat) (.fin p.2.1.toNat) (.fin p.2.2.toNat) := by
  have hnum : machineDatapath.num = b64 := rfl
  rw [Mem.read_ofList, channelPlane, List.getElem?_map]
  simp only [hnum, byteReal_b64]

/-- `RGB2YCC` where the loop over the pixels comes to a list. -/
theorem exec_rgb2ycc_of_pixels {s : State} {w h : Half} (hw : s.width = some w) (hh : s.height = some h)
    {pixels : List (Byte × Byte × Byte)} (hp : forEach (readPixel s.raster) 0 (w.toNat * h.toNat) = .ok pixels) :
    exec .rgb2ycc s = .next
      { s with
        planeY := Mem.ofList (channelPlane machineDatapath .y pixels)
        planeCb := Mem.ofList (channelPlane machineDatapath .cb pixels)
        planeCr := Mem.ofList (channelPlane machineDatapath .cr pixels)
        status := statusDone s.status
        opidx := s.opidx + 1 } := by
  rw [exec_rgb2ycc, unitRgb2ycc, State.withDims_of_some hw hh, hp, Attempt.settle_ok]
  rfl

/-- Settles O13: the loop reads every pixel of a raster that is there, and each plane is the list of the pixels' values. -/
theorem rgb2yccConverts : Obligations.Rgb2yccConverts := by
  intro s w h hw hh hraster
  have hread : ∀ i, i < w.toNat * h.toNat → ∃ p, readPixel s.raster i = .ok p := by
    intro i hi
    obtain ⟨r, hr⟩ := Option.isSome_iff_exists.mp (hraster (3 * i) (by omega))
    obtain ⟨g, hg⟩ := Option.isSome_iff_exists.mp (hraster (3 * i + 1) (by omega))
    obtain ⟨b, hb⟩ := Option.isSome_iff_exists.mp (hraster (3 * i + 2) (by omega))
    exact ⟨(r, g, b), readPixel_eq_ok.mpr ⟨hr, hg, hb⟩⟩
  obtain ⟨pixels, hloop, hlen, hpixel⟩ := exists_forEach_ok hread
  refine ⟨_, _, _, exec_rgb2ycc_of_pixels hw hh hloop, fun i hi r g b hr hg hb => ?inside, fun i hi => ?past⟩
  case inside =>
    rw [← hlen] at hi
    have hrgb : pixels[i]? = some (r, g, b) := by
      rw [List.getElem?_eq_getElem hi]
      exact congrArg some (Attempt.ok.inj ((hpixel i hi).symm.trans (readPixel_eq_ok.mpr ⟨hr, hg, hb⟩)))
    simp [read_ofList_channelPlane, hrgb]
  case past => simp [read_ofList_channelPlane, hlen, hi]

/-! ### `YCC2RGB` -/

/-- The three bytes of a pixel, from its own three values alone (R100). -/
def pixelBytes (M : Setting) (y cb cr : Real64) : List Byte :=
  [channelByte M .red y cb cr, channelByte M .green y cb cr, channelByte M .blue y cb cr]

/-- R105, R108: the loop body comes to bytes exactly for a pixel that holds its three values. -/
theorem ycc2rgbPixel_eq_ok {M : Setting} {s : State} {i : Nat} {bytes : List Byte} :
    ycc2rgbPixel M s i = .ok bytes ↔ ∃ y cb cr, s.planeY.read i = some y ∧ s.planeCb.read i = some cb
      ∧ s.planeCr.read i = some cr ∧ pixelBytes M y cb cr = bytes := by
  unfold ycc2rgbPixel
  cases s.planeCb.read i with
  | none => simp
  | some cb =>
    cases s.planeCr.read i with
    | none => simp
    | some cr => simp [Attempt.map_eq_ok, readReal_eq_ok, pixelBytes]

/-- R108: a pixel without chroma raises the fault, whatever else it holds. -/
theorem ycc2rgbPixel_raised (M : Setting) {s : State} {i : Nat} (h : s.planeCb.read i = none ∨ s.planeCr.read i = none) :
    ycc2rgbPixel M s i = .raised .contractViolation i := by
  unfold ycc2rgbPixel
  rcases h with hcb | hcr
  · rw [hcb]
  · rw [hcr]; cases s.planeCb.read i <;> rfl

/-- Pixel `i` holds a finite value in each of the three planes (R15, U12). -/
def State.holdsPixel (s : State) (i : Nat) : Prop :=
  ∃ y cb cr : Rat, s.planeY.read i = some (.fin y) ∧ s.planeCb.read i = some (.fin cb) ∧ s.planeCr.read i = some (.fin cr)

theorem State.holdsPixel.exists_bytes {s : State} {i : Nat} (h : s.holdsPixel i) (M : Setting) :
    ∃ bytes, ycc2rgbPixel M s i = .ok bytes := by
  obtain ⟨y, cb, cr, hy, hcb, hcr⟩ := h
  exact ⟨_, ycc2rgbPixel_eq_ok.mpr ⟨_, _, _, hy, hcb, hcr, rfl⟩⟩

theorem State.holdsPixel.isFinite {s : State} {i : Nat} (h : s.holdsPixel i) {v : Real64}
    (hv : s.planeY.read i = some v ∨ s.planeCb.read i = some v ∨ s.planeCr.read i = some v) : v.isFinite = true := by
  obtain ⟨y, cb, cr, hy, hcb, hcr⟩ := h
  rw [hy, hcb, hcr] at hv
  rcases hv with hv | hv | hv <;> exact Option.some.inj hv ▸ rfl

/-- `YCC2RGB` where no operand plane holds a value that is not finite (R15): the outcome is that of the loop over the pixels. -/
theorem exec_ycc2rgb_of_finite {s : State} {w h : Half} (hw : s.width = some w) (hh : s.height = some h)
    (hfin : ∀ (k : Nat) (v : Real64), k < w.toNat * h.toNat →
      s.planeY.read k = some v ∨ s.planeCb.read k = some v ∨ s.planeCr.read k = some v → v.isFinite = true) :
    exec .ycc2rgb s
      = (forEach (ycc2rgbPixel machineSetting s) 0 (w.toNat * h.toNat)).settle { s with raster := [] } fun pixels =>
          { s with raster := Mem.ofList pixels.flatten } := by
  rw [exec_ycc2rgb, unitYcc2rgb, State.withDims_of_some hw hh,
    withPlane_of_finite fun k hk v hv => hfin k v hk (.inl hv),
    withPlane_of_finite fun k hk v hv => hfin k v hk (.inr (.inl hv)),
    withPlane_of_finite fun k hk v hv => hfin k v hk (.inr (.inr hv))]

/-- Settles O14: every pixel comes to three bytes, and `RASTER` is these triples one after the other. -/
theorem ycc2rgbConverts : Obligations.Ycc2rgbConverts := by
  intro s w h hw hh (hplanes : ∀ i, i < w.toNat * h.toNat → s.holdsPixel i)
  obtain ⟨pixels, hloop, hlen, hpixel⟩ := exists_forEach_ok fun i hi => (hplanes i hi).exists_bytes machineSetting
  have hthree : ∀ bytes ∈ pixels, bytes.length = 3 := by
    intro bytes hmem
    obtain ⟨i, hi, rfl⟩ := List.mem_iff_getElem.mp hmem
    obtain ⟨y, cb, cr, -, -, -, hbytes⟩ := ycc2rgbPixel_eq_ok.mp (hpixel i hi)
    rw [← hbytes]; rfl
  refine ⟨Mem.ofList pixels.flatten, ?completes, fun i hi y cb cr hy hcb hcr => ?inside, fun a ha => ?past⟩
  case completes =>
    rw [exec_ycc2rgb_of_finite hw hh fun k v hk => (hplanes k hk).isFinite, hloop, Attempt.settle_ok]
    rfl
  case inside =>
    rw [← hlen] at hi
    have hbytes : pixels[i] = pixelBytes machineSetting y cb cr :=
      Attempt.ok.inj ((hpixel i hi).symm.trans (ycc2rgbPixel_eq_ok.mpr ⟨y, cb, cr, hy, hcb, hcr, rfl⟩))
    have hplace (j : Nat) (hj : j < 3) :
        Mem.read (Mem.ofList pixels.flatten) (3 * i + j) = (pixelBytes machineSetting y cb cr)[j]? := by
      rw [Mem.read_ofList, getElem?_flatten_of_length hthree hi hj, hbytes]
    exact ⟨hplace 0 (by decide), hplace 1 (by decide), hplace 2 (by decide)⟩
  case past =>
    rw [Mem.read_ofList, List.getElem?_eq_none_iff, length_flatten_of_length hthree, hlen]
    exact ha

/-- Settles O15: the pixels before come to bytes, so the loop ends at the first one without chroma. -/
theorem ycc2rgbContractViolation : Obligations.Ycc2rgbContractViolation := by
  intro s w h i hw hh hi hfin (hbefore : ∀ j, j < i → s.holdsPixel j) hnone
  have hok : ∀ j, j < i → ∃ bytes, ycc2rgbPixel machineSetting s (0 + j) = .ok bytes := fun j hj => by
    simpa only [Nat.zero_add] using (hbefore j hj).exists_bytes machineSetting
  have hraised : ycc2rgbPixel machineSetting s (0 + i) = .raised .contractViolation i := by
    rw [Nat.zero_add]
    exact ycc2rgbPixel_raised machineSetting hnone
  choose! bytes hbytes using hok
  have hloop : forEach (ycc2rgbPixel machineSetting s) 0 (w.toNat * h.toNat) = .raised .contractViolation i :=
    forEach_raised (g := bytes) hi (fun j hj => by rw [hbytes j hj, Nat.zero_add]) hraised
  rw [exec_ycc2rgb_of_finite hw hh hfin, hloop, Attempt.settle_raised]
  rfl

end Sys2Proof.Machine
end

section
/-! PROOF. R111, R114 to R117: what `CDOWN2` and `CUP2` write, and `Cdown2Decimates`, `Cup2Replicates`,
`Cup2ReplicatePolicy`, `DecimateThenReplicate`. -/

namespace Sys2Proof.Machine

/-! ### Places of a plane: element `(x, y)` of a plane of width `w` stands at `y * w + x` -/

theorem place_lt_area {w h x y : Nat} (hx : x < w) (hy : y < h) : y * w + x < w * h :=
  calc y * w + x < (y + 1) * w := by rw [Nat.succ_mul]; omega
    _ ≤ h * w := Nat.mul_le_mul_right w hy
    _ = w * h := Nat.mul_comm h w

theorem column_of_place {w x : Nat} (hx : x < w) (y : Nat) : (y * w + x) % w = x := by
  rw [Nat.mul_add_mod_self_right, Nat.mod_eq_of_lt hx]

theorem row_of_place {w x : Nat} (hx : x < w) (y : Nat) : (y * w + x) / w = y := by
  rw [Nat.add_comm, Nat.add_mul_div_right x y (Nat.zero_lt_of_lt hx), Nat.div_eq_of_lt hx, Nat.zero_add]

theorem exists_place {w h k : Nat} (hk : k < w * h) : ∃ x y, x < w ∧ y < h ∧ y * w + x = k :=
  ⟨k % w, k / w, Nat.mod_lt k (Nat.pos_of_lt_mul_right hk), Nat.div_lt_of_lt_mul hk, Nat.div_add_mod' k w⟩

/-! ### `CDOWN2` on one plane -/

/-- R111: `half` holds the top-left samples of the 2x2 blocks of `full`, unchanged, and no other value (log 17). -/
structure Decimated (full half : Mem Real64) (w h : Nat) : Prop where
  read_kept : ∀ i j, i < w / 2 → j < h / 2 → half.read (j * (w / 2) + i) = full.read (2 * j * w + 2 * i)
  read_past : ∀ k, w / 2 * (h / 2) ≤ k → half.read k = none

/-- Where the kept samples hold values the loop reads each of them, whatever the others hold (log 21). -/
theorem exists_decimate_ok (place : Place) {full : Mem Real64} {w h : Nat}
    (hkept : ∀ i j, i < w / 2 → j < h / 2 → ∃ v, full.read (2 * j * w + 2 * i) = some v) :
    ∃ vs, decimate place full w h = .ok vs ∧ Decimated full (Mem.ofList vs) w h := by
  have hread : ∀ k, k < w / 2 * (h / 2) →
      ∃ v, readReal place full (2 * (k / (w / 2)) * w + 2 * (k % (w / 2))) = .ok v := by
    intro k hk
    obtain ⟨v, hv⟩ := hkept (k % (w / 2)) (k / (w / 2)) (Nat.mod_lt k (Nat.pos_of_lt_mul_right hk))
      (Nat.div_lt_of_lt_mul hk)
    exact ⟨v, readReal_eq_ok.mpr hv⟩
  obtain ⟨vs, hloop, hlen, hvs⟩ := exists_forEach_ok hread
  refine ⟨vs, hloop, fun i j hi hj => ?kept, fun k hk => ?past⟩
  case kept =>
    have hlt : j * (w / 2) + i < vs.length := hlen ▸ place_lt_area hi hj
    have hsample := readReal_eq_ok.mp (hvs _ hlt)
    rw [row_of_place hi, column_of_place hi] at hsample
    rw [Mem.read_ofList, List.getElem?_eq_getElem hlt, hsample]
  case past => rw [Mem.read_ofList, List.getElem?_eq_none_iff, hlen]; exact hk

/-- No value in the chroma planes is infinite or NaN (R15). -/
def State.finiteChroma (s : State) (n : Nat) : Prop :=
  ∀ (k : Nat) (v : Real64), k < n → s.planeCb.read k = some v ∨ s.planeCr.read k = some v → v.isFinite = true

/-- The top-left sample of every 2x2 block of both chroma planes holds a finite value. -/
def State.holdsKept (s : State) (w h : Nat) : Prop :=
  ∀ i j, i < w / 2 → j < h / 2 → ∃ cb cr : Rat,
    s.planeCb.read (2 * j * w + 2 * i) = some (.fin cb) ∧ s.planeCr.read (2 * j * w + 2 * i) = some (.fin cr)

/-- `CDOWN2` on the machine: it completes, and both half planes are decimated. -/
theorem State.holdsKept.exists_exec_cdown2 {s : State} {w h : Half} (hkept : s.holdsKept w.toNat h.toNat)
    (hw : s.width = some w) (hh : s.height = some h) (hfin : s.finiteChroma (w.toNat * h.toNat)) :
    ∃ pb pr : Mem Real64,
      exec .cdown2 s = .next { s with planeCbh := pb, planeCrh := pr, status := statusDone s.status, opidx := s.opidx + 1 }
      ∧ Decimated s.planeCb pb w.toNat h.toNat ∧ Decimated s.planeCr pr w.toNat h.toNat := by
  choose! cb cr hcb hcr using hkept
  obtain ⟨cbs, hcbs, hhalfCb⟩ := exists_decimate_ok .planeCb fun i j hi hj => ⟨_, hcb i j hi hj⟩
  obtain ⟨crs, hcrs, hhalfCr⟩ := exists_decimate_ok .planeCr fun i j hi hj => ⟨_, hcr i j hi hj⟩
  refine ⟨_, _, ?_, hhalfCb, hhalfCr⟩
  rw [exec_cdown2, unitCdown2, State.withDims_of_some hw hh,
    withPlane_of_finite fun k hk v hv => hfin k v hk (.inl hv),
    withPlane_of_finite fun k hk v hv => hfin k v hk (.inr hv), hcbs, hcrs,
    Attempt.bind_ok, Attempt.map_ok, Attempt.settle_ok]
  rfl

/-- Settles O20: each half plane is the list of the kept samples that the loop reads. -/
theorem cdown2Decimates : Obligations.Cdown2Decimates := by
  refine ⟨by decide, fun s w h hw hh (hfin : s.finiteChroma _) (hkept : s.holdsKept w.toNat h.toNat) => ?_⟩
  obtain ⟨pb, pr, hnext, hcb, hcr⟩ := hkept.exists_exec_cdown2 hw hh hfin
  exact ⟨pb, pr, hnext, fun i j hi hj => ⟨hcb.read_kept i j hi hj, hcr.read_kept i j hi hj⟩,
    fun k hk => ⟨hcb.read_past k hk, hcr.read_past k hk⟩⟩

/-! ### `CUP2` on one plane -/

/-- R114, R115: the source of element `(x, y)` under `ODD_DIM_POLICY = fault`. -/
theorem upsampleSource_fault {P : Params} (hP : P.oddDim = .fault) {w x : Nat} (hx : x < w) (h y : Nat) :
    upsampleSource P w h (y * w + x)
      = if x < 2 * (w / 2) ∧ y < 2 * (h / 2) then some (y / 2 * (w / 2) + x / 2) else none := by
  simp only [upsampleSource, hP, column_of_place hx, row_of_place hx]

/-- R116: the source of element `(x, y)` under `ODD_DIM_POLICY = replicate`. -/
theorem upsampleSource_replicate {P : Params} (hP : P.oddDim = .replicate) {w x : Nat} (hx : x < w) (h y : Nat) :
    upsampleSource P w h (y * w + x)
      = if 1 ≤ w / 2 ∧ 1 ≤ h / 2 then some (min (y / 2) (h / 2 - 1) * (w / 2) + min (x / 2) (w / 2 - 1)) else none := by
  simp only [upsampleSource, hP, column_of_place hx, row_of_place hx]

/-- Under both policies `CUP2` reads inside the half plane alone. -/
theorem upsampleSource_lt {P : Params} {w h i k : Nat} (hk : upsampleSource P w h i = some k) : k < w / 2 * (h / 2) := by
  unfold upsampleSource at hk
  cases hP : P.oddDim <;> simp only [hP, Option.ite_none_right_eq_some, Option.some.injEq] at hk
  case fault =>
    obtain ⟨⟨hx, hy⟩, rfl⟩ := hk
    exact place_lt_area (by omega) (by omega)
  case replicate =>
    obtain ⟨⟨hw, hh⟩, rfl⟩ := hk
    exact place_lt_area (by omega) (by omega)

/-- `full` holds at every element what `half` holds at the element's source, and no other value (log 17). -/
structure Upsampled (P : Params) (half full : Mem Real64) (w h : Nat) : Prop where
  read_source : ∀ i, i < w * h → full.read i = (upsampleSource P w h i).bind half.read
  read_past : ∀ i, w * h ≤ i → full.read i = none

theorem Upsampled.read_fault {P : Params} {half full : Mem Real64} {w h x y : Nat} (hfull : Upsampled P half full w h)
    (hP : P.oddDim = .fault) (hx : x < w) (hy : y < h) :
    full.read (y * w + x)
      = if x < 2 * (w / 2) ∧ y < 2 * (h / 2) then half.read (y / 2 * (w / 2) + x / 2) else none := by
  rw [hfull.read_source _ (place_lt_area hx hy), upsampleSource_fault hP hx]
  split <;> rfl

theorem Upsampled.read_replicate {P : Params} {half full : Mem Real64} {w h x y : Nat} (hfull : Upsampled P half full w h)
    (hP : P.oddDim = .replicate) (hx : x < w) (hy : y < h) :
    full.read (y * w + x)
      = if 1 ≤ w / 2 ∧ 1 ≤ h / 2 then
          half.read (min (y / 2) (h / 2 - 1) * (w / 2) + min (x / 2) (w / 2 - 1)) else none := by
  rw [hfull.read_source _ (place_lt_area hx hy), upsampleSource_replicate hP hx]
  split <;> rfl

/-- The loop reads every source of a half plane that holds its values. -/
theorem exists_replicate_ok (P : Params) (place : Place) {half : Mem Real64} {w h : Nat}
    (hhalf : ∀ k, k < w / 2 * (h / 2) → ∃ v, half.read k = some v) :
    ∃ vs, replicate P place half w h = .ok vs ∧ Upsampled P half (Mem.place 0 vs) w h := by
  have hloop : replicate P place half w h
      = .ok ((List.range (w * h)).map fun i => (upsampleSource P w h i).bind half.read) := by
    refine forEach_eq_ok.mpr ⟨by simp, fun i hi => ?_⟩
    rw [List.getElem_map, List.getElem_range, Nat.zero_add]
    cases hsource : upsampleSource P w h i with
    | none => rfl
    | some k =>
      obtain ⟨v, hv⟩ := hhalf k (upsampleSource_lt hsource)
      simp [readReal_eq_ok.mpr hv, hv]
  refine ⟨_, hloop, fun i hi => ?inside, fun i hi => ?past⟩
  case inside => simp [Mem.read_place, hi]
  case past => simp [Mem.read_place, hi]

/-- Both half planes hold their values, finite ones (R15, U12). -/
def State.holdsHalves (s : State) (w h : Nat) : Prop :=
  ∀ k, k < w / 2 * (h / 2) → ∃ cb cr : Rat, s.planeCbh.read k = some (.fin cb) ∧ s.planeCrh.read k = some (.fin cr)

/-- `CUP2` under any parameters: it completes, and both full planes are replicated. -/
theorem State.holdsHalves.exists_unitCup2 {s : State} {w h : Half} (hhalf : s.holdsHalves w.toNat h.toNat) (P : Params)
    (hw : s.width = some w) (hh : s.height = some h) :
    ∃ pb pr : Mem Real64,
      unitCup2 P s = .next { s with planeCb := pb, planeCr := pr, status := statusDone s.status, opidx := s.opidx + 1 }
      ∧ Upsampled P s.planeCbh pb w.toNat h.toNat ∧ Upsampled P s.planeCrh pr w.toNat h.toNat := by
  choose! cb cr hcb hcr using hhalf
  obtain ⟨cbs, hcbs, hfullCb⟩ := exists_replicate_ok P .planeCbh fun k hk => ⟨_, hcb k hk⟩
  obtain ⟨crs, hcrs, hfullCr⟩ := exists_replicate_ok P .planeCrh fun k hk => ⟨_, hcr k hk⟩
  have hfiniteCb : ∀ k, k < w.toNat / 2 * (h.toNat / 2) → ∀ v, s.planeCbh.read k = some v → v.isFinite = true :=
    fun k hk v hv => Option.some.inj ((hcb k hk).symm.trans hv) ▸ rfl
  have hfiniteCr : ∀ k, k < w.toNat / 2 * (h.toNat / 2) → ∀ v, s.planeCrh.read k = some v → v.isFinite = true :=
    fun k hk v hv => Option.some.inj ((hcr k hk).symm.trans hv) ▸ rfl
  refine ⟨_, _, ?_, hfullCb, hfullCr⟩
  rw [unitCup2, State.withDims_of_some hw hh, withPlane_of_finite hfiniteCb, withPlane_of_finite hfiniteCr, hcbs, hcrs,
    Attempt.bind_ok, Attempt.map_ok, Attempt.settle_ok]
  rfl

/-- Settles O21: the elements of the full planes at the sources of the policy `fault`. -/
theorem cup2Replicates : Obligations.Cup2Replicates := by
  refine ⟨by decide, fun s w h hw hh (hhalf : s.holdsHalves w.toNat h.toNat) => ?_⟩
  obtain ⟨pb, pr, hnext, hcb, hcr⟩ := hhalf.exists_unitCup2 specParams hw hh
  exact ⟨pb, pr, hnext, fun x y hx hy => ⟨hcb.read_fault rfl hx hy, hcr.read_fault rfl hx hy⟩,
    fun i hi => ⟨hcb.read_past i hi, hcr.read_past i hi⟩⟩

/-- Settles O22: the elements of the full planes at the sources of the policy `replicate`. -/
theorem cup2ReplicatePolicy : Obligations.Cup2ReplicatePolicy := by
  intro P s w h hP hw hh (hhalf : s.holdsHalves w.toNat h.toNat)
  obtain ⟨pb, pr, hnext, hcb, hcr⟩ := hhalf.exists_unitCup2 P hw hh
  exact ⟨pb, pr, hnext, fun x y hx hy => ⟨hcb.read_replicate hP hx hy, hcr.read_replicate hP hx hy⟩,
    fun i hi => ⟨hcb.read_past i hi, hcr.read_past i hi⟩⟩

/-! ### The pair -/

/-- R117 on one plane: `CUP2` copies the kept sample of block `(i, j)` to each of the block's four elements. -/
theorem Decimated.read_upsampled {P : Params} {full half full' : Mem Real64} {w h i j a b : Nat}
    (hdown : Decimated full half w h) (hup : Upsampled P half full' w h) (hP : P.oddDim = .fault)
    (hi : i < w / 2) (hj : j < h / 2) (ha : a < 2) (hb : b < 2) :
    full'.read ((2 * j + b) * w + (2 * i + a)) = full.read (2 * j * w + 2 * i) := by
  have hcol : (2 * i + a) / 2 = i := by omega
  have hrow : (2 * j + b) / 2 = j := by omega
  rw [hup.read_fault hP (by omega) (by omega), if_pos ⟨by omega, by omega⟩, hrow, hcol, hdown.read_kept i j hi hj]

/-- After a decimation of samples that hold finite values both half planes hold finite values. -/
theorem State.holdsKept.holdsHalves {s t : State} {w h : Nat} (hkept : s.holdsKept w h)
    (hcb : Decimated s.planeCb t.planeCbh w h) (hcr : Decimated s.planeCr t.planeCrh w h) : t.holdsHalves w h := by
  intro k hk
  obtain ⟨i, j, hi, hj, rfl⟩ := exists_place hk
  obtain ⟨cb, cr, hcbv, hcrv⟩ := hkept i j hi hj
  exact ⟨cb, cr, (hcb.read_kept i j hi hj).trans hcbv, (hcr.read_kept i j hi hj).trans hcrv⟩

/-- Settles O23: the half planes that `CDOWN2` leaves hold finite values, so `CUP2` completes on them. -/
theorem decimateThenReplicate : Obligations.DecimateThenReplicate := by
  intro s w h hw hh (hfin : s.finiteChroma _) (hkept : s.holdsKept w.toNat h.toNat)
  obtain ⟨pb, pr, hdown, hcb, hcr⟩ := hkept.exists_exec_cdown2 hw hh hfin
  rw [hdown]
  have hhalf := hkept.holdsHalves (t := { s with
    planeCbh := pb, planeCrh := pr, status := statusDone s.status, opidx := s.opidx + 1 }) hcb hcr
  obtain ⟨_, _, hup, hupCb, hupCr⟩ := hhalf.exists_unitCup2 specParams hw hh
  exact ⟨_, hup, fun i j a b hi hj ha hb =>
    ⟨hcb.read_upsampled hupCb rfl hi hj ha hb, hcr.read_upsampled hupCr rfl hi hj ha hb⟩⟩

end Sys2Proof.Machine
end

section
/-! PROOF. R126, R129, R130: over the reals `DCT8F` multiplies a block by `A` and its transpose, `DCT8I` by the transpose and `A`,
and what such a product with an orthogonal matrix keeps; and `DctIsOrthogonal`. -/

namespace Sys2Proof.Machine

open Matrix

/-! ### Blocks of reals as matrices -/

/-- The block as a matrix: element `8 * x + y` in row `x` and column `y`. -/
noncomputable def vectorMatrix (f : Vector ℝ 64) : Matrix (Fin 8) (Fin 8) ℝ := blockMatrix (elem exactNum f)

theorem vectorMatrix_apply (f : Vector ℝ 64) (x y : Fin 8) : vectorMatrix f x y = f[8 * (x : Nat) + y] := by
  rw [vectorMatrix, blockMatrix, of_apply, elem_getElem]

/-- An element by its row and column. -/
theorem getElem_eq_vectorMatrix (f : Vector ℝ 64) {k : Nat} (hk : k < 64) :
    f[k] = vectorMatrix f ⟨k / 8, by omega⟩ ⟨k % 8, by omega⟩ := by
  simp only [vectorMatrix_apply, Nat.div_add_mod]

theorem vectorMatrix_injective {f g : Vector ℝ 64} (h : vectorMatrix f = vectorMatrix g) : f = g :=
  Vector.ext fun k hk => by rw [getElem_eq_vectorMatrix f hk, getElem_eq_vectorMatrix g hk, h]

theorem vectorMatrix_transposeReal (f : Vector ℝ 64) : vectorMatrix (transposeReal f) = (vectorMatrix f)ᵀ := by
  ext x y
  rw [transpose_apply, vectorMatrix_apply, transposeReal, Vector.getElem_ofFn, place_div, place_mod]
  rfl

theorem vectorMatrix_zipWith (c : ℝ) (f g : Vector ℝ 64) :
    vectorMatrix (Vector.zipWith (fun x y => c * x + y) f g) = c • vectorMatrix f + vectorMatrix g := by
  ext x y
  rw [Matrix.add_apply, Matrix.smul_apply, smul_eq_mul]
  simp only [vectorMatrix_apply, Vector.getElem_zipWith]

/-- A sum over a block's elements, row by row. -/
theorem sum_elements (f : Vector ℝ 64) (g : ℝ → ℝ) : ∑ k : Fin 64, g f[k] = ∑ x, ∑ y, g (vectorMatrix f x y) := by
  have hk : ∑ k : Fin 64, g f[k] = ∑ k : Fin 64, g (elem exactNum f k) :=
    Finset.sum_congr rfl fun k _ => by rw [elem_getElem exactNum f k k.2]; rfl
  rw [hk, ← Finset.sum_range fun k => g (elem exactNum f k)]
  exact sum_range_64 fun k => g (elem exactNum f k)

/-- The sum of squares is the trace of the product with the transpose. -/
theorem sum_sq_eq_trace (f : Vector ℝ 64) : ∑ k : Fin 64, f[k] ^ 2 = (vectorMatrix f * (vectorMatrix f)ᵀ).trace := by
  rw [sum_elements f fun r => r ^ 2]
  simp only [trace, diag_apply, mul_apply, transpose_apply, sq]

/-! ### Products with an orthogonal matrix on both sides -/

/-- The function multiplies a block by `B` from the left and by its transpose from the right. -/
def Conjugates (B : Matrix (Fin 8) (Fin 8) ℝ) (T : Vector ℝ 64 → Vector ℝ 64) : Prop :=
  ∀ f, vectorMatrix (T f) = B * vectorMatrix f * Bᵀ

namespace Conjugates

variable {B : Matrix (Fin 8) (Fin 8) ℝ} {T T' : Vector ℝ 64 → Vector ℝ 64}

/-- The product with the transposes undoes the other. -/
theorem undo (hT : Conjugates B T) (hT' : Conjugates Bᵀ T') (hB : Bᵀ * B = 1) (f : Vector ℝ 64) : T' (T f) = f := by
  apply vectorMatrix_injective
  rw [hT', hT, transpose_transpose]
  calc Bᵀ * (B * vectorMatrix f * Bᵀ) * B = Bᵀ * B * vectorMatrix f * (Bᵀ * B) := by simp only [Matrix.mul_assoc]
    _ = vectorMatrix f := by rw [hB, Matrix.one_mul, Matrix.mul_one]

theorem sum_sq (hT : Conjugates B T) (hB : Bᵀ * B = 1) (f : Vector ℝ 64) :
    ∑ k : Fin 64, (T f)[k] ^ 2 = ∑ k : Fin 64, f[k] ^ 2 := by
  set M := vectorMatrix f with hM
  have hprod : B * M * Bᵀ * (B * M * Bᵀ)ᵀ = B * (M * Mᵀ * Bᵀ) :=
    calc B * M * Bᵀ * (B * M * Bᵀ)ᵀ = B * M * (Bᵀ * B) * (Mᵀ * Bᵀ) := by
          simp only [transpose_mul, transpose_transpose, Matrix.mul_assoc]
      _ = B * (M * Mᵀ * Bᵀ) := by rw [hB, Matrix.mul_one]; simp only [Matrix.mul_assoc]
  rw [sum_sq_eq_trace, sum_sq_eq_trace, hT, ← hM, hprod, trace_mul_comm, Matrix.mul_assoc, hB, Matrix.mul_one]

theorem linear (hT : Conjugates B T) (c : ℝ) (f g : Vector ℝ 64) :
    T (Vector.zipWith (fun x y => c * x + y) f g) = Vector.zipWith (fun x y => c * x + y) (T f) (T g) := by
  apply vectorMatrix_injective
  rw [vectorMatrix_zipWith, hT, hT, hT, vectorMatrix_zipWith, Matrix.mul_add, Matrix.add_mul, Matrix.mul_smul, Matrix.smul_mul]

theorem commutes_transposeReal (hT : Conjugates B T) (f : Vector ℝ 64) : T (transposeReal f) = transposeReal (T f) := by
  apply vectorMatrix_injective
  rw [hT, vectorMatrix_transposeReal, vectorMatrix_transposeReal, hT, transpose_mul, transpose_mul, transpose_transpose,
    Matrix.mul_assoc]

/-- The entries of the product, as double sums. -/
theorem elem_eq (hT : Conjugates B T) (f : Vector ℝ 64) (u v : Fin 8) :
    elem exactNum (T f) (8 * (u : Nat) + v) = ∑ x : Fin 8, ∑ y : Fin 8, B u x * elem exactNum f (8 * x + y) * B v y := by
  have hf (x y : Fin 8) : vectorMatrix f x y = elem exactNum f (8 * x + y) := rfl
  have hl : elem exactNum (T f) (8 * (u : Nat) + v) = (B * vectorMatrix f * Bᵀ) u v := congrFun (congrFun (hT f) u) v
  simp only [hl, mul_apply, transpose_apply, Finset.sum_mul, hf]
  exact Finset.sum_comm

end Conjugates

/-! ### The two transforms -/

section
variable {expr : Site → Expr}

/-- R123, R126: under every legal evaluation `DCT8F` is `A f Aᵀ`. -/
theorem conjugates_dct8f (h : allLegal expr) : Conjugates dctA (dct8f (exactDatapath expr)) := by
  intro f
  ext u v
  rw [vectorMatrix_apply, dct8f, Vector.getElem_ofFn, vectorMatrix, ← dctFExpr_real, place_div, place_mod]
  exact isEvaluation_real (h (.dctF u v)) _

/-- R125, R126: under every legal evaluation `DCT8I` is `Aᵀ H A`. -/
theorem conjugates_dct8i (h : allLegal expr) : Conjugates dctAᵀ (dct8i (exactDatapath expr)) := by
  intro f
  ext x y
  rw [vectorMatrix_apply, dct8i, Vector.getElem_ofFn, vectorMatrix, transpose_transpose, ← dctIExpr_real, place_div, place_mod]
  exact isEvaluation_real (h (.dctI x y)) _

end

/-- R126: the rows of `A` are orthonormal. -/
theorem sum_dctMatrix_mul (u v : Fin 8) :
    ∑ x ∈ Finset.range 8, dctMatrix u x * dctMatrix v x = if (u : Nat) = v then 1 else 0 := by
  rw [Finset.sum_range]
  have h : ∑ x : Fin 8, dctMatrix u x * dctMatrix v x = (dctA * dctAᵀ) u v := rfl
  rw [h, dctA_mul_transpose, one_apply]
  simp only [Fin.ext_iff]

/-- Settles O26: both transforms are products with an orthogonal matrix and its transpose, and each claim holds of such a
product. -/
theorem dctIsOrthogonal : Obligations.DctIsOrthogonal := by
  refine ⟨fun u v hu hv => sum_dctMatrix_mul ⟨u, hu⟩ ⟨v, hv⟩, fun expr h => ?_⟩
  intro F G
  have hF : Conjugates dctA F := conjugates_dct8f h
  have hG : Conjugates dctAᵀ G := conjugates_dct8i h
  have hFT : Conjugates dctAᵀᵀ F := hF
  have hGT : dctAᵀᵀ * dctAᵀ = 1 := dctA_mul_transpose
  refine ⟨fun f a b ha hb => ?_, fun f a b ha hb => ?_, hF.undo hG transpose_mul_dctA, hG.undo hFT hGT,
    hF.sum_sq transpose_mul_dctA, hG.sum_sq hGT, hF.linear, hG.linear, hF.commutes_transposeReal,
    hG.commutes_transposeReal⟩
  · simp only [Finset.sum_range]
    exact hF.elem_eq f ⟨a, ha⟩ ⟨b, hb⟩
  · simp only [Finset.sum_range]
    exact hG.elem_eq f ⟨a, ha⟩ ⟨b, hb⟩

end Sys2Proof.Machine
end

section
/-! PROOF. R129, R130: the DC coefficient, what a constant block leaves of the others over the reals and on the machine, all-zero
blocks, the size of a coefficient; and `DcCoefficient` and `CoefficientBound`. -/

namespace Sys2Proof.Machine

open Matrix

/-! ### Over the reals -/

section
variable {expr : Site → Expr}

/-- Two entries of the first row of `A` multiply to an eighth. -/
theorem dctA_zero_mul (x y : Fin 8) : dctA 0 x * dctA 0 y = 1 / 8 := by
  have hc (x : Fin 8) : cosReal (0 : Fin 8) x = 1 := by simp [cosReal]
  rw [dctA_apply, dctA_apply, hc, hc, Fin.val_zero, mul_one, div_mul_div_comm, normReal_zero_sq]
  norm_num

/-- R129: `F[0][0]` is eight times the mean. -/
theorem dct8f_dc (h : allLegal expr) (f : Vector ℝ 64) :
    elem exactNum (dct8f (exactDatapath expr) f) 0 = 1 / 8 * ∑ k : Fin 64, f[k] := by
  rw [sum_elements f fun r => r]
  refine ((conjugates_dct8f h).elem_eq f 0 0).trans ?_
  simp only [Finset.mul_sum]
  refine Finset.sum_congr rfl fun x _ => Finset.sum_congr rfl fun y _ => ?_
  rw [mul_right_comm, dctA_zero_mul]
  rfl

/-- R129: over the reals a constant block has the DC coefficient alone. -/
theorem dct8f_replicate (h : allLegal expr) (c : ℝ) :
    dct8f (exactDatapath expr) (Vector.replicate 64 c) = (Vector.replicate 64 0).setIfInBounds 0 (8 * c) := by
  refine Vector.ext fun k hk => ?_
  rcases Nat.eq_zero_or_pos k with rfl | h0
  · rw [← elem_getElem exactNum _ 0 hk, dct8f_dc h, Vector.getElem_setIfInBounds_self]
    simp only [Fin.getElem_fin, Vector.getElem_replicate, Finset.sum_const, Finset.card_univ, Fintype.card_fin, nsmul_eq_mul]
    push_cast
    ring
  · have hz : (dctA * vectorMatrix (Vector.replicate 64 c) * dctAᵀ) ⟨k / 8, by omega⟩ ⟨k % 8, by omega⟩ = 0 := by
      refine forward_of_constant (c := c) (fun j hj => by rw [elem_getElem _ _ _ hj, Vector.getElem_replicate]) ?_
      simp only [Fin.ext_iff, Fin.val_zero]
      omega
    rw [getElem_eq_vectorMatrix _ hk, conjugates_dct8f h, hz, Vector.getElem_setIfInBounds_ne hk h0.ne, Vector.getElem_replicate]

end

/-! ### A constant block on the machine -/

theorem blockWithin_replicate {range c : Rat} (h : |c| ≤ range) : blockWithin range (Vector.replicate 64 (.fin c)) :=
  fun _ hk => ⟨c, Vector.getElem_replicate hk, h⟩

theorem constantBlock_replicate (c : Rat) : constantBlock (elem b64 (Vector.replicate 64 (.fin c))) = some c := by
  have hc {j : Nat} (hj : j < 64) : elem b64 (Vector.replicate 64 (.fin c)) j = .fin c := by
    rw [elem_getElem _ _ _ hj, Vector.getElem_replicate]
  rw [constantBlock, hc (by norm_num)]
  refine if_pos (List.all_eq_true.mpr fun j hj => ?_)
  rw [hc (List.mem_range.mp hj), beq_self_eq_true]

theorem nearZero_within {bound : Rat} (h0 : 0 ≤ bound) (v : Real64) : ∃ r, nearZero bound v = .fin r ∧ |r| ≤ bound := by
  have zero : ∃ r, Real64.fin 0 = .fin r ∧ |r| ≤ bound := ⟨0, rfl, by rwa [abs_zero]⟩
  cases v with
  | fin q =>
    rw [nearZero]
    split
    case isTrue hq => exact ⟨q, rfl, hq⟩
    case isFalse => exact zero
  | inf _ => exact zero
  | nan => exact zero

/-- R129, log 31: what the machine may have for another coefficient than `F[0][0]` of a constant block. -/
theorem evalSite_dctF_replicate {c : Rat} (hc : |c| ≤ 255) {u v : Nat} (huv : ¬(u = 0 ∧ v = 0)) :
    ∃ r : Rat, evalSite machineDatapath (.dctF u v) (elem b64 (Vector.replicate 64 (.fin c))) = .fin r ∧ |r| ≤ flatBound := by
  simp only [evalSite_machineDatapath, admitValue, constantBlock_replicate]
  rw [if_neg (not_or.mpr ⟨huv, not_lt.mpr hc⟩)]
  exact nearZero_within (by rw [flatBound, Rat.mkRat_eq_div]; norm_num) _

/-! ### An all-zero block on the machine -/

/-- Over the reals the expression is a sum of multiples of operands. -/
def IsMultiples (e : Expr) : Prop := ∃ ts, linearOf e = some (.multiples ts)

/-- Over the reals the expression is a number. -/
def IsNumber (e : Expr) : Prop := ∃ p, linearOf e = some (.number p)

theorem isMultiples_operand (i : Nat) : IsMultiples (.operand i) := ⟨_, rfl⟩

theorem isNumber_const (c : Const) : IsNumber (.const c) := ⟨_, rfl⟩

theorem IsNumber.mul {a b : Expr} (ha : IsNumber a) (hb : IsNumber b) : IsNumber (.mul a b) := by
  obtain ⟨p, hp⟩ := ha
  obtain ⟨q, hq⟩ := hb
  exact ⟨_, by rw [linearOf, hp, hq]; rfl⟩

theorem IsNumber.mul_multiples {a b : Expr} (ha : IsNumber a) (hb : IsMultiples b) : IsMultiples (.mul a b) := by
  obtain ⟨p, hp⟩ := ha
  obtain ⟨ts, hts⟩ := hb
  exact ⟨_, by rw [linearOf, hp, hts]; rfl⟩

theorem IsMultiples.add {a b : Expr} (ha : IsMultiples a) (hb : IsMultiples b) : IsMultiples (.add a b) := by
  obtain ⟨ts, hts⟩ := ha
  obtain ⟨us, hus⟩ := hb
  exact ⟨_, by rw [linearOf, hts, hus]; rfl⟩

theorem IsMultiples.foldl_add {ts : List Expr} (hts : ∀ t ∈ ts, IsMultiples t) {e : Expr} (he : IsMultiples e) :
    IsMultiples (ts.foldl .add e) := by
  induction ts generalizing e with
  | nil => exact he
  | cons t ts ih =>
    exact ih (fun u hu => hts u (List.mem_cons_of_mem t hu)) (he.add (hts t List.mem_cons_self))

theorem isMultiples_sumExpr {ts : List Expr} (h0 : ts ≠ []) (hts : ∀ t ∈ ts, IsMultiples t) : IsMultiples (sumExpr ts) := by
  cases ts with
  | nil => exact absurd rfl h0
  | cons t ts => exact .foldl_add (fun u hu => hts u (List.mem_cons_of_mem t hu)) (hts t List.mem_cons_self)

/-- R128's sums have 64 terms, each a multiple of an operand. -/
theorem isMultiples_sumExpr_range {term : Nat → Expr} (h : ∀ j, IsMultiples (term j)) :
    IsMultiples (sumExpr ((List.range 64).map term)) :=
  isMultiples_sumExpr (by simp) fun t ht => by
    obtain ⟨j, -, rfl⟩ := List.mem_map.mp ht
    exact h j

theorem isMultiples_dctFExpr (u v : Nat) : IsMultiples (dctFExpr u v) :=
  (((isNumber_const _).mul (isNumber_const _)).mul (isNumber_const _)).mul_multiples <|
    isMultiples_sumExpr_range fun j => ((isNumber_const _).mul (isNumber_const _)).mul_multiples (isMultiples_operand j)

theorem isMultiples_dctIExpr (x y : Nat) : IsMultiples (dctIExpr x y) :=
  isMultiples_sumExpr_range fun j =>
    ((((isNumber_const _).mul (((isNumber_const _).mul (isNumber_const _)).mul (isNumber_const _))).mul (isNumber_const _)).mul
      (isNumber_const _)).mul_multiples (isMultiples_operand j)

/-- A number is never the same sums as multiples of operands. -/
theorem IsMultiples.of_sameSums {e e' : Expr} (h : sameSums e e' = true) (he' : IsMultiples e') : IsMultiples e := by
  obtain ⟨us, hus⟩ := he'
  rw [sameSums, Option.any_eq_true] at h
  obtain ⟨l, hl, -⟩ := h
  obtain ⟨m, hm, hl⟩ := Option.bind_eq_some_iff.mp hl
  rw [hus] at hl
  cases m with
  | number p => cases hl
  | multiples ts => exact ⟨ts, hm⟩

/-- Every expression that may be used for a transform is a sum of multiples of operands, where the printed one is. -/
theorem IsMultiples.of_isTransform {range : Rat} {site : Site} {e : Expr} (h : isTransform range site e = true)
    (hr : IsMultiples (refExpr site)) : IsMultiples e := by
  simp only [isTransform, Bool.or_eq_true, Bool.and_eq_true, beq_iff_eq] at h
  rcases h with rfl | ⟨⟨hs, -⟩, -⟩
  · exact hr
  · exact hr.of_sameSums hs

theorem isMultiples_machineExpr_dctF (u v : Nat) : IsMultiples (machineExpr (.dctF u v)) :=
  .of_isTransform (isEvaluation_machineExpr (.dctF u v)) (isMultiples_dctFExpr u v)

theorem isMultiples_machineExpr_dctI (x y : Nat) : IsMultiples (machineExpr (.dctI x y)) :=
  .of_isTransform (isEvaluation_machineExpr (.dctI x y)) (isMultiples_dctIExpr x y)

theorem elem_replicate_zero : elem b64 (Vector.replicate 64 (.fin 0)) = fun _ => .fin 0 := by
  funext j
  rw [elem]
  split
  case isTrue hj => exact Vector.getElem_replicate hj
  case isFalse => exact ofInt64_eq (n := 0) (by norm_num)

/-- R123, R125: a sum of multiples of zeros is 0 on the machine. -/
theorem evalSite_zero {site : Site} (hm : IsMultiples (machineExpr site)) (hs : staysFinite (machineExpr site) = true) :
    evalSite machineDatapath site (elem b64 (Vector.replicate 64 (.fin 0))) = .fin 0 := by
  obtain ⟨ts, hts⟩ := hm
  obtain ⟨b, hb⟩ := Option.isSome_iff_exists.mp hs
  rw [elem_replicate_zero, evalSite_machineDatapath, evalExpr_zero constantsKnown_machineConst wideRange_nonneg hts hb]
  rcases admitValue_cases site (fun _ => .fin 0) (.fin 0) with he | ⟨-, he⟩ <;> exact he

theorem dct8f_zero : dct8f machineDatapath (Vector.replicate 64 (.fin 0)) = Vector.replicate 64 (.fin 0) :=
  Vector.ext fun k hk => by
    rw [dct8f_getElem _ hk, Vector.getElem_replicate]
    exact evalSite_zero (isMultiples_machineExpr_dctF _ _) (machineExpr_dctF (by omega) (by omega)).2

theorem dct8i_zero : dct8i machineDatapath (Vector.replicate 64 (.fin 0)) = Vector.replicate 64 (.fin 0) :=
  Vector.ext fun k hk => by
    rw [dct8i_getElem _ hk, Vector.getElem_replicate]
    exact evalSite_zero (isMultiples_machineExpr_dctI _ _) (machineExpr_dctI (by omega) (by omega)).2

/-- R129 of the machine. -/
theorem exec_dct8f_replicate {s : State} {c : Rat} (hs : s.blk = Vector.replicate 64 (.fin c)) (hc : |c| ≤ 255) :
    ∃ t, exec .dct8f s = .next t ∧ ∀ (k : Nat) (_ : k < 64), 0 < k → ∃ r : Rat, t.blk[k] = .fin r ∧ |r| ≤ 5 / 10 ^ 12 := by
  have hfin : blockFinite s.blk = true := hs ▸ (blockWithin_replicate hc).finite
  refine ⟨_, exec_dct8f_of_finite hfin, fun k hk h0 => ?_⟩
  obtain ⟨r, hr, hle⟩ := evalSite_dctF_replicate hc (u := k / 8) (v := k % 8) (by omega)
  refine ⟨r, (dct8f_getElem s.blk hk).trans (hs ▸ hr), hle.trans (le_of_eq ?_)⟩
  rw [flatBound, Rat.mkRat_eq_div]
  norm_num

/-- R123, R125 of the machine, on zeros. -/
theorem exec_dct_zero {s : State} {i : Instr} (hi : i = .dct8f ∨ i = .dct8i) (hs : s.blk = Vector.replicate 64 (.fin 0)) :
    ∃ t, exec i s = .next t ∧ t.blk = s.blk := by
  have hfin : blockFinite s.blk = true := hs ▸ (blockWithin_replicate (range := 0) abs_zero.le).finite
  rcases hi with rfl | rfl
  · exact ⟨_, exec_dct8f_of_finite hfin, (congrArg _ hs).trans (dct8f_zero.trans hs.symm)⟩
  · exact ⟨_, exec_dct8i_of_finite hfin, (congrArg _ hs).trans (dct8i_zero.trans hs.symm)⟩

/-- Settles O27: the rows of `A` but the first add up to 0; R129's bound is part of what the machine may have; and every
expression of a transform is a sum of multiples of operands. -/
theorem dcCoefficient : Obligations.DcCoefficient :=
  ⟨fun _ h => ⟨dct8f_dc h, dct8f_replicate h⟩, fun _ _ hs hc => exec_dct8f_replicate hs hc,
    fun _ _ hi hs => exec_dct_zero hi hs⟩

/-! ### The size of a coefficient -/

theorem abs_getElem_le_sqrt (f : Vector ℝ 64) (k : Fin 64) : |f[k]| ≤ Real.sqrt (∑ j : Fin 64, f[j] ^ 2) :=
  Real.abs_le_sqrt (Finset.single_le_sum (f := fun j : Fin 64 => f[j] ^ 2) (fun j _ => sq_nonneg f[j]) (Finset.mem_univ k))

theorem sqrt_sum_sq_le {f : Vector ℝ 64} {M : ℝ} (h : ∀ j : Fin 64, |f[j]| ≤ M) :
    Real.sqrt (∑ j : Fin 64, f[j] ^ 2) ≤ 8 * M := by
  have hM : 0 ≤ M := (abs_nonneg _).trans (h 0)
  refine Real.sqrt_le_iff.mpr ⟨by positivity, ?_⟩
  calc ∑ j : Fin 64, f[j] ^ 2 ≤ ∑ _j : Fin 64, M ^ 2 :=
        Finset.sum_le_sum fun j _ => sq_le_sq' (abs_le.mp (h j)).1 (abs_le.mp (h j)).2
    _ = (8 * M) ^ 2 := by
      rw [Finset.sum_const, Finset.card_univ, Fintype.card_fin, nsmul_eq_mul]
      push_cast
      ring

/-- Settles O28: the forward transform keeps the sum of squares, and no square is greater than that sum. -/
theorem coefficientBound : Obligations.CoefficientBound := by
  intro expr h
  refine ⟨fun f k => ⟨?_, fun M hM => sqrt_sum_sq_le hM⟩, ?_⟩
  · rw [← (conjugates_dct8f h).sum_sq transpose_mul_dctA f]
    exact abs_getElem_le_sqrt _ k
  · rw [dct8f_replicate h, elem_getElem _ _ _ (by norm_num), Vector.getElem_setIfInBounds_self]
    norm_num

end Sys2Proof.Machine
end

section
/-! PROOF. R136, R138, R140: over the reals the quantizers divide or multiply and round, rounding leaves integers as they are, and
`QuantizationLoss`. -/

namespace Sys2Proof.Machine

/-! ### The quantizers over the reals -/

theorem roundReal_exactNum (tie : RoundTie) (x : ℝ) : roundReal exactNum tie x = exactNum.rnd tie x := if_pos rfl

theorem exactNum_rnd_intCast (tie : RoundTie) (n : Int) : exactNum.rnd tie (n : ℝ) = n := by
  rw [← Rat.cast_intCast, ← roundRat_eq_exactNum, roundRat_intCast]

/-- R136 over the reals. -/
theorem quantize_exactNum_getElem (tie : RoundTie) (T : Vector Nat 64) (b : Vector ℝ 64) (k : Fin 64) :
    (quantize exactNum tie T b)[k] = exactNum.rnd tie (b[k] / (T[k] : ℝ)) := by
  simp [quantize, roundReal_exactNum]

/-- R138 over the reals. -/
theorem dequantize_exactNum_getElem (tie : RoundTie) (T : Vector Nat 64) (b : Vector ℝ 64) (k : Fin 64) :
    (dequantize exactNum tie T b)[k] = exactNum.rnd tie (b[k] * (T[k] : ℝ)) := by
  simp [dequantize, roundReal_exactNum]

/-- Over the reals the rounding of R138 has no effect on an integer: its product with a table entry is an integer. -/
theorem dequantize_exactNum_getElem_of_int {tie : RoundTie} {T : Vector Nat 64} {b : Vector ℝ 64} {k : Fin 64} {n : Int}
    (h : b[k] = (n : ℝ)) : (dequantize exactNum tie T b)[k] = (n : ℝ) * (T[k] : ℝ) := by
  have hprod : (n : ℝ) * (T[k] : ℝ) = ((n * (T[k] : Int) : Int) : ℝ) := by push_cast; rfl
  rw [dequantize_exactNum_getElem, h, hprod, exactNum_rnd_intCast]

/-! ### What the two quantizers lose (R140) -/

/-- R140: the nearest multiple of `d` lies within half of `d`. -/
theorem abs_rnd_div_mul_sub_le (tie : RoundTie) (x : ℝ) {d : ℝ} (hd : 0 < d) :
    |(exactNum.rnd tie (x / d) : ℝ) * d - x| ≤ d / 2 := by
  calc |(exactNum.rnd tie (x / d) : ℝ) * d - x| = |((exactNum.rnd tie (x / d) : ℝ) - x / d) * d| := by
        rw [sub_mul, div_mul_cancel₀ x hd.ne']
    _ = |x / d - exactNum.rnd tie (x / d)| * d := by rw [abs_mul, abs_of_pos hd, abs_sub_comm]
    _ ≤ 1 / 2 * d := mul_le_mul_of_nonneg_right (exactNum_rnd_near tie _) hd.le
    _ = d / 2 := by ring

theorem abs_dequantize_quantize_sub_le (tie : RoundTie) {T : Vector Nat 64} (b : Vector ℝ 64) {k : Fin 64} (hT : 1 ≤ T[k]) :
    |(dequantize exactNum tie T (quantize exactNum tie T b))[k] - b[k]| ≤ (T[k] : ℝ) / 2 := by
  rw [dequantize_exactNum_getElem_of_int (quantize_exactNum_getElem tie T b k)]
  exact abs_rnd_div_mul_sub_le tie b[k] (Nat.cast_pos.mpr hT)

theorem quantize_dequantize_getElem_of_int (tie : RoundTie) {T : Vector Nat 64} {b : Vector ℝ 64} {k : Fin 64} {n : Int}
    (hT : 1 ≤ T[k]) (h : b[k] = (n : ℝ)) : (quantize exactNum tie T (dequantize exactNum tie T b))[k] = (n : ℝ) := by
  have hT0 : (T[k] : ℝ) ≠ 0 := (Nat.cast_pos.mpr hT).ne'
  rw [quantize_exactNum_getElem, dequantize_exactNum_getElem_of_int h, mul_div_cancel_right₀ _ hT0, exactNum_rnd_intCast]

/-- Settles O33: the quotient's rounding is off by at most 1/2, which the table entry scales to half of itself; an integer's
product with its entry is exact, and so is the quotient. -/
theorem quantizationLoss : Obligations.QuantizationLoss := by
  intro tie T hT
  refine ⟨fun b k => abs_dequantize_quantize_sub_le tie b (hT k), fun n => Vector.ext fun k hk => ?_⟩
  have hn : (n.map fun i : Int => (i : ℝ))[k] = (n[k] : ℝ) := Vector.getElem_map _ hk
  exact (quantize_dequantize_getElem_of_int tie (k := ⟨k, hk⟩) (hT ⟨k, hk⟩) hn).trans hn.symm

end Sys2Proof.Machine
end

section
/-! PROOF. R151, R153, R154: where the two scans move each element, and `ZzfScans`, `ZziScatters`, `ZigzagRoundTrip`. That `ZZ` names
every place exactly once makes the scatter defined at each place and the two scans inverse to each other. -/

namespace Sys2Proof.Machine

/-! ### The scans -/

/-- R84: every place of the block is some scan position's. -/
theorem zz_surjective {i : Nat} (hi : i < 64) : ∃ (k : Nat) (hk : k < 64), zz[k] = i :=
  ⟨_, Vector.getElem?_eq_some_iff.mp (zz_zzinv ⟨i, hi⟩)⟩

/-- R84, by position. -/
theorem zz_getElem_lt {k : Nat} (hk : k < 64) : zz[k] < 64 := zz_lt ⟨k, hk⟩

/-- R151: scan position `k` of the result. -/
theorem scan_getElem {α : Type} (N : Num α) (b : Vector α 64) {k : Nat} (hk : k < 64) :
    (scan N b)[k] = b[zz[k]]'(zz_getElem_lt hk) := by
  simp [scan, elem, zz_getElem_lt hk]

/-- Writes elsewhere leave a place as it was. -/
theorem foldl_setIfInBounds_of_forall_ne {α : Type} {n i : Nat} (hi : i < n) {place : Nat → Nat} {value : Nat → α}
    {ks : List Nat} (h : ∀ k ∈ ks, place k ≠ i) (b : Vector α n) :
    (ks.foldl (fun b k => b.setIfInBounds (place k) (value k)) b)[i] = b[i] := by
  induction ks generalizing b with
  | nil => rfl
  | cons k ks ih =>
    obtain ⟨hk, hks⟩ := List.forall_mem_cons.mp h
    rw [List.foldl_cons, ih hks, Vector.getElem_setIfInBounds_ne hi hk]

/-- A place that one write of a series goes to holds that write's value at the end. -/
theorem foldl_setIfInBounds_of_unique {α : Type} {n i k : Nat} (hi : i < n) {place : Nat → Nat} {value : Nat → α}
    {ks : List Nat} (hk : k ∈ ks) (h : ∀ j ∈ ks, place j = i ↔ j = k) (b : Vector α n) :
    (ks.foldl (fun b k => b.setIfInBounds (place k) (value k)) b)[i] = value k := by
  induction ks generalizing b with
  | nil => cases hk
  | cons j ks ih =>
    obtain ⟨hj, hks⟩ := List.forall_mem_cons.mp h
    rw [List.foldl_cons]
    by_cases hmem : k ∈ ks
    · exact ih hmem hks _
    · obtain rfl : k = j := (List.mem_cons.mp hk).resolve_right hmem
      have hne : ∀ j ∈ ks, place j ≠ i := fun j hjs hji => hmem ((hks j hjs).mp hji ▸ hjs)
      obtain rfl := hj.mpr rfl
      rw [foldl_setIfInBounds_of_forall_ne hi hne, Vector.getElem_setIfInBounds_self hi]

/-- R153: the place of scan position `k` in the result. -/
theorem unscan_getElem {α : Type} (N : Num α) (v : Vector α 64) {k : Nat} (hk : k < 64) :
    (unscan N v)[zz[k]]'(zz_getElem_lt hk) = v[k] := by
  have hplace : ∀ j ∈ List.range 64, zz[j]?.getD 0 = zz[k] ↔ j = k := by
    intro j hj
    have hj : j < 64 := List.mem_range.mp hj
    rw [Vector.getElem?_eq_getElem hj, Option.getD_some]
    exact ⟨fun h => congrArg Fin.val (zz_injective (j := ⟨j, hj⟩) (k := ⟨k, hk⟩) h), fun h => by simp [h]⟩
  rw [unscan, foldl_setIfInBounds_of_unique (zz_getElem_lt hk) (List.mem_range.mpr hk) hplace]
  simp [elem, hk]

theorem unscan_scan {α : Type} (N : Num α) (b : Vector α 64) : unscan N (scan N b) = b := by
  ext i hi
  obtain ⟨k, hk, rfl⟩ := zz_surjective hi
  rw [unscan_getElem, scan_getElem]

theorem scan_unscan {α : Type} (N : Num α) (v : Vector α 64) : scan N (unscan N v) = v := by
  ext _ hk
  rw [scan_getElem N _ hk, unscan_getElem]

/-! ### The operations -/

theorem all_toList_iff {p : Real64 → Bool} {b : Block} :
    b.toList.all p = true ↔ ∀ (k : Nat) (_ : k < 64), p b[k] = true := by
  simp [Vector.all_eq_true]

theorem blockFinite_iff {b : Block} : blockFinite b = true ↔ ∀ (k : Nat) (_ : k < 64), b[k].isFinite = true :=
  all_toList_iff

theorem blockFinite_scan {b : Block} (h : blockFinite b = true) : blockFinite (scan b64 b) = true :=
  blockFinite_of_getElem fun k hk => by
    rw [scan_getElem b64 b hk]
    exact blockFinite_iff.mp h _ _

theorem blockFinite_unscan {v : Block} (h : blockFinite v = true) : blockFinite (unscan b64 v) = true :=
  blockFinite_of_getElem fun i hi => by
    obtain ⟨k, hk, rfl⟩ := zz_surjective hi
    rw [unscan_getElem]
    exact blockFinite_iff.mp h _ _

theorem exec_zzf_of_finite {s : State} (h : blockFinite s.blk = true) :
    exec .zzf s = .next { s with seq := some (scan b64 s.blk) }.complete := by
  rw [exec_zzf, State.withBlk_of_finite h]

theorem exec_zzi_of_finite {s : State} {v : Block} (hv : s.seq = some v) (h : blockFinite v = true) :
    exec .zzi s = .next { s with blk := unscan b64 v }.complete := by
  rw [exec_zzi, State.withSeq_of_finite hv h]

/-- R64: an operation issued after one that completed. -/
theorem thenExec_eq_next {o : Host.Outcome State Fault Refusal} {i : Instr} {s t : State} (ho : o = .next s)
    (hi : exec i s = .next t) : thenExec o i = .next t := by
  rw [ho, ← hi]; rfl

theorem exists_exec_zzf {s : State} (h : blockFinite s.blk = true) :
    ∃ t, exec .zzf s = .next t ∧ t.seq = some (scan b64 s.blk) :=
  ⟨_, exec_zzf_of_finite h, State.complete_seq _⟩

theorem exists_exec_zzi {s : State} {v : Block} (hv : s.seq = some v) (h : blockFinite v = true) :
    ∃ t, exec .zzi s = .next t ∧ t.blk = unscan b64 v :=
  ⟨_, exec_zzi_of_finite hv h, State.complete_blk _⟩

/-- Settles O35: on a finite block the operation is the scan. -/
theorem zzfScans : Obligations.ZzfScans := by
  refine ⟨by decide, fun s h => ⟨scan b64 s.blk, exec_zzf_of_finite h, ?_⟩⟩
  rintro k hk _ - rfl
  exact scan_getElem b64 s.blk hk

/-- Settles O36: on a finite scan vector the operation is the scatter. -/
theorem zziScatters : Obligations.ZziScatters := by
  refine ⟨by decide, fun s v hv h => ⟨unscan b64 v, exec_zzi_of_finite hv h, ?_⟩⟩
  rintro k hk _ - rfl
  exact unscan_getElem b64 v hk

/-- Settles O37: each scan leaves finite values finite, so the other one runs, and undoes it. -/
theorem zigzagRoundTrip : Obligations.ZigzagRoundTrip := by
  constructor
  · intro s h
    obtain ⟨t₁, hzzf, hseq⟩ := exists_exec_zzf h
    obtain ⟨t, hzzi, hblk⟩ := exists_exec_zzi hseq (blockFinite_scan h)
    exact ⟨t, thenExec_eq_next hzzf hzzi, hblk.trans (unscan_scan b64 s.blk)⟩
  · intro s v hv h
    obtain ⟨t₁, hzzi, hblk⟩ := exists_exec_zzi hv h
    obtain ⟨t, hzzf, hseq⟩ := exists_exec_zzf (hblk ▸ blockFinite_unscan h)
    exact ⟨t, thenExec_eq_next hzzi hzzf, by rw [hseq, hblk, scan_unscan]⟩

end Sys2Proof.Machine
end

section
/-! PROOF. R155 to R162: what the run-length coder and decoder compute on every input, and `RleeEncodes`, `RleeListInvariants`,
`RledDecodes`, `RledOverflows`. At every moment the coder's working state stands for what it has read, and the
decoder's vector holds what it has written, with zeros after it. -/

namespace Sys2Proof.Machine

/-! ### Symbol lists written out -/

theorem expandRuns_cons (sy : Symbol) (r : Record) :
    expandRuns (sy :: r) = List.replicate sy.run 0 ++ sy.value :: expandRuns r := by
  simp [expandRuns]

theorem expandRuns_concat (r : Record) (sy : Symbol) :
    expandRuns (r ++ [sy]) = expandRuns r ++ List.replicate sy.run 0 ++ [sy.value] := by
  simp [expandRuns]

/-- A symbol takes up `run + 1` positions. -/
theorem length_expandRuns (r : Record) : (expandRuns r).length = (r.map fun sy => sy.run + 1).sum := by
  simp [expandRuns, List.length_flatMap]

theorem mem_expandRuns {r : Record} {n : Int} (h : n ∈ expandRuns r) : n = 0 ∨ ∃ sy ∈ r, sy.value = n := by
  obtain ⟨sy, hsy, hn⟩ := List.mem_flatMap.mp h
  rcases List.mem_append.mp hn with hn | hn
  · exact .inl (List.eq_of_mem_replicate hn)
  · exact .inr ⟨sy, hsy, (List.mem_singleton.mp hn).symm⟩

/-- A run is shorter than the list written out. -/
theorem run_lt_length_expandRuns {r : Record} {sy : Symbol} (h : sy ∈ r) : sy.run < (expandRuns r).length := by
  rw [length_expandRuns]
  exact List.le_sum_of_mem (List.mem_map_of_mem (f := fun sy : Symbol => sy.run + 1) h)

theorem length_le_length_expandRuns (r : Record) : r.length ≤ (expandRuns r).length := by
  have h := List.length_le_sum_of_one_le (r.map fun sy => sy.run + 1) (by simp)
  rwa [List.length_map, ← length_expandRuns] at h

/-- R158: the last position of a list written out holds its last symbol's value. -/
theorem expandRuns_last_ne_zero {r : Record} (hr : ∀ sy ∈ r, sy.value ≠ 0) {k : Nat} {n : Int}
    (hk : k + 1 = (expandRuns r).length) (hn : (expandRuns r)[k]? = some n) : n ≠ 0 := by
  obtain rfl | ⟨r, sy, rfl⟩ := List.eq_nil_or_concat' r
  · simp [expandRuns] at hk
  · rw [expandRuns_concat] at hk hn
    obtain rfl : k = (expandRuns r ++ List.replicate sy.run 0).length := by
      simp only [List.length_append, List.length_singleton] at hk ⊢
      omega
    obtain rfl : sy.value = n := by simpa using hn
    exact hr sy (by simp)

/-! ### The coder (R157) -/

/-- The coder has read `vs`: its symbols and its pending run of zeros stand for `vs`, and it emitted no zero. -/
structure Encoder.Read (e : Encoder) (vs : List Int) : Prop where
  expand : expandRuns e.sym ++ List.replicate e.run 0 = vs
  count : e.k = vs.length
  nonzero : ∀ sy ∈ e.sym, sy.value ≠ 0

theorem Encoder.Read.step {e : Encoder} {vs : List Int} (h : e.Read vs) (v : Int) : (encoderStep e v).Read (vs ++ [v]) := by
  obtain ⟨rfl, hk, hne⟩ := h
  unfold encoderStep
  split_ifs with hv
  · subst hv
    exact ⟨by simp [List.replicate_succ'], by simp [hk, Nat.add_assoc], hne⟩
  · refine ⟨by simp [expandRuns_concat], by simp [hk, Nat.add_assoc], fun sy hsy => ?_⟩
    rcases List.mem_append.mp hsy with hsy | hsy
    · exact hne sy hsy
    · rwa [List.mem_singleton.mp hsy]

theorem Encoder.Read.foldl {e : Encoder} {vs : List Int} (h : e.Read vs) (ws : List Int) :
    (ws.foldl encoderStep e).Read (vs ++ ws) := by
  induction ws generalizing e vs with
  | nil => rwa [List.append_nil]
  | cons w ws ih => simpa using ih (h.step w)

/-- The invariant of R157 at the end of the loop. -/
theorem encodeRuns_read (vs : List Int) : (encodeRuns vs).Read vs :=
  Encoder.Read.foldl (vs := []) ⟨rfl, rfl, by simp⟩ vs

theorem foldl_encoderStep_replicate_zero (e : Encoder) (n : Nat) :
    (List.replicate n 0).foldl encoderStep e = ⟨e.run + n, e.k + n, e.sym⟩ := by
  induction n generalizing e with
  | zero => rfl
  | succ n ih =>
    rw [List.replicate_succ, List.foldl_cons, ih]
    simp [encoderStep, Nat.add_assoc, Nat.add_comm 1]

theorem foldl_encoderStep_expandRuns {r : Record} (hr : ∀ sy ∈ r, sy.value ≠ 0) (k : Nat) (before : Record) :
    (expandRuns r).foldl encoderStep ⟨0, k, before⟩ = ⟨0, k + (expandRuns r).length, before ++ r⟩ := by
  induction r generalizing k before with
  | nil => simp [expandRuns]
  | cons sy r ih =>
    obtain ⟨hsy, hr⟩ := List.forall_mem_cons.mp hr
    rw [expandRuns_cons, List.foldl_append, foldl_encoderStep_replicate_zero, List.foldl_cons, encoderStep, if_neg hsy, ih hr]
    simp only [Encoder.mk.injEq, List.append_assoc, List.singleton_append, List.length_append, List.length_replicate,
      List.length_cons, Nat.zero_add, true_and, and_true]
    omega

/-- R163: the coder gives back a list of non-zero values that was written out, whatever number of zeros follows. -/
theorem encodeRuns_expandRuns {r : Record} (hr : ∀ sy ∈ r, sy.value ≠ 0) (n : Nat) :
    (encodeRuns (expandRuns r ++ List.replicate n 0)).sym = r := by
  rw [encodeRuns, List.foldl_append, foldl_encoderStep_expandRuns hr, foldl_encoderStep_replicate_zero, List.nil_append]

theorem length_roundedScan {α : Type} (N : Num α) (tie : RoundTie) (v : Vector α 64) : (roundedScan N tie v).length = 64 := by
  simp [roundedScan]

theorem roundedScan_getElem? {α : Type} (N : Num α) (tie : RoundTie) (v : Vector α 64) {k : Nat} (hk : k < 64) :
    (roundedScan N tie v)[k]? = some (N.rnd tie v[k]) := by
  simp [roundedScan, hk]

/-! ### The operation `RLEE` -/

/-- The list that `RLEE` writes for a scan vector. -/
def rleeList (v : Block) : Record := (encodeRuns (roundedScan b64 .halfEven v)).sym

/-- The zeros at its end that `RLEE` does not emit. -/
def rleeZeros (v : Block) : Nat := (encodeRuns (roundedScan b64 .halfEven v)).run

theorem expandRuns_rleeList (v : Block) :
    expandRuns (rleeList v) ++ List.replicate (rleeZeros v) 0 = roundedScan b64 .halfEven v := (encodeRuns_read _).expand

theorem rleeList_ne_zero (v : Block) : ∀ sy ∈ rleeList v, sy.value ≠ 0 := (encodeRuns_read _).nonzero

theorem length_rleeList_add_zeros (v : Block) : (expandRuns (rleeList v)).length + rleeZeros v = 64 := by
  simpa [length_roundedScan] using congrArg List.length (expandRuns_rleeList v)

theorem exec_rlee_of_finite {s : State} {v : Block} (hv : s.seq = some v) (h : blockFinite v = true) :
    exec .rlee s
      = .next { s with sym := rleeList v, work := { s.work with run := rleeZeros v, k := 64 } }.complete := by
  have hk : (encodeRuns (roundedScan b64 .halfEven v)).k = 64 := (encodeRuns_read _).count.trans (length_roundedScan ..)
  rw [exec_rlee, unitRlee, State.withSeq_of_finite hv h, ← hk]
  rfl

theorem exists_exec_rlee {s : State} {v : Block} (hv : s.seq = some v) (h : blockFinite v = true) :
    ∃ t, exec .rlee s = .next t ∧ t.sym = rleeList v :=
  ⟨_, exec_rlee_of_finite hv h, State.complete_sym _⟩

theorem exec_rlee_sym {s t : State} {v : Block} (hv : s.seq = some v) (h : exec .rlee s = .next t) : t.sym = rleeList v := by
  obtain ⟨w, hw, hfin, -⟩ := State.withSeq_next h
  obtain rfl : w = v := Option.some.inj (hw.symm.trans hv)
  obtain ⟨t', ht', hsym⟩ := exists_exec_rlee hv hfin
  obtain rfl : t' = t := Host.Outcome.next.inj (ht'.symm.trans h)
  exact hsym

/-- The scan vector's rounded values, read off the list and the zeros after it. -/
theorem rnd64_eq_of_rleeList (v : Block) {k : Nat} (hk : k < 64) :
    rnd64 .halfEven v[k] = (expandRuns (rleeList v))[k]?.getD 0 := by
  have h := roundedScan_getElem? b64 .halfEven v hk
  have hlen := length_rleeList_add_zeros v
  rw [← expandRuns_rleeList] at h
  by_cases hlt : k < (expandRuns (rleeList v)).length
  · rw [List.getElem?_append_left hlt] at h
    rw [h]; rfl
  · rw [List.getElem?_append_right (not_lt.mp hlt), List.getElem?_replicate, if_pos (by omega)] at h
    rw [List.getElem?_eq_none (not_lt.mp hlt)]
    exact (Option.some.inj h).symm

/-- R158: the last position that the list reaches holds a value that is not zero. -/
theorem rnd64_last_ne_zero {v : Block} {k : Nat} (hk : k < 64) (hlast : k + 1 = (expandRuns (rleeList v)).length) :
    rnd64 .halfEven v[k] ≠ 0 := by
  have hlt : k < (expandRuns (rleeList v)).length := by omega
  rw [rnd64_eq_of_rleeList v hk, List.getElem?_eq_getElem hlt]
  exact expandRuns_last_ne_zero (rleeList_ne_zero v) hlast (List.getElem?_eq_getElem hlt)

/-- R158: past the list the values are zero. -/
theorem rnd64_eq_zero_of_length_le {v : Block} {k : Nat} (hk : k < 64) (h : (expandRuns (rleeList v)).length ≤ k) :
    rnd64 .halfEven v[k] = 0 := by
  rw [rnd64_eq_of_rleeList v hk, List.getElem?_eq_none h]
  rfl

/-- R158: the list ends at the last value that is not zero. -/
theorem length_expandRuns_rleeList {v : Block} {k : Nat} (hk : k < 64) (hne : rnd64 .halfEven v[k] ≠ 0)
    (hzero : ∀ (j : Nat) (_ : j < 64), k < j → rnd64 .halfEven v[j] = 0) : (expandRuns (rleeList v)).length = k + 1 := by
  have hlen := length_rleeList_add_zeros v
  have hreach : k < (expandRuns (rleeList v)).length :=
    not_le.mp fun hle => hne (rnd64_eq_zero_of_length_le hk hle)
  by_contra hlong
  exact rnd64_last_ne_zero (k := (expandRuns (rleeList v)).length - 1) (by omega) (by omega)
    (hzero _ (by omega) (by omega))

/-- R158: no value, no symbol. -/
theorem rleeList_eq_nil {v : Block} (hzero : ∀ (k : Nat) (_ : k < 64), rnd64 .halfEven v[k] = 0) : rleeList v = [] := by
  have hlen := length_rleeList_add_zeros v
  have hle := length_le_length_expandRuns (rleeList v)
  by_contra hne
  have hpos := List.length_pos_of_ne_nil hne
  exact rnd64_last_ne_zero (k := (expandRuns (rleeList v)).length - 1) (by omega) (by omega) (hzero _ (by omega))

/-- Settles O38: the coder's invariant at the end of the loop. -/
theorem rleeEncodes : Obligations.RleeEncodes :=
  ⟨by decide, fun _ v hv h =>
    ⟨rleeList v, rleeZeros v, exec_rlee_of_finite hv h, expandRuns_rleeList v, rleeList_ne_zero v⟩⟩

/-- Settles O39: the list written out is the rounded vector up to its last value that is not zero. -/
theorem rleeListInvariants : Obligations.RleeListInvariants := by
  intro s t v hv h
  have hlen := length_rleeList_add_zeros v
  rw [exec_rlee_sym hv h]
  refine ⟨fun sy hsy => ⟨rleeList_ne_zero v sy hsy, ?_⟩, ?_, fun k hk hne hzero => ?_, rleeList_eq_nil,
    fun s' t' v' hv' h' hsame k hk => ?_⟩
  · have := run_lt_length_expandRuns hsy
    omega
  · have := length_le_length_expandRuns (rleeList v)
    omega
  · rw [← length_expandRuns, length_expandRuns_rleeList hk hne hzero]
  · rw [exec_rlee_sym hv' h'] at hsame
    rw [rnd64_eq_of_rleeList v' hk, rnd64_eq_of_rleeList v hk, hsame]

/-! ### The decoder (R161) -/

/-- The scan vector that holds a list of integers, zeros after it. -/
def zeroPadded {α : Type} (N : Num α) (vs : List Int) : Vector α 64 := Vector.ofFn fun k => N.ofInt (vs[k]?.getD 0)

theorem zeroPadded_getElem {α : Type} (N : Num α) (vs : List Int) {k : Nat} (hk : k < 64) :
    (zeroPadded N vs)[k] = N.ofInt (vs[k]?.getD 0) := by
  simp [zeroPadded]

theorem toList_zeroPadded {α : Type} (N : Num α) {vs : List Int} (h : vs.length ≤ 64) :
    (zeroPadded N vs).toList = (vs ++ List.replicate (64 - vs.length) 0).map N.ofInt := by
  refine List.ext_getElem (by simp; omega) fun k hk _ => ?_
  have hk : k < 64 := by simpa using hk
  rw [Vector.getElem_toList, zeroPadded_getElem N vs hk, List.getElem_map, List.getElem_append]
  split_ifs with hlt
  · rw [List.getElem?_eq_getElem hlt, Option.getD_some]
  · rw [List.getElem?_eq_none (not_lt.mp hlt), Option.getD_none, List.getElem_replicate]

theorem zeroPadded_nil {α : Type} (N : Num α) : zeroPadded N [] = Vector.replicate 64 (N.ofInt 0) := by
  ext k hk
  rw [zeroPadded_getElem N [] hk, Vector.getElem_replicate]
  rfl

/-- R161: a symbol leaves its zeros as they are and writes its value after them. -/
theorem zeroPadded_setIfInBounds {α : Type} (N : Num α) (vs : List Int) (sy : Symbol) :
    (zeroPadded N vs).setIfInBounds (vs.length + sy.run) (N.ofInt sy.value)
      = zeroPadded N (vs ++ List.replicate sy.run 0 ++ [sy.value]) := by
  ext k hk
  rw [Vector.getElem_setIfInBounds, zeroPadded_getElem N _ hk, zeroPadded_getElem N _ hk]
  rcases lt_trichotomy k (vs.length + sy.run) with hbefore | hhere | hafter
  · grind
  · simp [hhere]
  · grind

/-- The decoder goes on after the symbols that fit as from the vector that holds them. -/
theorem decodeRuns_append {α : Type} (N : Num α) (r after : Record) (vs : List Int)
    (h : (vs ++ expandRuns r).length ≤ 64) :
    decodeRuns N (r ++ after) vs.length (zeroPadded N vs)
      = decodeRuns N after (vs ++ expandRuns r).length (zeroPadded N (vs ++ expandRuns r)) := by
  induction r generalizing vs with
  | nil => simp [expandRuns]
  | cons sy r ih =>
    have hvs : vs ++ expandRuns (sy :: r) = vs ++ List.replicate sy.run 0 ++ [sy.value] ++ expandRuns r := by
      simp [expandRuns_cons]
    have hlen : (vs ++ List.replicate sy.run 0 ++ [sy.value]).length = vs.length + sy.run + 1 := by
      simp [Nat.add_assoc]
    rw [hvs] at h ⊢
    have hfits : ¬63 < vs.length + sy.run := by
      rw [List.length_append, hlen] at h
      omega
    rw [List.cons_append, decodeRuns, if_neg hfits, zeroPadded_setIfInBounds, ← hlen, ih _ h]

theorem decodeSymbols_append {α : Type} (N : Num α) {r : Record} (h : (expandRuns r).length ≤ 64) (after : Record) :
    decodeSymbols N (r ++ after) = decodeRuns N after (expandRuns r).length (zeroPadded N (expandRuns r)) := by
  rw [decodeSymbols, ← zeroPadded_nil]
  exact decodeRuns_append N r after [] h

/-- R161: a list that fits. -/
theorem decodeSymbols_of_fits {α : Type} (N : Num α) {r : Record} (h : (expandRuns r).length ≤ 64) :
    decodeSymbols N r = ⟨(expandRuns r).length, .ok (zeroPadded N (expandRuns r))⟩ := by
  simpa [decodeRuns] using decodeSymbols_append N h []

/-- R162: the first symbol that does not fit. -/
theorem decodeSymbols_of_overflow {α : Type} (N : Num α) {before : Record} (h : (expandRuns before).length ≤ 64)
    {sy : Symbol} (hover : 63 < (expandRuns before).length + sy.run) (after : Record) :
    decodeSymbols N (before ++ sy :: after)
      = ⟨(expandRuns before).length, .error ((expandRuns before).length + sy.run)⟩ := by
  rw [decodeSymbols_append N h, decodeRuns, if_pos hover]

theorem exec_rled_of_fits {s : State} (h : (expandRuns s.sym).length ≤ 64) :
    exec .rled s
      = .next { s with
          seq := some (zeroPadded b64 (expandRuns s.sym))
          work := { s.work with pos := (expandRuns s.sym).length } }.complete := by
  rw [exec_rled, unitRled, decodeSymbols_of_fits b64 h]

theorem exists_exec_rled {s : State} {r : Record} (hr : s.sym = r) (h : (expandRuns r).length ≤ 64) :
    ∃ t, exec .rled s = .next t ∧ t.seq = some (zeroPadded b64 (expandRuns r)) := by
  subst hr
  exact ⟨_, exec_rled_of_fits h, State.complete_seq _⟩

/-- Settles O40: the decoder's vector after the last symbol. -/
theorem rledDecodes : Obligations.RledDecodes := fun _ h =>
  ⟨_, exec_rled_of_fits h, toList_zeroPadded b64 h⟩

/-- Settles O41: the decoder's vector before the symbol that does not fit, and the fault. -/
theorem rledOverflows : Obligations.RledOverflows := by
  intro s before sy after hsym h hover
  rw [exec_rled, unitRled, hsym, decodeSymbols_of_overflow b64 h hover]
  rfl

end Sys2Proof.Machine
end

section
/-! PROOF. R163: rounding to an integer loses nothing in binary64, the coder and the decoder undo each other, and
`RunLengthRoundTrip`. -/

namespace Sys2Proof.Machine

/-! ### Integers in binary64 -/

/-- The integer nearest to a binary64 value is a binary64 value: a value with a fraction lies below 2^52. -/
theorem isBinary64_roundRat {q : Rat} (h : isBinary64 q) (tie : RoundTie) : isBinary64 (roundRat tie q : Rat) := by
  obtain ⟨m, e, hm, -, -, hq⟩ := isBinary64_iff.mp h
  rcases le_or_gt 0 e with he | he
  · obtain ⟨n, hn⟩ := pow2_eq_mul he
    have hint : q = ((m * n : Int) : Rat) := by
      rw [hq, hn, pow2_eq 0, zpow_zero]
      push_cast
      ring
    have hround : (roundRat tie q : Rat) = q := by rw [hint, roundRat_intCast]
    rwa [hround]
  · apply isBinary64_intCast
    have hm' : ((|m| : Int) : Rat) ≤ 2 ^ 53 := by exact_mod_cast hm.le
    have hsmall : |q| ≤ 2 ^ 53 / 2 := by
      rw [hq, abs_intCast_mul_pow2]
      calc ((|m| : Int) : Rat) * pow2 e ≤ 2 ^ 53 * pow2 (-1) :=
            mul_le_mul hm' (pow2_le_pow2.mpr (by omega)) (pow2_pos e).le (by positivity)
        _ = 2 ^ 53 / 2 := by rw [pow2_eq]; norm_num
    have hnear := roundRat_near tie q
    have htri := abs_sub_abs_le_abs_sub (roundRat tie q : Rat) q
    have hbound : ((|roundRat tie q| : Int) : Rat) ≤ 2 ^ 53 := by
      push_cast
      linarith
    exact_mod_cast hbound

/-- R156: the rounded value of a finite binary64 value is held exactly. -/
theorem ofInt64_roundRat {q : Rat} (h : isBinary64 q) (tie : RoundTie) : ofInt64 (roundRat tie q) = .fin (roundRat tie q) :=
  round64_of_isBinary64 (isBinary64_roundRat h tie)

theorem rnd64_ofInt64 (tie : RoundTie) {n : Int} (h : |n| ≤ 2 ^ 53) : rnd64 tie (ofInt64 n) = n := by
  rw [ofInt64_eq h, rnd64, roundRat_intCast]

/-! ### The decoder after the coder -/

theorem fits_rleeList (v : Block) : (expandRuns (rleeList v)).length ≤ 64 := by
  have := length_rleeList_add_zeros v
  omega

/-- The vector that `RLED` decodes from the list that `RLEE` writes. -/
def recoded (v : Block) : Block := zeroPadded b64 (expandRuns (rleeList v))

theorem recoded_getElem (v : Block) {k : Nat} (hk : k < 64) : (recoded v)[k] = ofInt64 (rnd64 .halfEven v[k]) := by
  rw [recoded, zeroPadded_getElem b64 _ hk, rnd64_eq_of_rleeList v hk]
  rfl

/-- The four operations of R163 as functions of the block. -/
theorem exec_zzf_rlee_rled_zzi {s : State} (h : blockFinite s.blk = true)
    (hfin : blockFinite (recoded (scan b64 s.blk)) = true) :
    ∃ t, thenExec (thenExec (thenExec (exec .zzf s) .rlee) .rled) .zzi = .next t
      ∧ t.blk = unscan b64 (recoded (scan b64 s.blk)) := by
  obtain ⟨t₁, hzzf, hseq₁⟩ := exists_exec_zzf h
  obtain ⟨t₂, hrlee, hsym⟩ := exists_exec_rlee hseq₁ (blockFinite_scan h)
  obtain ⟨t₃, hrled, hseq₃⟩ := exists_exec_rled hsym (fits_rleeList _)
  obtain ⟨t, hzzi, hblk⟩ := exists_exec_zzi hseq₃ hfin
  exact ⟨t, thenExec_eq_next (thenExec_eq_next (thenExec_eq_next hzzf hrlee) hrled) hzzi, hblk⟩

/-- R163: each place gets back its own rounded value. -/
theorem unscan_recoded_scan_getElem (b : Block) {i : Nat} (hi : i < 64) :
    (unscan b64 (recoded (scan b64 b)))[i] = ofInt64 (rnd64 .halfEven b[i]) := by
  obtain ⟨k, hk, rfl⟩ := zz_surjective hi
  rw [unscan_getElem b64 _ hk, recoded_getElem _ hk, scan_getElem b64 b hk]

/-- Every element is a finite value of binary64. -/
def BlockOfBinary64 (b : Block) : Prop := ∀ (k : Nat) (_ : k < 64), ∃ q, b[k] = .fin q ∧ isBinary64 q

theorem blockOfBinary64_of_all {b : Block} (hfin : blockFinite b = true) (hwf : b.toList.all wf64 = true) :
    BlockOfBinary64 b := fun k hk => by
  have hf := blockFinite_iff.mp hfin k hk
  have hw := all_toList_iff.mp hwf k hk
  cases hb : b[k] with
  | fin q => exact ⟨q, rfl, (wf64_fin_iff q).mp (hb ▸ hw)⟩
  | inf _ => rw [hb] at hf; cases hf
  | nan => rw [hb] at hf; cases hf

theorem BlockOfBinary64.scan {b : Block} (h : BlockOfBinary64 b) : BlockOfBinary64 (scan b64 b) := fun k hk => by
  rw [scan_getElem b64 b hk]
  exact h _ _

/-- The rounded values are finite again, so `ZZI` takes them. -/
theorem BlockOfBinary64.recoded_finite {v : Block} (h : BlockOfBinary64 v) : blockFinite (recoded v) = true :=
  blockFinite_of_getElem fun k hk => by
    obtain ⟨q, hq, hbin⟩ := h k hk
    rw [recoded_getElem v hk, hq, rnd64, ofInt64_roundRat hbin]
    rfl

/-! ### The coder after the decoder -/

/-- Where rounding gives back every integer that the decoder writes, the coder reads the list written out, zeros after it. -/
theorem roundedScan_zeroPadded {α : Type} {N : Num α} {tie : RoundTie} {vs : List Int}
    (hexact : ∀ n ∈ 0 :: vs, N.rnd tie (N.ofInt n) = n) (h : vs.length ≤ 64) :
    roundedScan N tie (zeroPadded N vs) = vs ++ List.replicate (64 - vs.length) 0 := by
  rw [roundedScan, toList_zeroPadded N h, List.map_map]
  have hid : ∀ n ∈ vs ++ List.replicate (64 - vs.length) 0, (N.rnd tie ∘ N.ofInt) n = n := fun n hn => by
    rcases List.mem_append.mp hn with hn | hn
    · exact hexact n (List.mem_cons_of_mem 0 hn)
    · exact hexact n (by simp [List.eq_of_mem_replicate hn])
  exact (List.map_congr_left hid).trans (List.map_id' _)

theorem encodeRuns_zeroPadded {α : Type} {N : Num α} {tie : RoundTie} {r : Record} (hr : ∀ sy ∈ r, sy.value ≠ 0)
    (hexact : ∀ n ∈ 0 :: expandRuns r, N.rnd tie (N.ofInt n) = n) (h : (expandRuns r).length ≤ 64) :
    (encodeRuns (roundedScan N tie (zeroPadded N (expandRuns r)))).sym = r := by
  rw [roundedScan_zeroPadded hexact h, encodeRuns_expandRuns hr]

/-- A bound on the values of a list's symbols bounds the list written out. -/
theorem abs_le_of_mem_expandRuns {r : Record} {B : Int} (hB : 0 ≤ B) (hr : ∀ sy ∈ r, |sy.value| ≤ B) {n : Int}
    (hn : n ∈ 0 :: expandRuns r) : |n| ≤ B := by
  rcases List.mem_cons.mp hn with rfl | hn
  · simpa using hB
  rcases mem_expandRuns hn with rfl | ⟨sy, hsy, rfl⟩
  · simpa using hB
  · exact hr sy hsy

theorem blockFinite_zeroPadded {vs : List Int} (hbound : ∀ n ∈ 0 :: vs, |n| ≤ 2 ^ 53) :
    blockFinite (zeroPadded b64 vs) = true :=
  blockFinite_of_getElem fun k hk => by
    have hmem : vs[k]?.getD 0 ∈ 0 :: vs := by grind
    rw [zeroPadded_getElem b64 vs hk]
    exact congrArg Real64.isFinite (ofInt64_eq (hbound _ hmem))

/-- R163 on the machine: `RLEE` writes the list that `RLED` read where binary64 holds its values exactly (log 23). -/
theorem exec_rled_rlee {s : State} (hne : ∀ sy ∈ s.sym, sy.value ≠ 0)
    (hbound : ∀ n ∈ 0 :: expandRuns s.sym, |n| ≤ 2 ^ 53) (h : (expandRuns s.sym).length ≤ 64) :
    ∃ t, thenExec (exec .rled s) .rlee = .next t ∧ t.sym = s.sym := by
  have hsame : rleeList (zeroPadded b64 (expandRuns s.sym)) = s.sym :=
    encodeRuns_zeroPadded hne (fun n hn => rnd64_ofInt64 .halfEven (hbound n hn)) h
  obtain ⟨t₁, hrled, hseq⟩ := exists_exec_rled rfl h
  obtain ⟨t, hrlee, hsym⟩ := exists_exec_rlee hseq (blockFinite_zeroPadded hbound)
  exact ⟨t, thenExec_eq_next hrled hrlee, hsym.trans hsame⟩

/-- Settles O42: the decoded vector of a coded one is the rounded vector, which binary64 holds exactly; and the coder turns a list
written out back into the list, whose values rounding leaves as they are. -/
theorem runLengthRoundTrip : Obligations.RunLengthRoundTrip := by
  refine ⟨fun s h hwf => ?_, fun tie r hne h => ?_, fun s hr h => ?_⟩
  · have hblk := blockOfBinary64_of_all h hwf
    obtain ⟨t, ht, htblk⟩ := exec_zzf_rlee_rled_zzi h hblk.scan.recoded_finite
    refine ⟨t, ht, fun k hk q hq => ?_⟩
    obtain ⟨q', hq', hbin⟩ := hblk k hk
    obtain rfl : q' = q := Real64.fin.inj (hq'.symm.trans hq)
    simp only [htblk]
    rw [unscan_recoded_scan_getElem s.blk hk, hq, rnd64, ofInt64_roundRat hbin]
  · refine ⟨_, congrArg Decoder.result (decodeSymbols_of_fits exactNum h), encodeRuns_zeroPadded hne (fun n _ => ?_) h⟩
    exact exactNum_rnd_intCast tie n
  · refine exec_rled_rlee (fun sy hsy => (hr sy hsy).1) (fun n => ?_) h
    exact abs_le_of_mem_expandRuns (by norm_num) fun sy hsy => (hr sy hsy).2

end Sys2Proof.Machine
end

section
/-! PROOF. R56, R74 to R77: the header, the symbols and the records of a stream as bytes and as two-byte groups. -/

namespace Sys2Proof.Machine

/-! ### The header -/

theorem be16_lt (b0 b1 : Byte) : be16 b0 b1 < 2 ^ 16 := by
  unfold be16
  omega

/-- R56: a 16-bit register holds every number that two bytes can stand for. -/
theorem toNat_ofNat_be16 (b0 b1 : Byte) : (BitVec.ofNat 16 (be16 b0 b1)).toNat = be16 b0 b1 := by
  rw [BitVec.toNat_ofNat, Nat.mod_eq_of_lt (be16_lt b0 b1)]

theorem ofNat_be16_ne_zero {b0 b1 : Byte} (h : be16 b0 b1 ≠ 0) : (BitVec.ofNat 16 (be16 b0 b1) : Half) ≠ 0 := by
  rwa [ne_eq, ← BitVec.toNat_inj, toNat_ofNat_be16]

theorem hiByte_toNat (x : Half) : (hiByte x).toNat = x.toNat / 256 := by
  rw [hiByte, BitVec.extractLsb'_toNat, Nat.shiftRight_eq_div_pow]
  omega

theorem loByte_toNat (x : Half) : (loByte x).toNat = x.toNat % 256 := by
  simp [loByte, BitVec.extractLsb'_toNat]

/-- R56: the two bytes of a register give it back. -/
theorem be16_hiByte_loByte (x : Half) : be16 (hiByte x) (loByte x) = x.toNat := by
  rw [be16, hiByte_toNat, loByte_toNat]
  exact Nat.div_add_mod x.toNat 256

/-- R56: the register read from two bytes gives them back. -/
theorem hiByte_ofNat_be16 (b0 b1 : Byte) : hiByte (BitVec.ofNat 16 (be16 b0 b1)) = b0 := by
  apply BitVec.eq_of_toNat_eq
  rw [hiByte_toNat, toNat_ofNat_be16, be16]
  omega

theorem loByte_ofNat_be16 (b0 b1 : Byte) : loByte (BitVec.ofNat 16 (be16 b0 b1)) = b1 := by
  apply BitVec.eq_of_toNat_eq
  rw [loByte_toNat, toNat_ofNat_be16, be16]
  omega

theorem headerBytes_ofNat_be16 (b0 b1 b2 b3 : Byte) :
    headerBytes (BitVec.ofNat 16 (be16 b0 b1)) (BitVec.ofNat 16 (be16 b2 b3)) = [b0, b1, b2, b3] := by
  simp only [headerBytes, hiByte_ofNat_be16, loByte_ofNat_be16]

/-- The body of a stream starts at address 4. -/
theorem getElem?_streamBytes (w h : Half) (l : List Record) (a : Nat) :
    (streamBytes w h l)[4 + a]? = (l.flatMap recordBytes)[a]? := by
  rw [streamBytes, List.getElem?_append_right (Nat.le_add_right 4 a)]
  exact congrArg (_[·]?) (Nat.add_sub_cancel_left 4 a)

/-! ### Symbols -/

/-- The two bytes of a symbol as one group (R74). -/
def symbolGroup (sy : Symbol) : Byte × Byte := (BitVec.ofNat 8 sy.run, encodeValue sy.value)

/-- R74, R181: the symbol that a group other than the delimiter stands for. -/
def groupSymbol (r v : Byte) : Symbol := ⟨r.toNat, decodeValue v⟩

theorem symbolBytes_eq (sy : Symbol) : symbolBytes sy = [(symbolGroup sy).1, (symbolGroup sy).2] := rfl

/-- R77: the byte of any value is 0 exactly where the value is a multiple of 256. -/
theorem encodeValue_eq_zero_iff (v : Int) : encodeValue v = 0x00 ↔ v % 256 = 0 := by
  rw [← encodeValue_toNat, Nat.cast_eq_zero, ← BitVec.toNat_inj]
  rfl

/-- R77: the value of any byte has this byte. -/
theorem encodeValue_decodeValue (b : Byte) : encodeValue (decodeValue b) = b := by
  rw [decodeValue_eq_toInt, encodeValue, BitVec.ofInt_toInt]

theorem ofNat_run_eq_zero_iff {n : Nat} (h : n ≤ 255) : (BitVec.ofNat 8 n : Byte) = 0x00 ↔ n = 0 := by
  rw [← BitVec.toNat_inj, BitVec.toNat_ofNat, Nat.mod_eq_of_lt (by omega)]
  rfl

/-- R173: no symbol that `FWR` may write reads as a delimiter. -/
theorem symbolGroup_ne_delimiter {P : Params} {sy : Symbol} (h : writable P sy) : symbolGroup sy ≠ (0x00, 0x00) := by
  obtain ⟨hrun, -, hdelim⟩ := h
  rwa [symbolGroup, ne_eq, Prod.mk.injEq, ofNat_run_eq_zero_iff hrun, encodeValue_eq_zero_iff]

theorem wellFormed_iff (sy : Symbol) :
    sy.wellFormed = true ↔ sy.run ≤ 255 ∧ -128 ≤ sy.value ∧ sy.value ≤ 127 ∧ ¬(sy.run = 0 ∧ sy.value = 0) := by
  simp [Symbol.wellFormed, and_assoc, imp_iff_not_or]

/-- R173, R181: without `VALUE_WRAP` the symbols that `FWR` may write are those that the bytes carry unchanged. -/
theorem writable_specParams_iff (sy : Symbol) : writable specParams sy ↔ sy.wellFormed = true := by
  have hwrap : specParams.valueWrap = false := rfl
  simp only [wellFormed_iff, writable, hwrap, Bool.false_eq_true, false_or]
  omega

/-- R181: the two bytes of a well-formed symbol stand for it. -/
theorem groupSymbol_symbolGroup {sy : Symbol} (h : sy.wellFormed = true) :
    groupSymbol (symbolGroup sy).1 (symbolGroup sy).2 = sy := by
  obtain ⟨hrun, hlo, hhi, -⟩ := (wellFormed_iff sy).mp h
  simp only [groupSymbol, symbolGroup, decodeValue_encodeValue hlo hhi, BitVec.toNat_ofNat,
    Nat.mod_eq_of_lt (Nat.lt_succ_of_le hrun)]

/-- R181: the symbol that a group stands for has this group for its bytes. -/
theorem symbolBytes_groupSymbol (r v : Byte) : symbolBytes (groupSymbol r v) = [r, v] := by
  simp [symbolBytes, groupSymbol, encodeValue_decodeValue]

/-- R179: every group but the delimiter stands for a well-formed symbol. -/
theorem groupSymbol_wellFormed {r v : Byte} (h : ¬(r = 0x00 ∧ v = 0x00)) : (groupSymbol r v).wellFormed = true := by
  have hwritable : writable specParams (groupSymbol r v) := by
    refine ⟨Nat.le_of_lt_succ r.isLt, .inr ?range, ?delimiter⟩
    case range =>
      have := v.isLt
      simp only [groupSymbol, decodeValue]
      split <;> omega
    case delimiter =>
      rwa [← encodeValue_eq_zero_iff, groupSymbol, encodeValue_decodeValue, ← ofNat_run_eq_zero_iff
        (Nat.le_of_lt_succ r.isLt), BitVec.ofNat_toNat, BitVec.setWidth_eq]
  exact (writable_specParams_iff _).mp hwritable

/-! ### Records as bytes -/

theorem length_flatMap_symbolBytes (r : Record) : (r.flatMap symbolBytes).length = 2 * r.length := by
  simp [List.length_flatMap, symbolBytes, Nat.mul_comm]

theorem length_flatMap_recordBytes (l : List Record) :
    (l.flatMap recordBytes).length = 2 * l.length + 2 * (l.map List.length).sum := by
  induction l with
  | nil => rfl
  | cons r l ih =>
    simp only [List.flatMap_cons, recordBytes, List.length_append, length_flatMap_symbolBytes, ih, List.length_cons,
      List.length_nil, List.map_cons, List.sum_cons]
    omega

/-- R174: the length of a stream. -/
theorem length_streamBytes (w h : Half) (l : List Record) :
    (streamBytes w h l).length = 4 + 2 * l.length + 2 * (l.map List.length).sum := by
  rw [streamBytes, List.length_append, length_flatMap_recordBytes, ← Nat.add_assoc]
  rfl

/-! ### Records as groups -/

/-- The groups of one record (R74): its symbols, then the delimiter. -/
def recordGroups (r : Record) : List (Byte × Byte) := r.map symbolGroup ++ [(0x00, 0x00)]

theorem groups_recordBytes_append (r : Record) (rest : List Byte) :
    groups (recordBytes r ++ rest) = recordGroups r ++ groups rest := by
  induction r with
  | nil => rfl
  | cons sy r ih => exact congrArg (symbolGroup sy :: ·) ih

/-- R74: a body of records divides into the groups of its records. -/
theorem groups_flatMap_recordBytes (l : List Record) : groups (l.flatMap recordBytes) = l.flatMap recordGroups := by
  induction l with
  | nil => rfl
  | cons r l ih => rw [List.flatMap_cons, groups_recordBytes_append, ih, List.flatMap_cons]

theorem length_groups (body : List Byte) : (groups body).length = body.length / 2 := by
  fun_induction groups body with
  | case1 a b rest ih =>
    simp only [List.length_cons, ih]
    omega
  | case2 => simp
  | case3 => rfl

/-- R173, R174: the delimiter at the end of a record is its only one. -/
theorem count_recordGroups {P : Params} {r : Record} (h : ∀ sy ∈ r, writable P sy) :
    (recordGroups r).count (0x00, 0x00) = 1 := by
  have hsymbols : (r.map symbolGroup).count (0x00, 0x00) = 0 := by
    refine List.count_eq_zero.mpr fun hmem => ?_
    obtain ⟨sy, hsy, heq⟩ := List.mem_map.mp hmem
    exact symbolGroup_ne_delimiter (h sy hsy) heq
  rw [recordGroups, List.count_append, hsymbols, List.count_singleton_self]

theorem count_flatMap_recordGroups {P : Params} {l : List Record} (h : ∀ r ∈ l, ∀ sy ∈ r, writable P sy) :
    (l.flatMap recordGroups).count (0x00, 0x00) = l.length := by
  induction l with
  | nil => rfl
  | cons r l ih =>
    obtain ⟨hr, hl⟩ := List.forall_mem_cons.mp h
    rw [List.flatMap_cons, List.count_append, count_recordGroups hr, ih hl, List.length_cons, Nat.add_comm]

theorem mem_flatMap_recordGroups {l : List Record} {g : Byte × Byte} (h : g ∈ l.flatMap recordGroups) :
    g = (0x00, 0x00) ∨ ∃ r ∈ l, ∃ sy ∈ r, symbolBytes sy = [g.1, g.2] := by
  obtain ⟨r, hr, hg⟩ := List.mem_flatMap.mp h
  rcases List.mem_append.mp hg with hg | hg
  · obtain ⟨sy, hsy, rfl⟩ := List.mem_map.mp hg
    exact .inr ⟨r, hr, sy, hsy, symbolBytes_eq sy⟩
  · exact .inl (List.mem_singleton.mp hg)

/-- R174: the last record ends with its delimiter. -/
theorem getLast?_flatMap_recordGroups {l : List Record} (h : l ≠ []) :
    (l.flatMap recordGroups).getLast? = some (0x00, 0x00) := by
  obtain ⟨before, r, rfl⟩ := (List.eq_nil_or_concat' l).resolve_left h
  rw [List.flatMap_append, List.flatMap_singleton, recordGroups, ← List.append_assoc, List.getLast?_concat]

end Sys2Proof.Machine
end

section
/-! PROOF. R171 to R174: what `FWR` writes and where it stops, and `FwrDimensionError`, `FwrWritesTheStream`, `FwrStreamShape`,
`FwrValueRangeFault`. -/

namespace Sys2Proof.Machine

/-! ### The loops over symbols and records -/

theorem encodable_iff (P : Params) (sy : Symbol) : encodable P sy = true ↔ writable P sy := by
  simp [encodable, writable, and_assoc, imp_iff_not_or]

/-- R172: a record whose symbols can all be written. -/
theorem writeRecord_of_writable {P : Params} {r : Record} (h : ∀ sy ∈ r, writable P sy) (b : Nat) :
    writeRecord P b r = ⟨recordBytes r, none⟩ := by
  induction r with
  | nil => rfl
  | cons sy r ih =>
    obtain ⟨hsy, hr⟩ := List.forall_mem_cons.mp h
    rw [writeRecord, if_pos ((encodable_iff P sy).mpr hsy), ih hr]
    rfl

/-- R173: a record with a symbol that cannot be written ends the writing with its block number. -/
theorem writeRecord_bad {P : Params} {r : Record} (h : ∃ sy ∈ r, ¬ writable P sy) (b : Nat) :
    (writeRecord P b r).bad = some b := by
  induction r with
  | nil => simp at h
  | cons sy r ih =>
    rw [writeRecord]
    split_ifs with hsy
    · obtain ⟨x, hx, hbad⟩ := h
      have hne : x ≠ sy := fun heq => hbad ((encodable_iff P x).mp (heq ▸ hsy))
      exact ih ⟨x, List.mem_of_ne_of_mem hne hx, hbad⟩
    · rfl

/-- R172, R173: the writer goes on after records that can be written. -/
theorem writeRecords_append {P : Params} {before : List Record} (h : ∀ r ∈ before, ∀ sy ∈ r, writable P sy) (b : Nat)
    (after : List Record) :
    writeRecords P b (before ++ after)
      = ⟨before.flatMap recordBytes ++ (writeRecords P (b + before.length) after).bytes,
        (writeRecords P (b + before.length) after).bad⟩ := by
  induction before generalizing b with
  | nil => rfl
  | cons r before ih =>
    obtain ⟨hr, hbefore⟩ := List.forall_mem_cons.mp h
    simp [writeRecords, writeRecord_of_writable hr, ih hbefore, Nat.add_assoc, Nat.add_comm 1]

theorem writeRecords_of_writable {P : Params} {l : List Record} (h : ∀ r ∈ l, ∀ sy ∈ r, writable P sy) :
    writeRecords P 0 l = ⟨l.flatMap recordBytes, none⟩ := by
  simpa [writeRecords] using writeRecords_append h 0 []

/-- R173: the number of the first block with a symbol that cannot be written. -/
theorem writeRecords_bad {P : Params} {before after : List Record} {r : Record}
    (hbefore : ∀ x ∈ before, ∀ sy ∈ x, writable P sy) (hr : ∃ sy ∈ r, ¬ writable P sy) :
    (writeRecords P 0 (before ++ r :: after)).bad = some before.length := by
  rw [writeRecords_append hbefore, Nat.zero_add]
  simp [writeRecords, writeRecord_bad hr]

/-- Where the writing comes to its end, every symbol can be written. -/
theorem writable_of_writeRecords {P : Params} {l : List Record} {b : Nat} (h : (writeRecords P b l).bad = none) :
    ∀ r ∈ l, ∀ sy ∈ r, writable P sy := by
  induction l generalizing b with
  | nil => simp
  | cons r l ih =>
    by_cases hr : ∀ sy ∈ r, writable P sy
    · refine List.forall_mem_cons.mpr ⟨hr, ih (b := b + 1) ?_⟩
      simpa [writeRecords, writeRecord_of_writable hr] using h
    · push Not at hr
      simp [writeRecords, writeRecord_bad hr] at h

/-! ### The operation `FWR` -/

/-- The state after `FWR` has written these bytes (R172). -/
def State.withStream (s : State) (bytes : List Byte) : State :=
  { s with
    stream := Mem.ofList bytes
    len := some bytes.length
    work := { s.work with wptr := bytes.length } }.complete

theorem State.withStream_holdsStream (s : State) (bytes : List Byte) : (s.withStream bytes).holdsStream bytes :=
  ⟨rfl, fun i _ => Mem.read_ofList bytes i⟩

theorem State.read_withStream (s : State) (bytes : List Byte) (a : Nat) :
    Mem.read (s.withStream bytes).stream a = bytes[a]? := Mem.read_ofList bytes a

/-- The state that a fault of `FWR` leaves (R226): the fault recorded, its results holding no value; `wptr` is what the working
counter ended with. -/
def State.writerFault (s : State) (wptr : Nat) (e : ErrCode) (info : Nat) : State :=
  State.raise { s with stream := [], len := none, work := { s.work with wptr := wptr } } e info

@[simp] theorem State.doneBit_writerFault (s : State) (wptr : Nat) (e : ErrCode) (info : Nat) :
    doneBit (s.writerFault wptr e info).status = false := by
  simp [State.writerFault, statusFault]

section
variable {P : Params} {s : State} {w h : Half} {l : List Record}

theorem unitFwr_of_width_zero (hw : s.width = some w) (hh : s.height = some h) (hl : s.blkList = some l) (hw0 : w = 0) :
    unitFwr P s = .next (s.writerFault 0 .dimensionError 1) := by
  simp only [unitFwr, State.withDims_of_some hw hh, State.withBlkList_of_some hl, if_pos hw0]
  rfl

theorem unitFwr_of_height_zero (hw : s.width = some w) (hh : s.height = some h) (hl : s.blkList = some l) (hw0 : w ≠ 0)
    (hh0 : h = 0) : unitFwr P s = .next (s.writerFault 0 .dimensionError 2) := by
  simp only [unitFwr, State.withDims_of_some hw hh, State.withBlkList_of_some hl, if_neg hw0, if_pos hh0]
  rfl

theorem unitFwr_of_writable (hw : s.width = some w) (hh : s.height = some h) (hl : s.blkList = some l) (hw0 : w ≠ 0)
    (hh0 : h ≠ 0) (hall : ∀ r ∈ l, ∀ sy ∈ r, writable P sy) :
    unitFwr P s = .next (s.withStream (streamBytes w h l)) := by
  simp only [unitFwr, State.withDims_of_some hw hh, State.withBlkList_of_some hl, if_neg hw0, if_neg hh0,
    writeRecords_of_writable hall]
  rfl

theorem unitFwr_of_bad (hw : s.width = some w) (hh : s.height = some h) (hl : s.blkList = some l) (hw0 : w ≠ 0)
    (hh0 : h ≠ 0) {b : Nat} (hb : (writeRecords P 0 l).bad = some b) :
    ∃ wptr, unitFwr P s = .next (s.writerFault wptr .valueRange b) := by
  simp only [unitFwr, State.withDims_of_some hw hh, State.withBlkList_of_some hl, if_neg hw0, if_neg hh0, hb]
  exact ⟨_, rfl⟩

/-- R174: a `FWR` that ended without fault had non-zero dimensions and symbols that it may write, and wrote their stream. -/
theorem unitFwr_done {t : State} (hw : s.width = some w) (hh : s.height = some h) (hl : s.blkList = some l)
    (hnext : unitFwr P s = .next t) (hdone : doneBit t.status = true) :
    (∀ r ∈ l, ∀ sy ∈ r, writable P sy) ∧ t = s.withStream (streamBytes w h l) := by
  have not_fault {wptr : Nat} {e : ErrCode} {info : Nat} (hf : unitFwr P s = .next (s.writerFault wptr e info)) : False := by
    obtain rfl := Host.Outcome.next.inj (hf.symm.trans hnext)
    simp at hdone
  by_cases hw0 : w = 0
  · exact (not_fault (unitFwr_of_width_zero hw hh hl hw0)).elim
  by_cases hh0 : h = 0
  · exact (not_fault (unitFwr_of_height_zero hw hh hl hw0 hh0)).elim
  cases hbad : (writeRecords P 0 l).bad with
  | some b =>
    obtain ⟨wptr, hf⟩ := unitFwr_of_bad hw hh hl hw0 hh0 hbad
    exact (not_fault hf).elim
  | none =>
    have hall := writable_of_writeRecords hbad
    exact ⟨hall, Host.Outcome.next.inj (hnext.symm.trans (unitFwr_of_writable hw hh hl hw0 hh0 hall))⟩

theorem exec_fwr_of_wellFormed (hw : s.width = some w) (hh : s.height = some h) (hl : s.blkList = some l) (hw0 : w ≠ 0)
    (hh0 : h ≠ 0) (hwf : ∀ r ∈ l, ∀ sy ∈ r, sy.wellFormed = true) :
    exec .fwr s = .next (s.withStream (streamBytes w h l)) :=
  unitFwr_of_writable hw hh hl hw0 hh0 fun r hr sy hsy => (writable_specParams_iff sy).mpr (hwf r hr sy hsy)

end

/-- Settles O46: the writer looks at the width, then at the height, before anything else. -/
theorem fwrDimensionError : Obligations.FwrDimensionError := fun _ _ _ _ hw hh hl =>
  ⟨fun hw0 => ⟨_, unitFwr_of_width_zero hw hh hl hw0⟩, fun hw0 hh0 => ⟨_, unitFwr_of_height_zero hw hh hl hw0 hh0⟩⟩

/-- Settles O44: with symbols that the bytes can carry the writer comes to its end. -/
theorem fwrWritesTheStream : Obligations.FwrWritesTheStream := fun s w h l hw hh hl hw0 hh0 hwf =>
  ⟨_, exec_fwr_of_wellFormed hw hh hl hw0 hh0 hwf, s.read_withStream (streamBytes w h l)⟩

/-- Settles O45: what was written is the stream of symbols none of which reads as a delimiter. -/
theorem fwrStreamShape : Obligations.FwrStreamShape := by
  intro s t w h l hw hh hl hnext hdone
  obtain ⟨hall, rfl⟩ := unitFwr_done hw hh hl hnext hdone
  simp only [State.read_withStream]
  refine ⟨congrArg some (length_streamBytes w h l), ⟨_, _, _, _, rfl, rfl, rfl, rfl, be16_hiByte_loByte w,
    be16_hiByte_loByte h⟩, l.flatMap recordBytes, getElem?_streamBytes w h l, ?length, ?groups⟩
  case length =>
    rw [length_groups, length_flatMap_recordBytes]
    omega
  case groups =>
    rw [groups_flatMap_recordBytes]
    exact ⟨count_flatMap_recordGroups hall, fun g => mem_flatMap_recordGroups, getLast?_flatMap_recordGroups⟩

/-- Settles O47: the records before the block can be written, so its number is the one that the writing ends with. -/
theorem fwrValueRangeFault : Obligations.FwrValueRangeFault := by
  intro P s w h l hw hh hl hw0 hh0
  refine ⟨fun before r after hsplit hbefore hr => ?fault, fun hall => ?written⟩
  case fault =>
    obtain ⟨_, hf⟩ := unitFwr_of_bad hw hh hl hw0 hh0 (hsplit ▸ writeRecords_bad hbefore hr)
    exact ⟨_, hf⟩
  case written => exact ⟨_, _, unitFwr_of_writable hw hh hl hw0 hh0 hall, s.read_withStream (streamBytes w h l)⟩

end Sys2Proof.Machine
end

section
/-! PROOF. R177 to R181: what `FPR` reads from every byte string, that the writer and the parser undo each other, and
`FprParsesEveryByteString`, `WriterParserRoundTrip`. The loop over the groups keeps the bytes: those of the closed records and of
the open symbols, put together, are the bytes that were read. -/

namespace Sys2Proof.Machine

/-! ### The loop over the groups -/

theorem parseGroups_delimiter (rest : List Byte) (openSyms : Record) :
    parseGroups (0x00 :: 0x00 :: rest) openSyms
      = ⟨openSyms :: (parseGroups rest []).records, (parseGroups rest []).openSyms⟩ := by
  rw [parseGroups, if_pos ⟨rfl, rfl⟩]

theorem parseGroups_symbol {r v : Byte} (h : ¬(r = 0x00 ∧ v = 0x00)) (rest : List Byte) (openSyms : Record) :
    parseGroups (r :: v :: rest) openSyms = parseGroups rest (openSyms ++ [groupSymbol r v]) := by
  rw [parseGroups, if_neg h, groupSymbol]

/-- R178: no byte of a body of whole groups is lost. -/
theorem parseGroups_bytes {body : List Byte} (heven : body.length % 2 = 0) (openSyms : Record) :
    (parseGroups body openSyms).records.flatMap recordBytes ++ (parseGroups body openSyms).openSyms.flatMap symbolBytes
      = openSyms.flatMap symbolBytes ++ body := by
  fun_induction groups body generalizing openSyms with
  | case1 r v rest ih =>
    have hrest : rest.length % 2 = 0 := by
      rw [List.length_cons, List.length_cons] at heven
      omega
    by_cases hd : r = 0x00 ∧ v = 0x00
    · obtain ⟨rfl, rfl⟩ := hd
      rw [parseGroups_delimiter, List.flatMap_cons, List.append_assoc, ih hrest []]
      simp [recordBytes]
    · rw [parseGroups_symbol hd, ih hrest]
      simp [symbolBytes_groupSymbol]
  | case2 => simp at heven
  | case3 => simp [parseGroups]

/-- R179: every symbol that is read is well formed. -/
theorem parseGroups_wellFormed (body : List Byte) {openSyms : Record} (hopen : ∀ sy ∈ openSyms, sy.wellFormed = true) :
    ∀ r ∈ (parseGroups body openSyms).records, ∀ sy ∈ r, sy.wellFormed = true := by
  fun_induction groups body generalizing openSyms with
  | case1 r v rest ih =>
    by_cases hd : r = 0x00 ∧ v = 0x00
    · obtain ⟨rfl, rfl⟩ := hd
      rw [parseGroups_delimiter]
      exact List.forall_mem_cons.mpr ⟨hopen, ih (by simp)⟩
    · rw [parseGroups_symbol hd]
      exact ih (List.forall_mem_append.mpr ⟨hopen, List.forall_mem_singleton.mpr (groupSymbol_wellFormed hd)⟩)
  | case2 => simp [parseGroups]
  | case3 => simp [parseGroups]

/-- R179: `last` is the group before the body, the delimiter where no symbol is open; at the end no symbol is open where the last
group is one. -/
theorem parseGroups_openSyms_eq_nil_iff (body : List Byte) {openSyms : Record} {last : Byte × Byte}
    (hlast : openSyms = [] ↔ last = (0x00, 0x00)) :
    (parseGroups body openSyms).openSyms = [] ↔ (groups body).getLast?.getD last = (0x00, 0x00) := by
  fun_induction groups body generalizing openSyms last with
  | case1 r v rest ih =>
    rw [List.getLast?_cons, Option.getD_some]
    by_cases hd : r = 0x00 ∧ v = 0x00
    · obtain ⟨rfl, rfl⟩ := hd
      rw [parseGroups_delimiter]
      exact ih (by simp)
    · rw [parseGroups_symbol hd]
      exact ih (by simpa using hd)
  | case2 => simpa [parseGroups] using hlast
  | case3 => simpa [parseGroups] using hlast

theorem closed_iff (body : List Byte) : closed body = true ↔ (groups body).getLast?.getD (0x00, 0x00) = (0x00, 0x00) := by
  unfold closed
  cases (groups body).getLast? <;> simp

/-- R179: a record is open at the end exactly where the last group is no delimiter. -/
theorem parseGroups_closed_iff (body : List Byte) : (parseGroups body []).openSyms = [] ↔ closed body = true := by
  rw [parseGroups_openSyms_eq_nil_iff body (last := (0x00, 0x00)) (by simp), closed_iff]

/-- R181: the symbols of a record and its delimiter close the record. -/
theorem parseGroups_recordBytes_append {r : Record} (h : ∀ sy ∈ r, sy.wellFormed = true) (openSyms : Record)
    (rest : List Byte) :
    parseGroups (recordBytes r ++ rest) openSyms
      = ⟨(openSyms ++ r) :: (parseGroups rest []).records, (parseGroups rest []).openSyms⟩ := by
  induction r generalizing openSyms with
  | nil => simpa [recordBytes] using parseGroups_delimiter rest openSyms
  | cons sy r ih =>
    obtain ⟨hsy, hr⟩ := List.forall_mem_cons.mp h
    have hne := symbolGroup_ne_delimiter ((writable_specParams_iff sy).mpr hsy)
    have hbytes : recordBytes (sy :: r) ++ rest = (symbolGroup sy).1 :: (symbolGroup sy).2 :: (recordBytes r ++ rest) := rfl
    rw [hbytes, parseGroups_symbol fun hd => hne (Prod.ext hd.1 hd.2), groupSymbol_symbolGroup hsy, ih hr,
      List.append_assoc, List.singleton_append]

/-- R181: the parser reads back the records that were written. -/
theorem parseGroups_flatMap_recordBytes {l : List Record} (h : ∀ r ∈ l, ∀ sy ∈ r, sy.wellFormed = true) :
    parseGroups (l.flatMap recordBytes) [] = ⟨l, []⟩ := by
  induction l with
  | nil => rfl
  | cons r l ih =>
    obtain ⟨hr, hl⟩ := List.forall_mem_cons.mp h
    rw [List.flatMap_cons, parseGroups_recordBytes_append hr, ih hl, List.nil_append]

/-! ### The whole stream -/

/-- `FPR` (R177, R178) as a function of the byte string that `STREAM` and `LEN` hold. -/
def parseBytes : List Byte → Attempt (Half × Half × Parsed)
  | b0 :: b1 :: b2 :: b3 :: body =>
    if be16 b0 b1 = 0 then .raised .dimensionError 1
    else if be16 b2 b3 = 0 then .raised .dimensionError 2
    else if body.length % 2 = 1 then .raised .malformedStream 2
    else if closed body = true then
      .ok (BitVec.ofNat 16 (be16 b0 b1), BitVec.ofNat 16 (be16 b2 b3), parseGroups body [])
    else .raised .malformedStream 3
  | _ => .raised .malformedStream 1

theorem parseBytes_of_short {bytes : List Byte} (h : bytes.length < 4) : parseBytes bytes = .raised .malformedStream 1 := by
  match bytes, h with
  | [], _ | [_], _ | [_, _], _ | [_, _, _], _ => rfl

theorem exists_header {bytes : List Byte} (h : 4 ≤ bytes.length) :
    ∃ b0 b1 b2 b3 body, bytes = b0 :: b1 :: b2 :: b3 :: body := by
  match bytes, h with
  | b0 :: b1 :: b2 :: b3 :: body, _ => exact ⟨b0, b1, b2, b3, body, rfl⟩

/-- The parser comes to the same from a memory that holds the bytes. -/
theorem parseStream_eq_parseBytes {m : ByteMem} {bytes : List Byte}
    (hm : ∀ i, i < bytes.length → Mem.read m i = bytes[i]?) : parseStream m bytes.length = parseBytes bytes := by
  by_cases hshort : bytes.length < 4
  · rw [parseStream, if_pos hshort, parseBytes_of_short hshort]
  obtain ⟨b0, b1, b2, b3, body, rfl⟩ := exists_header (not_lt.mp hshort)
  have hread (i : Nat) (hi : i < (b0 :: b1 :: b2 :: b3 :: body).length) :
      readByte .stream m i = .ok (b0 :: b1 :: b2 :: b3 :: body)[i] :=
    readByte_eq_ok.mpr ((hm i hi).trans (List.getElem?_eq_getElem hi))
  have hbody : forEach (readByte .stream m) 4 body.length = .ok body := by
    refine forEach_eq_ok.mpr ⟨rfl, fun i hi => ?_⟩
    rw [Nat.add_comm]
    exact hread (i + 4) (Nat.add_lt_add_right hi 4)
  have hlen : (b0 :: b1 :: b2 :: b3 :: body).length - 4 = body.length := rfl
  rw [parseStream, if_neg hshort, hread 0 (by simp), hread 1 (by simp), hread 2 (by simp), hread 3 (by simp), hlen, hbody]
  simp only [Attempt.bind_ok, List.getElem_cons_zero, List.getElem_cons_succ, parseBytes, ne_eq, parseGroups_closed_iff, ite_not]

/-- R178, R181: the byte strings that the parser accepts are the streams of non-zero dimensions and well-formed symbols, and
what it gives back is what such a stream was made of. -/
theorem parseBytes_eq_ok {bytes : List Byte} {w h : Half} {p : Parsed} (hok : parseBytes bytes = .ok (w, h, p)) :
    w ≠ 0 ∧ h ≠ 0 ∧ (∀ r ∈ p.records, ∀ sy ∈ r, sy.wellFormed = true) ∧ streamBytes w h p.records = bytes := by
  by_cases hshort : bytes.length < 4
  · simp [parseBytes_of_short hshort] at hok
  obtain ⟨b0, b1, b2, b3, body, rfl⟩ := exists_header (not_lt.mp hshort)
  rw [parseBytes] at hok
  split_ifs at hok with hw0 hh0 hodd hclosed
  simp only [Attempt.ok.injEq, Prod.mk.injEq] at hok
  obtain ⟨rfl, rfl, rfl⟩ := hok
  have hbytes := parseGroups_bytes (Nat.mod_two_ne_one.mp hodd) []
  rw [(parseGroups_closed_iff body).mpr hclosed, List.flatMap_nil, List.append_nil, List.nil_append] at hbytes
  refine ⟨ofNat_be16_ne_zero hw0, ofNat_be16_ne_zero hh0, parseGroups_wellFormed body (by simp), ?_⟩
  rw [streamBytes, hbytes, headerBytes_ofNat_be16]
  rfl

/-- R181: the parser gives back what the writer was given. -/
theorem parseBytes_streamBytes {w h : Half} {l : List Record} (hw0 : w ≠ 0) (hh0 : h ≠ 0)
    (hwf : ∀ r ∈ l, ∀ sy ∈ r, sy.wellFormed = true) : parseBytes (streamBytes w h l) = .ok (w, h, ⟨l, []⟩) := by
  have hparse := parseGroups_flatMap_recordBytes hwf
  have hclosed : closed (l.flatMap recordBytes) = true := (parseGroups_closed_iff _).mp (congrArg Parsed.openSyms hparse)
  have heven : ¬(l.flatMap recordBytes).length % 2 = 1 := by
    rw [length_flatMap_recordBytes]
    omega
  have hne {x : Half} (hx : x ≠ 0) : ¬be16 (hiByte x) (loByte x) = 0 := by
    rwa [be16_hiByte_loByte, ← BitVec.toNat_zero (w := 16), BitVec.toNat_inj]
  have hbytes : streamBytes w h l = hiByte w :: loByte w :: hiByte h :: loByte h :: l.flatMap recordBytes := rfl
  rw [hbytes, parseBytes, if_neg (hne hw0), if_neg (hne hh0), if_neg heven, if_pos hclosed, hparse]
  simp only [be16_hiByte_loByte, BitVec.ofNat_toNat, BitVec.setWidth_eq]

/-! ### The operation `FPR` -/

/-- The state that `FPR` leaves but for its end: what it read, and its working cells (R178). -/
def State.withParsed (s : State) (n : Nat) (r : Half × Half × Parsed) : State :=
  { s with
    width := some r.1
    height := some r.2.1
    blkList := some r.2.2.records
    work := { s.work with rptr := n, openSyms := r.2.2.openSyms } }

/-- The results of `FPR` hold no value (R226). -/
def State.withoutParsed (s : State) : State := { s with width := none, height := none, blkList := none }

theorem exec_fpr_of_holdsStream {s : State} {bytes : List Byte} (hs : s.holdsStream bytes) :
    exec .fpr s = (parseBytes bytes).settle s.withoutParsed (s.withParsed bytes.length) := by
  obtain ⟨hlen, hread⟩ := hs
  rw [exec_fpr, unitFpr, State.withLen_of_some hlen, parseStream_eq_parseBytes hread]
  rfl

theorem exec_fpr_of_raised {s : State} {bytes : List Byte} (hs : s.holdsStream bytes) {e : ErrCode} {info : Nat}
    (h : parseBytes bytes = .raised e info) : exec .fpr s = .next (s.parserFault e info) := by
  rw [exec_fpr_of_holdsStream hs, h]
  rfl

theorem exec_fpr_of_ok {s : State} {bytes : List Byte} (hs : s.holdsStream bytes) {r : Half × Half × Parsed}
    (h : parseBytes bytes = .ok r) : exec .fpr s = .next (s.withParsed bytes.length r).complete := by
  rw [exec_fpr_of_holdsStream hs, h, Attempt.settle_ok]

/-- A `FPR` that ended without fault accepted the bytes. -/
theorem exec_fpr_done {s t : State} {bytes : List Byte} (hs : s.holdsStream bytes) (hnext : exec .fpr s = .next t)
    (hdone : doneBit t.status = true) : ∃ r, parseBytes bytes = .ok r ∧ t = (s.withParsed bytes.length r).complete := by
  rw [exec_fpr_of_holdsStream hs] at hnext
  rcases Attempt.settle_eq_next.mp hnext with ⟨r, hr, ht⟩ | ⟨e, info, -, rfl⟩
  · exact ⟨r, hr, ht.symm⟩
  · simp [statusFault] at hdone

/-- Settles O48: the clauses are the branches of the parser on byte strings; where it comes to a result, the result's bytes
are the bytes that it read. -/
theorem fprParsesEveryByteString : Obligations.FprParsesEveryByteString := by
  refine ⟨by decide, fun s bytes hs =>
    ⟨fun hshort => exec_fpr_of_raised hs (parseBytes_of_short hshort), fun hlong => ?_⟩⟩
  obtain ⟨b0, b1, b2, b3, body, rfl⟩ := exists_header hlong
  have hlen : (b0 :: b1 :: b2 :: b3 :: body).length - 4 = body.length := rfl
  simp only [List.getD_cons_zero, List.getD_cons_succ, hlen, List.drop_succ_cons, List.drop_zero]
  refine ⟨fun hw0 => exec_fpr_of_raised hs ?_, fun hw0 hh0 => exec_fpr_of_raised hs ?_,
    fun hw0 hh0 hodd => exec_fpr_of_raised hs ?_, fun hw0 hh0 heven hopen => exec_fpr_of_raised hs ?_,
    fun hw0 hh0 heven hclosed => ?accepted⟩
  · rw [parseBytes, if_pos hw0]
  · rw [parseBytes, if_neg hw0, if_pos hh0]
  · rw [parseBytes, if_neg hw0, if_neg hh0, if_pos hodd]
  · rw [parseBytes, if_neg hw0, if_neg hh0, if_neg (by omega), if_neg (by simp [hopen])]
  case accepted =>
    have hok : parseBytes (b0 :: b1 :: b2 :: b3 :: body)
        = .ok (BitVec.ofNat 16 (be16 b0 b1), BitVec.ofNat 16 (be16 b2 b3), parseGroups body []) := by
      rw [parseBytes, if_neg hw0, if_neg hh0, if_neg (by omega), if_pos hclosed]
    obtain ⟨-, -, hwf, hbytes⟩ := parseBytes_eq_ok hok
    rw [streamBytes, headerBytes_ofNat_be16] at hbytes
    exact ⟨_, _, exec_fpr_of_ok hs hok, toNat_ofNat_be16 b0 b1, toNat_ofNat_be16 b2 b3, hwf,
      List.append_cancel_left (as := [b0, b1, b2, b3]) hbytes⟩

/-- Settles O49: the written stream parses to what it was made of, and an accepted byte string is the stream of what it parses
to. -/
theorem writerParserRoundTrip : Obligations.WriterParserRoundTrip := by
  constructor
  · intro s w h l hw hh hl hw0 hh0 hwf
    have hfpr := exec_fpr_of_ok (s.withStream_holdsStream (streamBytes w h l)) (parseBytes_streamBytes hw0 hh0 hwf)
    exact ⟨_, thenExec_eq_next (exec_fwr_of_wellFormed hw hh hl hw0 hh0 hwf) hfpr, rfl, rfl, rfl⟩
  · intro s t bytes hs hnext hdone
    obtain ⟨⟨w, h, p⟩, hok, rfl⟩ := exec_fpr_done hs hnext hdone
    obtain ⟨hw0, hh0, hwf, hbytes⟩ := parseBytes_eq_ok hok
    have hfwr := exec_fwr_of_wellFormed (s := (s.withParsed bytes.length (w, h, p)).complete) rfl rfl rfl hw0 hh0 hwf
    rw [hbytes] at hfwr
    exact ⟨_, hfwr, by simp [State.withStream, statusDone], State.withStream_holdsStream _ bytes⟩

end Sys2Proof.Machine
end

section
/-! PROOF. R194: the block counts, and `BlockCounts`. -/

namespace Sys2Proof.Machine

/-! ### Block counts -/

/-- R12: `ceil_div(a, b)` is the least number of groups of `b` that hold `a`. -/
theorem ceilDiv_bounds {b : Nat} (hb : 0 < b) (a : Nat) : a ≤ b * ceilDiv a b ∧ b * ceilDiv a b < a + b := by
  have hdiv := Nat.div_add_mod (a + b - 1) b
  have hmod := Nat.mod_lt (a + b - 1) hb
  rw [ceilDiv]
  omega

theorem ceilDiv_eq_zero_iff {b : Nat} (hb : 0 < b) (a : Nat) : ceilDiv a b = 0 ↔ a = 0 := by
  rw [ceilDiv, Nat.div_eq_zero_iff]
  omega

theorem lumaBlocks_specParams (w h : Nat) : lumaBlocks specParams w h = ceilDiv (w * h) 64 := rfl

theorem chromaBlocks_specParams (w h : Nat) : chromaBlocks specParams w h = ceilDiv (2 * halfSize w h) 64 := rfl

/-- R110: a half plane has no sample exactly where one of the dimensions is below 2. -/
theorem halfSize_eq_zero_iff (w h : Nat) : halfSize w h = 0 ↔ w < 2 ∨ h < 2 := by
  rw [halfSize, Nat.mul_eq_zero, Nat.div_eq_zero_iff_lt two_pos, Nat.div_eq_zero_iff_lt two_pos]

/-- R194: for even dimensions the two half planes hold the number of samples that the source writes. -/
theorem two_mul_halfSize_of_even {w h : Nat} (hw : w % 2 = 0) (hh : h % 2 = 0) : 2 * halfSize w h = w * h / 4 * 2 := by
  obtain ⟨a, rfl⟩ := Nat.dvd_of_mod_eq_zero hw
  obtain ⟨b, rfl⟩ := Nat.dvd_of_mod_eq_zero hh
  have harea : 2 * a * (2 * b) = 4 * (a * b) := by ring
  rw [halfSize, harea, Nat.mul_div_cancel_left a two_pos, Nat.mul_div_cancel_left b two_pos,
    Nat.mul_div_cancel_left _ four_pos, Nat.mul_comm]

/-- Settles O55: both counts are ceilings of sample counts over 64; their bounds and zeros are those of `ceil_div`. -/
theorem blockCounts : Obligations.BlockCounts := by
  refine ⟨fun w h hw hh => ⟨ceilDiv_bounds (by norm_num) (w * h), ceilDiv_bounds (by norm_num) (2 * halfSize w h),
    ?luma, ?chroma, fun hw2 hh2 => ?even⟩, by decide⟩
  case luma =>
    rw [lumaBlocks_specParams, Nat.one_le_iff_ne_zero, ne_eq, ceilDiv_eq_zero_iff (by norm_num)]
    exact (Nat.mul_pos hw hh).ne'
  case chroma =>
    rw [chromaBlocks_specParams, ceilDiv_eq_zero_iff (by norm_num), Nat.mul_eq_zero, halfSize_eq_zero_iff]
    omega
  case even => rw [chromaBlocks_specParams, two_mul_halfSize_of_even hw2 hh2]

end Sys2Proof.Machine
end

section
/-! PROOF. R192, R193, R196, R198, R203, R208: where the samples of the two sequences lie, what the sequencer's moves and
its dimension check do, and `LoadBlock`, `StoreBlock`, `DimensionCheck`, `PushAndPop`. -/

namespace Sys2Proof.Machine

/-! ### Where a sample lies -/

/-- The plane and the address of sample `i` of a sequence (R193): all of `PLANE_CBH` comes before `PLANE_CRH`. -/
def sampleSite (seq : Plane) (w h i : Nat) : SourcePlane × Nat :=
  match seq with
  | .luma => (.y, i)
  | .chroma => if i < halfSize w h then (.cbh, i) else (.crh, i - halfSize w h)

/-- What the state holds at an address of a plane. -/
def State.readSite (s : State) (c : SourcePlane × Nat) : Option Real64 := (s.source c.1).read c.2

theorem sample_eq_readSite (s : State) (seq : Plane) (w h i : Nat) :
    s.sample seq w h i = s.readSite (sampleSite seq w h i) := by
  cases seq with
  | luma => rfl
  | chroma =>
    simp only [State.sample, sampleSite]
    split <;> rfl

/-- R193: no two samples of a sequence lie in one place. -/
theorem sampleSite_inj {seq : Plane} {w h i j : Nat} : sampleSite seq w h i = sampleSite seq w h j ↔ i = j := by
  refine ⟨fun heq => ?_, fun heq => heq ▸ rfl⟩
  cases seq with
  | luma => exact congrArg Prod.snd heq
  | chroma =>
    simp only [sampleSite] at heq
    split_ifs at heq <;> simp only [Prod.mk.injEq, reduceCtorEq, false_and, true_and] at heq <;> omega

/-- The number of samples of a plane that blocks are cut from (R110, R193). -/
def SourcePlane.size (p : SourcePlane) (w h : Nat) : Nat :=
  match p with
  | .y => w * h
  | .cbh | .crh => halfSize w h

/-- R193: each sample of a sequence lies within its plane. -/
theorem sampleSite_lt_size {seq : Plane} {w h i : Nat} (hi : i < sampleCount seq w h) :
    (sampleSite seq w h i).2 < (sampleSite seq w h i).1.size w h := by
  cases seq with
  | luma => exact hi
  | chroma =>
    rw [sampleCount] at hi
    rw [sampleSite]
    split_ifs with hcbh
    · exact hcbh
    · show i - halfSize w h < halfSize w h
      omega

/-- R193, R196: element `k` of block `n` is sample `64n + k`, or padding past the end of the sequence. -/
theorem locate_specParams (seq : Plane) (w h n k : Nat) :
    locate specParams seq w h n k
      = if 64 * n + k < sampleCount seq w h then some (sampleSite seq w h (64 * n + k)) else none := by
  cases seq with
  | luma => rfl
  | chroma =>
    have hlinear : specParams.partition = .linear := rfl
    simp only [locate, hlinear, sampleCount, sampleSite]
    by_cases hcbh : 64 * n + k < halfSize w h
    · have hend : 64 * n + k < 2 * halfSize w h := by omega
      simp only [if_pos hcbh, if_pos hend]
    · simp only [if_neg hcbh]

/-! ### Loading a block -/

/-- What element `k` of block `n` is (R196): the sample, or the real number 0 past the end of the sequence. -/
def State.isElement (s : State) (seq : Plane) (w h n k : Nat) (v : Real64) : Prop :=
  (64 * n + k < sampleCount seq w h → s.sample seq w h (64 * n + k) = some v)
    ∧ (sampleCount seq w h ≤ 64 * n + k → v = .fin 0)

theorem loadElement_eq_ok {s : State} {seq : Plane} {w h n k : Nat} {v : Real64} :
    loadElement specParams s seq w h n k = .ok v ↔ s.isElement seq w h n k v := by
  rw [State.isElement, sample_eq_readSite]
  by_cases hlt : 64 * n + k < sampleCount seq w h
  · cases hread : (s.source (sampleSite seq w h (64 * n + k)).1).read (sampleSite seq w h (64 * n + k)).2 <;>
      simp [loadElement, locate_specParams, State.readSite, hlt, hread]
  · simp [loadElement, locate_specParams, hlt, not_lt.mp hlt, eq_comm]

theorem blockOf_getElem {vs : List Real64} {k : Nat} (hk : k < 64) (hlt : k < vs.length) : (blockOf vs)[k] = vs[k] := by
  simp [blockOf, hlt]

/-- R196: a block whose samples hold values is loaded; the move changes `BLK` alone. -/
theorem exists_ldblk {s : State} {w h : Half} {seq : Plane} {n : Nat} (hw : s.width = some w) (hh : s.height = some h)
    (hsamples : ∀ i, 64 * n ≤ i → i < 64 * n + 64 → i < sampleCount seq w.toNat h.toNat →
      (s.sample seq w.toNat h.toNat i).isSome = true) :
    ∃ b : Block, ldblk specParams seq n s = .next { s with blk := b }
      ∧ ∀ (k : Nat) (_ : k < 64), s.isElement seq w.toNat h.toNat n k b[k] := by
  have hload : ∀ k, k < 64 → ∃ v, loadElement specParams s seq w.toNat h.toNat n k = .ok v := fun k hk => by
    by_cases hlt : 64 * n + k < sampleCount seq w.toNat h.toNat
    · obtain ⟨v, hv⟩ := Option.isSome_iff_exists.mp (hsamples (64 * n + k) (by omega) (by omega) hlt)
      exact ⟨v, loadElement_eq_ok.mpr ⟨fun _ => hv, fun hge => absurd hlt (not_lt.mpr hge)⟩⟩
    · exact ⟨.fin 0, loadElement_eq_ok.mpr ⟨fun h => absurd h hlt, fun _ => rfl⟩⟩
  obtain ⟨vs, hloop, hlen, hvs⟩ := exists_forEach_ok hload
  refine ⟨blockOf vs, ?_, fun k hk => ?_⟩
  · rw [ldblk, State.withDims_of_some hw hh, hloop]
  · rw [blockOf_getElem hk (hlen ▸ hk)]
    exact loadElement_eq_ok.mp (hvs k (hlen ▸ hk))

/-! ### Storing a block -/

@[simp] theorem State.source_setSource_same (s : State) (p : SourcePlane) (m : Mem Real64) :
    (s.setSource p m).source p = m := by
  cases p <;> rfl

theorem State.source_setSource_other {p q : SourcePlane} (hne : q ≠ p) (s : State) (m : Mem Real64) :
    (s.setSource p m).source q = s.source q := by
  cases p <;> cases q <;> simp [State.setSource, State.source] at hne ⊢

/-- Which place holds what after a plane's memory was written at one address. -/
theorem State.readSite_setSource_write (s : State) (c d : SourcePlane × Nat) (x : Real64) :
    (s.setSource c.1 ((s.source c.1).write c.2 x)).readSite d = if d = c then some x else s.readSite d := by
  obtain ⟨p, i⟩ := c
  obtain ⟨q, j⟩ := d
  have hsame : ((s.source p).write i x).read j = if j = i then some x else (s.source p).read j := by
    split_ifs with hji
    · exact hji ▸ Mem.read_write_same _ _ _
    · exact Mem.read_write_other _ _ _ _ hji
  by_cases hqp : q = p
  · subst hqp
    simpa [State.readSite] using hsame
  · simp [State.readSite, State.source_setSource_other hqp, hqp]

/-- R203: a store of element `k` writes sample `64n + k` alone, where the sequence has it. -/
theorem readSite_storeElement (seq : Plane) (w h n k : Nat) (s : State) (d : SourcePlane × Nat) :
    (storeElement specParams seq w h n s k).readSite d
      = if 64 * n + k < sampleCount seq w h ∧ d = sampleSite seq w h (64 * n + k) then some (elem b64 s.blk k)
        else s.readSite d := by
  by_cases hlt : 64 * n + k < sampleCount seq w h
  · have hstore : storeElement specParams seq w h n s k = s.setSource (sampleSite seq w h (64 * n + k)).1
        ((s.source (sampleSite seq w h (64 * n + k)).1).write (sampleSite seq w h (64 * n + k)).2
          (elem b64 s.blk k)) := by
      simp only [storeElement, locate_specParams, if_pos hlt]
    simp [hstore, State.readSite_setSource_write, hlt]
  · simp [storeElement, locate_specParams, hlt]

/-- What a store of one element keeps, the stores of a list of elements keep. -/
theorem foldl_storeElement_keeps {β : Type} {P : Params} {seq : Plane} {w h n : Nat} {f : State → β}
    (hkeep : ∀ s k, f (storeElement P seq w h n s k) = f s) (ks : List Nat) (s : State) :
    f (ks.foldl (storeElement P seq w h n) s) = f s := by
  induction ks generalizing s with
  | nil => rfl
  | cons k ks ih => rw [List.foldl_cons, ih, hkeep]

theorem foldl_storeElement_blk (P : Params) (seq : Plane) (w h n : Nat) (ks : List Nat) (s : State) :
    (ks.foldl (storeElement P seq w h n) s).blk = s.blk := by
  obtain ⟨py, pb, pr, hframe⟩ := storeElements_frame P seq w h n ks s
  rw [hframe]

/-- R203: an address past the end of its plane keeps what it held. -/
theorem readSite_foldl_storeElement_past {p : SourcePlane} {w h a : Nat} (ha : p.size w h ≤ a) (seq : Plane) (n : Nat)
    (ks : List Nat) (s : State) :
    (ks.foldl (storeElement specParams seq w h n) s).readSite (p, a) = s.readSite (p, a) := by
  refine foldl_storeElement_keeps (f := fun t => t.readSite (p, a)) (fun s k => ?_) ks s
  rw [readSite_storeElement]
  refine if_neg fun ⟨hlt, hsite⟩ => absurd (sampleSite_lt_size hlt) ?_
  rw [← hsite]
  exact not_lt.mpr ha

/-- R193, R203: a plane that the sequence has no sample in is not written. -/
theorem source_foldl_storeElement_other {seq : Plane} {w h : Nat} {p : SourcePlane}
    (hp : ∀ i, p ≠ (sampleSite seq w h i).1) (n : Nat) (ks : List Nat) (s : State) :
    (ks.foldl (storeElement specParams seq w h n) s).source p = s.source p := by
  refine foldl_storeElement_keeps (f := fun t => t.source p) (fun s k => ?_) ks s
  rcases storeElement_eq specParams seq w h n s k with hsame | ⟨q, i, hloc, hstore⟩
  · rw [hsame]
  · rw [locate_specParams, Option.ite_none_right_eq_some, Option.some.injEq] at hloc
    have hq : p ≠ q := by simpa only [hloc.2] using hp (64 * n + k)
    rw [hstore, State.source_setSource_other hq]

/-- R203: after the first `m` elements of a block are stored, they are the samples from `64n` on. -/
theorem sample_foldl_storeElement {seq : Plane} {w h i : Nat} (hi : i < sampleCount seq w h) (n m : Nat) (s : State) :
    ((List.range m).foldl (storeElement specParams seq w h n) s).sample seq w h i
      = if 64 * n ≤ i ∧ i < 64 * n + m then some (elem b64 s.blk (i - 64 * n)) else s.sample seq w h i := by
  induction m with
  | zero =>
    have hnone : ¬(64 * n ≤ i ∧ i < 64 * n + 0) := by omega
    rw [if_neg hnone]
    rfl
  | succ m ih =>
    rw [List.range_succ, List.foldl_concat, sample_eq_readSite, readSite_storeElement, ← sample_eq_readSite, ih,
      foldl_storeElement_blk]
    simp only [sampleSite_inj]
    by_cases hlast : i = 64 * n + m
    · subst hlast
      simp [hi]
    · have hstep : 64 * n ≤ i ∧ i < 64 * n + (m + 1) ↔ 64 * n ≤ i ∧ i < 64 * n + m := by omega
      simp only [hlast, and_false, if_false, hstep]

/-- R203: what `STBLK` writes and what it leaves as it was. -/
theorem exists_stblk {s : State} {w h : Half} (hw : s.width = some w) (hh : s.height = some h) (seq : Plane) (n : Nat) :
    ∃ py pb pr : Mem Real64,
      let t : State := { s with planeY := py, planeCbh := pb, planeCrh := pr }
      stblk specParams seq n s = .next t
      ∧ (∀ i, i < sampleCount seq w.toNat h.toNat → t.sample seq w.toNat h.toNat i
          = if 64 * n ≤ i ∧ i < 64 * n + 64 then some (elem b64 s.blk (i - 64 * n)) else s.sample seq w.toNat h.toNat i)
      ∧ (∀ p, (∀ i, p ≠ (sampleSite seq w.toNat h.toNat i).1) → t.source p = s.source p)
      ∧ ∀ (p : SourcePlane) (a : Nat), p.size w.toNat h.toNat ≤ a → t.readSite (p, a) = s.readSite (p, a) := by
  obtain ⟨py, pb, pr, hframe⟩ := storeElements_frame specParams seq w.toNat h.toNat n (List.range 64) s
  refine ⟨py, pb, pr, ?_⟩
  rw [stblk, State.withDims_of_some hw hh, ← hframe]
  exact ⟨rfl, fun i hi => sample_foldl_storeElement hi n 64 s, fun p hp => source_foldl_storeElement_other hp n _ s,
    fun p a ha => readSite_foldl_storeElement_past ha seq n _ s⟩

/-! ### Symbol lists -/

/-- R198: `SYM` becomes the last element of `BLKLIST`. -/
theorem pushsym_of_some {s : State} {l : List Record} (hl : s.blkList = some l) :
    pushsym s = .next { s with blkList := some (l ++ [s.sym]) } := by
  rw [pushsym, State.withBlkList_of_some hl]

/-- R208: `SYM` becomes the record asked for; the list stays. -/
theorem popsym_of_some {s : State} {l : List Record} {b : Nat} {r : Record} (hl : s.blkList = some l)
    (hr : l[b]? = some r) : popsym b s = .next { s with sym := r } := by
  rw [popsym, State.withBlkList_of_some hl, hr]

/-! ### The dimension check -/

/-- R192: the lowest sub-cause that applies is raised, or the two registers are written. -/
theorem checkDims_eq_ite (w h : Nat) (s : State) :
    checkDims w h s
      = if w = 0 then s.raise .dimensionError 1
        else if h = 0 then s.raise .dimensionError 2
        else if 65535 < w then s.raise .dimensionError 3
        else if 65535 < h then s.raise .dimensionError 4
        else { s with width := some (BitVec.ofNat 16 w), height := some (BitVec.ofNat 16 h) } := by
  rw [checkDims, dimensionFault]
  split_ifs <;> rfl

/-! ### The steps -/

/-- With no reset asked for and no fault standing, a step runs the first pending step on what is left (log 12). -/
theorem step_eq_run {s : State} {x : SeqStep} {rest : List SeqStep} (run : State → Host.Outcome State Fault Refusal)
    (hrun : ∀ {t : State}, t.faulted = false → seqStep x t = run t) (hp : s.pending = x :: rest)
    (hi : ∀ more, s.inbox ≠ .reset :: more) (hf : s.faulted = false) : step s = run { s with pending := rest } :=
  (step_pending hp hi).trans (hrun hf)

/-- Settles O51: the loop reads each sample of the block and gives 0 for each element past the end. -/
theorem loadBlock : Obligations.LoadBlock := by
  intro s w h seq n rest hp hi hf hw hh hsamples
  obtain ⟨b, hload, hb⟩ := exists_ldblk (s := { s with pending := rest }) hw hh hsamples
  have hstep := step_eq_run (ldblk specParams seq n) (seqStep_of_not_faulted · _) hp hi hf
  exact ⟨b, hstep.trans hload, hb⟩

/-- Settles O52: each element that is not padding goes to the place of its sample; no address past the end of a plane is
written, and no plane of the other sequence. -/
theorem storeBlock : Obligations.StoreBlock := by
  intro s w h seq n rest hp hi hf hw hh
  have hstep := step_eq_run (stblk specParams seq n) (seqStep_of_not_faulted · _) hp hi hf
  obtain ⟨py, pb, pr, hstore, hsample, hother, hpast⟩ := exists_stblk (s := { s with pending := rest }) hw hh seq n
  refine ⟨py, pb, pr, hstep.trans hstore, hsample, ?luma, ?chroma⟩
  case luma =>
    rintro rfl
    have hne {q : SourcePlane} (hq : q ≠ .y) (i : Nat) : q ≠ (sampleSite .luma w.toNat h.toNat i).1 := hq
    exact ⟨hother .cbh (hne (by decide)), hother .crh (hne (by decide)), hpast .y⟩
  case chroma =>
    rintro rfl
    have hne (i : Nat) : SourcePlane.y ≠ (sampleSite .chroma w.toNat h.toNat i).1 := by
      rw [sampleSite]
      split <;> simp
    exact ⟨hother .y hne, fun a ha => ⟨hpast .cbh a ha, hpast .crh a ha⟩⟩

/-- Settles O50: the sub-causes are tried in their order, and a fault drops the pending steps. -/
theorem dimensionCheck : Obligations.DimensionCheck := by
  intro s w h rest hp hi hf
  have hstep := step_eq_run (fun t => .next (checkDims w h t)) (seqStep_of_not_faulted · _) hp hi hf
  rw [hstep, checkDims_eq_ite]
  rfl

/-- Settles O53: the two moves on a `BLKLIST` that holds a list. -/
theorem pushAndPop : Obligations.PushAndPop := by
  intro s l rest hi hf hl
  refine ⟨fun hp => ?push, fun b r hp hr => ?pop⟩
  case push =>
    have hstep := step_eq_run pushsym (seqStep_of_not_faulted · _) hp hi hf
    exact hstep.trans (pushsym_of_some hl)
  case pop =>
    have hstep := step_eq_run (popsym b) (seqStep_of_not_faulted · _) hp hi hf
    exact hstep.trans (popsym_of_some hl hr)

end Sys2Proof.Machine
end

section
/-! PROOF. R73, R224, R227: the words that name no operation, `IllegalCommandFaults`, and
`AfterAFaultOnlyResetChangesAnything`. -/

namespace Sys2Proof.Machine

/-! ### Command words that name no operation -/

/-- R71, R73: of the sixteen codes the first and the last name no operation, whatever the plane kind. -/
theorem decodeOp_eq_none_iff (op : BitVec 4) (plane : Plane) :
    decodeOp op.toNat plane = none ↔ op = 0x0#4 ∨ op = 0xF#4 := by
  cases plane <;> revert op <;> decide

/-- R70, R73: a word is reserved by its reserved field or by its operation code. -/
theorem commandWellFormed_eq_false_iff (w : Byte) :
    commandWellFormed w = false ↔ reservedField w ≠ 0 ∨ opField w = 0x0#4 ∨ opField w = 0xF#4 := by
  simp only [commandWellFormed, reservedField, opField, Bool.and_eq_false_iff, beq_eq_false_iff_ne, bne_eq_false_iff_eq,
    or_assoc]

/-- R73: what `decode` rejects is what is not well formed. -/
theorem exists_decode_eq_error_iff (w : Byte) : (∃ r, decode w = .error r) ↔ commandWellFormed w = false := by
  rw [commandWellFormed_eq_false_iff, ← decodeOp_eq_none_iff (opField w) (planeField w), decode]
  by_cases hfield : reservedField w = 0#3
  case neg => simp [hfield]
  case pos => cases hop : decodeOp (opField w).toNat (planeField w) <;> simp [hfield]

/-- R224: a reserved word raises `IllegalOperation` with the word as its detail. -/
theorem issue_of_reserved {s : State} (hf : s.faulted = false) (hb : busyBit s.status = false) {w : Byte}
    (hw : commandWellFormed w = false) :
    issue w s = .next (State.raise { s with cmd := w } .illegalOperation w.toNat) := by
  obtain ⟨r, hr⟩ := (exists_decode_eq_error_iff w).mpr hw
  rw [issue_of_idle hf hb, hr]

/-- Settles O5: the pending word is issued with the steps after it left, which the fault drops; `CMD` holds the word. -/
theorem illegalCommandFaults : Obligations.IllegalCommandFaults := by
  intro s w rest hp hi hf hb hw
  have hstep := step_eq_run (issue w) (seqStep_of_not_faulted · _) hp hi hf
  exact ⟨w, hstep.trans (issue_of_reserved (s := { s with pending := rest }) hf hb hw)⟩

/-! ### After a fault -/

/-- R252: with nothing to do and nothing asked for, a step changes nothing (log 13). -/
theorem step_of_idle {s : State} (hp : s.pending = []) (hi : s.inbox = []) : step s = .next s := by
  simp only [step, sequencerStep, hp, hi]

/-- With no step left, the host's next call is taken up, a reset or not. -/
theorem step_of_call {s : State} {c : HostCall} {more : List HostCall} (hp : s.pending = []) (hi : s.inbox = c :: more) :
    step s = .next (startCall c { s with inbox := more }) := by
  cases c <;> simp only [step, sequencerStep, hp, hi]

/-- R227: while a fault stands, a pending step is taken off the list and has no other effect. -/
theorem step_pending_of_faulted {s : State} {x : SeqStep} {rest : List SeqStep} (hf : s.faulted = true)
    (hp : s.pending = x :: rest) (hi : ∀ more, s.inbox ≠ .reset :: more) : step s = .next { s with pending := rest } :=
  (step_pending hp hi).trans (seqStep_of_faulted (s := { s with pending := rest }) hf x)

/-- R38, R253: a call other than a bare listing begins with a reset, which clears `STATUS`. -/
theorem startCall_status {c : HostCall} (hc : ∀ l, c ≠ .issue l) (s : State) :
    (startCall c s).status = State.reset.status := by
  cases c with
  | issue l => exact absurd rfl (hc l)
  | compress w h raster => rfl
  | decompress stream len => rfl
  | convert w h raster => rfl
  | reset => rfl

/-- R227: the reset at its start is what ends a fault. -/
theorem startCall_not_faulted {c : HostCall} (hc : ∀ l, c ≠ .issue l) (s : State) : (startCall c s).faulted = false := by
  have hreset : State.reset.faulted = false := by decide
  rwa [State.faulted, ← startCall_status hc s] at hreset

/-- Settles O7: a reset is taken at once; otherwise a pending step goes by without effect; and with none left the next call
starts, or there is nothing to do. -/
theorem afterAFaultOnlyResetChangesAnything : Obligations.AfterAFaultOnlyResetChangesAnything := by
  intro s hf
  by_cases hreset : ∃ more, s.inbox = .reset :: more
  · obtain ⟨more, hi⟩ := hreset
    have hc : ∀ l, HostCall.reset ≠ .issue l := by simp
    exact ⟨_, step_of_reset_call hi, .inr ⟨.reset, more, hi, hc, rfl, startCall_not_faulted hc _⟩⟩
  · cases hp : s.pending with
    | cons x rest => exact ⟨_, step_pending_of_faulted hf hp (not_exists.mp hreset), .inl rfl⟩
    | nil =>
      cases hi : s.inbox with
      | nil => exact ⟨s, step_of_idle hp hi, .inl rfl⟩
      | cons c more =>
        refine ⟨_, step_of_call hp hi, ?_⟩
        by_cases hc : ∃ l, c = .issue l
        · obtain ⟨l, rfl⟩ := hc
          exact .inl rfl
        · have hc := not_exists.mp hc
          exact .inr ⟨c, more, rfl, hc, rfl, startCall_not_faulted hc _⟩

end Sys2Proof.Machine
end

section
/-! PROOF. R14, R127: every operation of the arithmetic answers a value of binary64, and so does every formula, scan, quantizer
and memory access of the machine on such values. -/

namespace Sys2Proof.Machine

/-! ### The arithmetic -/

theorem wf64_round64 (q : Rat) : wf64 (round64 q) = true := by
  cases h : round64 q with
  | fin r => exact (wf64_fin_iff r).mpr (isBinary64_of_round64 h)
  | inf _ => rfl
  | nan => rfl

theorem wf64_ofInt (n : Int) : wf64 (b64.ofInt n) = true := wf64_round64 n

theorem wf64_zero : wf64 (.fin 0) = true := round64_zero ▸ wf64_round64 0

theorem wf64_infTimes (negative : Bool) (a : Rat) : wf64 (infTimes negative a) = true := by
  unfold infTimes
  split <;> rfl

/-- A sum is rounded, infinite or NaN, whatever the operands are; likewise a product, a quotient and a fused operation. -/
theorem wf64_add64 : ∀ a b : Real64, wf64 (add64 a b) = true
  | .fin a, .fin b => wf64_round64 (a + b)
  | .inf s, .inf t => by simp only [add64]; split <;> rfl
  | .fin _, .inf _ | .inf _, .fin _ | .nan, _ | .fin _, .nan | .inf _, .nan => rfl

theorem wf64_sub64 (a b : Real64) : wf64 (sub64 a b) = true := wf64_add64 a (neg64 b)

theorem wf64_mul64 : ∀ a b : Real64, wf64 (mul64 a b) = true
  | .fin a, .fin b => wf64_round64 (a * b)
  | .fin a, .inf s | .inf s, .fin a => wf64_infTimes s a
  | .inf _, .inf _ | .nan, _ | .fin _, .nan | .inf _, .nan => rfl

theorem wf64_div64 : ∀ a b : Real64, wf64 (div64 a b) = true
  | .fin a, .fin b => by
    simp only [div64]
    split
    · rfl
    · exact wf64_round64 (a / b)
  | .fin _, .inf _ => wf64_zero
  | .inf s, .fin b => wf64_infTimes s b
  | .inf _, .inf _ | .nan, _ | .fin _, .nan | .inf _, .nan => rfl

theorem wf64_fma64 (a b c : Real64) : wf64 (fma64 a b c) = true := by
  unfold fma64
  split
  · exact wf64_round64 _
  · exact wf64_add64 _ _

theorem wf64_cos64 (a : Real64) : wf64 (cos64 a) = true := by
  cases a with
  | fin q => exact wf64_round64 (cosRat q)
  | inf _ => rfl
  | nan => rfl

theorem wf64_nearOr {center tolerance free : Rat} {other : Real64} (h : wf64 other = true) :
    wf64 (nearOr center tolerance free other) = true := by
  unfold nearOr
  split
  case isTrue hfree => exact hfree.1 ▸ wf64_round64 free
  case isFalse => exact h

theorem wf64_finite64 (q : Rat) : wf64 (finite64 q) = true := by
  unfold finite64
  split
  case isTrue hq => exact hq ▸ wf64_round64 q
  case isFalse => exact wf64_zero

/-! ### The formulas -/

theorem wf64_refConst_norm (k : Nat) : wf64 (refConst b64 (.norm k)) = true := by
  simp only [refConst]
  split
  · exact wf64_div64 _ _
  · exact wf64_ofInt 1

/-- The free constants of the machine are values of binary64, as the computed ones are. -/
theorem wf64_machineConst (c : Const) : wf64 (machineConst c) = true := by
  cases c with
  | lit num den => exact wf64_div64 _ _
  | norm k =>
    simp only [machineConst]
    split
    · exact wf64_nearOr (wf64_refConst_norm 0)
    · exact wf64_refConst_norm k
  | cosBasis u x =>
    simp only [machineConst]
    split
    · exact wf64_cos64 _
    · exact wf64_nearOr (wf64_cos64 _)
  | quarter => exact wf64_div64 _ _
  | eighth => exact wf64_div64 _ _
  | cosSum q => exact wf64_nearOr (wf64_round64 _)

/-- An expression is an operand, a constant or the result of an operation. -/
theorem wf64_evalExpr {const : Const → Real64} {operand : Nat → Real64} (hconst : ∀ c, wf64 (const c) = true)
    (hoperand : ∀ i, wf64 (operand i) = true) (e : Expr) : wf64 (evalExpr b64 const operand e) = true := by
  cases e with
  | operand i => exact hoperand i
  | const c => exact hconst c
  | neg a => exact wf64_sub64 _ _
  | add a b => exact wf64_add64 _ _
  | sub a b => exact wf64_sub64 _ _
  | mul a b => exact wf64_mul64 _ _
  | div a c => exact wf64_div64 _ _
  | fma a b c => exact wf64_fma64 _ _ _

/-- R14, R124, R129: the machine's value of a formula, whatever its free expression and constants are. -/
theorem wf64_evalSite (site : Site) {operand : Nat → Real64} (hoperand : ∀ i, wf64 (operand i) = true) :
    wf64 (evalSite machineDatapath site operand) = true := by
  rw [evalSite_machineDatapath]
  rcases admitValue_cases site operand (evalExpr b64 machineConst operand (machineExpr site)) with h | ⟨-, h⟩ <;> rw [h]
  · exact wf64_evalExpr wf64_machineConst hoperand _
  · exact wf64_zero

theorem wf64_channelValue (ch : Channel) {a b c : Real64} (ha : wf64 a = true) (hb : wf64 b = true) (hc : wf64 c = true) :
    wf64 (channelValue machineDatapath ch a b c) = true := by
  refine wf64_evalSite _ fun i => ?_
  unfold three
  split_ifs
  · exact ha
  · exact hb
  · exact hc

/-! ### Blocks -/

/-- Every element of a buffer is a value of binary64. -/
def blockOk (b : Block) : Prop := ∀ (k : Nat) (_ : k < 64), wf64 b[k] = true

theorem blockOk_iff {b : Block} : blockOk b ↔ b.toList.all wf64 = true := all_toList_iff.symm

theorem blockOk_ofFn {f : Fin 64 → Real64} (h : ∀ k, wf64 (f k) = true) : blockOk (Vector.ofFn f) := fun k hk => by
  simpa using h ⟨k, hk⟩

theorem wf64_elem {b : Block} (h : blockOk b) (j : Nat) : wf64 (elem b64 b j) = true := by
  unfold elem
  split
  case isTrue hj => exact h j hj
  case isFalse => exact wf64_ofInt 0

theorem blockOk_freshBlock (free : Nat → Rat) : blockOk (freshBlock free) := blockOk_ofFn fun _ => wf64_finite64 _

theorem blockOk_dct8f {b : Block} (h : blockOk b) : blockOk (dct8f machineDatapath b) :=
  blockOk_ofFn fun _ => wf64_evalSite _ (wf64_elem h)

theorem blockOk_dct8i {b : Block} (h : blockOk b) : blockOk (dct8i machineDatapath b) :=
  blockOk_ofFn fun _ => wf64_evalSite _ (wf64_elem h)

theorem wf64_roundReal (tie : RoundTie) {x : Real64} (h : wf64 x = true) : wf64 (roundReal b64 tie x) = true := by
  unfold roundReal
  split
  · exact wf64_round64 _
  · exact h

theorem blockOk_quantize (tie : RoundTie) (T : Vector Nat 64) (b : Block) : blockOk (quantize b64 tie T b) := fun k hk => by
  rw [quantize, Vector.getElem_zipWith]
  exact wf64_roundReal tie (wf64_div64 _ _)

theorem blockOk_dequantize (tie : RoundTie) (T : Vector Nat 64) (b : Block) : blockOk (dequantize b64 tie T b) :=
  fun k hk => by
    rw [dequantize, Vector.getElem_zipWith]
    exact wf64_roundReal tie (wf64_mul64 _ _)

theorem blockOk_scan {b : Block} (h : blockOk b) : blockOk (scan b64 b) := blockOk_ofFn fun _ => wf64_elem h _

theorem blockOk_unscan {v : Block} (h : blockOk v) : blockOk (unscan b64 v) := fun i hi => by
  obtain ⟨k, hk, rfl⟩ := zz_surjective hi
  rw [unscan_getElem b64 v hk]
  exact h k hk

theorem blockOk_replicate {x : Real64} (h : wf64 x = true) : blockOk (Vector.replicate 64 x) := fun k hk => by
  simpa using h

theorem blockOk_setIfInBounds {v : Block} (h : blockOk v) (i : Nat) {x : Real64} (hx : wf64 x = true) :
    blockOk (v.setIfInBounds i x) := fun k hk => by
  rw [Vector.getElem_setIfInBounds]
  split
  · exact hx
  · exact h k hk

/-- R161: the vector that the run-length decoder comes to. -/
theorem blockOk_decodeRuns {r : Record} {pos : Nat} {v v' : Block} (h : blockOk v)
    (hr : (decodeRuns b64 r pos v).result = .ok v') : blockOk v' := by
  induction r generalizing pos v with
  | nil =>
    obtain rfl : v = v' := by simpa [decodeRuns] using hr
    exact h
  | cons sy rest ih =>
    simp only [decodeRuns] at hr
    split at hr
    · cases hr
    · exact ih (blockOk_setIfInBounds h _ (wf64_ofInt _)) hr

theorem blockOk_blockOf {vs : List Real64} (h : ∀ v ∈ vs, wf64 v = true) : blockOk (blockOf vs) :=
  blockOk_ofFn fun k => by
    cases hv : vs[k.val]? with
    | none => exact wf64_zero
    | some v => exact h v (List.mem_of_getElem? hv)

/-! ### Planes -/

theorem realsOk_iff {m : Mem Real64} : realsOk m = true ↔ ∀ p ∈ m, wf64 p.2 = true := List.all_eq_true

theorem Mem.mem_of_read {α : Type} {m : Mem α} {i : Nat} {v : α} (h : m.read i = some v) : (i, v) ∈ m := by
  induction m with
  | nil => cases h
  | cons p m ih =>
    obtain ⟨a, x⟩ := p
    simp only [Mem.read] at h
    split at h
    case isTrue ha => simp [ha, Option.some.inj h]
    case isFalse => exact List.mem_cons_of_mem _ (ih h)

theorem wf64_of_read {m : Mem Real64} (hm : realsOk m = true) {i : Nat} {v : Real64} (h : m.read i = some v) :
    wf64 v = true := realsOk_iff.mp hm _ (Mem.mem_of_read h)

theorem realsOk_write {m : Mem Real64} (hm : realsOk m = true) (i : Nat) {x : Real64} (hx : wf64 x = true) :
    realsOk (m.write i x) = true := by
  refine realsOk_iff.mpr fun p hp => ?_
  rcases Mem.mem_write hp with rfl | hp
  · exact hx
  · exact realsOk_iff.mp hm p hp

theorem Mem.some_mem_of_mem_place {α : Type} {a : Nat} {vs : List (Option α)} {p : Nat × α} (h : p ∈ Mem.place a vs) :
    some p.2 ∈ vs := by
  induction vs generalizing a with
  | nil => cases h
  | cons v vs ih =>
    cases v with
    | none => exact List.mem_cons_of_mem _ (ih h)
    | some x =>
      rcases List.mem_cons.mp h with rfl | h
      · exact List.mem_cons_self
      · exact List.mem_cons_of_mem _ (ih h)

theorem realsOk_place (a : Nat) {vs : List (Option Real64)} (h : ∀ v, some v ∈ vs → wf64 v = true) :
    realsOk (Mem.place a vs) = true :=
  realsOk_iff.mpr fun p hp => h p.2 (Mem.some_mem_of_mem_place hp)

theorem realsOk_ofList {vs : List Real64} (h : ∀ v ∈ vs, wf64 v = true) : realsOk (Mem.ofList vs) = true :=
  realsOk_place 0 fun v hv => h v (by simpa using hv)

/-- What a loop collects has what each of its elements has. -/
theorem forall_mem_of_forEach {α : Type} {f : Nat → Attempt α} {p : α → Prop} (hf : ∀ i a, f i = .ok a → p a)
    {start n : Nat} {vs : List α} (h : forEach f start n = .ok vs) : ∀ a ∈ vs, p a := fun a ha => by
  obtain ⟨i, hi, rfl⟩ := List.mem_iff_getElem.mp ha
  exact hf _ _ ((forEach_eq_ok.mp h).2 i hi)

/-- R111: the samples that `CDOWN2` keeps are samples of the plane. -/
theorem realsOk_decimate {place : Place} {m : Mem Real64} (hm : realsOk m = true) {w h : Nat} {vs : List Real64}
    (hvs : decimate place m w h = .ok vs) : realsOk (Mem.ofList vs) = true :=
  realsOk_ofList (forall_mem_of_forEach (fun _ _ hv => wf64_of_read hm (readReal_eq_ok.mp hv)) hvs)

/-- R114: the samples that `CUP2` copies are samples of the half plane. -/
theorem realsOk_replicate {P : Params} {place : Place} {m : Mem Real64} (hm : realsOk m = true) {w h : Nat}
    {vs : List (Option Real64)} (hvs : replicate P place m w h = .ok vs) : realsOk (Mem.place 0 vs) = true := by
  refine realsOk_place 0 fun v hv => ?_
  refine forall_mem_of_forEach (p := fun o => ∀ v, o = some v → wf64 v = true) (fun i o ho v hv => ?_) hvs _ hv v rfl
  subst hv
  split at ho
  · cases ho
  · obtain ⟨v', hread, hv'⟩ := Attempt.map_eq_ok.mp ho
    obtain rfl := Option.some.inj hv'
    exact wf64_of_read hm (readReal_eq_ok.mp hread)

/-- R102: the samples of a channel are values of its formula on bytes. -/
theorem realsOk_channelPlane (ch : Channel) (pixels : List (Byte × Byte × Byte)) :
    realsOk (Mem.ofList (channelPlane machineDatapath ch pixels)) = true := by
  refine realsOk_ofList fun v hv => ?_
  obtain ⟨p, -, rfl⟩ := List.mem_map.mp hv
  exact wf64_channelValue ch (wf64_ofInt _) (wf64_ofInt _) (wf64_ofInt _)

end Sys2Proof.Machine
end

section
/-! PROOF. R16, R32, R226: everything that an operation can come to, said once, and `OperationCompletesOrFaults`. -/

namespace Sys2Proof.Machine

/-! ### What is kept -/

/-- R38: the memories in canonical form, one by one. -/
structure State.CanonicalMemories (s : State) : Prop where
  raster : Mem.wf s.raster
  stream : Mem.wf s.stream
  planeY : Mem.wf s.planeY
  planeCb : Mem.wf s.planeCb
  planeCr : Mem.wf s.planeCr
  planeCbh : Mem.wf s.planeCbh
  planeCrh : Mem.wf s.planeCrh

theorem State.canonicalMemories_iff (s : State) : s.CanonicalMemories ↔ s.memoriesOk :=
  ⟨fun ⟨hr, hs, hy, hcb, hcr, hcbh, hcrh⟩ => ⟨hr, hs, hy, hcb, hcr, hcbh, hcrh⟩,
    fun ⟨hr, hs, hy, hcb, hcr, hcbh, hcrh⟩ => ⟨hr, hs, hy, hcb, hcr, hcbh, hcrh⟩⟩

/-- R14, R127: the real-valued buffers and planes hold values of binary64, one by one. -/
structure State.HoldsBinary64 (s : State) : Prop where
  blk : blockOk s.blk
  seq : ∀ v, s.seq = some v → blockOk v
  planeY : Machine.realsOk s.planeY = true
  planeCb : Machine.realsOk s.planeCb = true
  planeCr : Machine.realsOk s.planeCr = true
  planeCbh : Machine.realsOk s.planeCbh = true
  planeCrh : Machine.realsOk s.planeCrh = true

theorem State.holdsBinary64_iff (s : State) : s.HoldsBinary64 ↔ s.realsOk = true := by
  have hseq : (s.seq.all fun v => v.toList.all wf64) = true ↔ ∀ v, s.seq = some v → blockOk v := by
    cases s.seq <;> simp [blockOk_iff]
  simp only [State.realsOk, Bool.and_eq_true, hseq, ← blockOk_iff, and_assoc]
  exact ⟨fun ⟨hb, hs, hy, hcb, hcr, hcbh, hcrh⟩ => ⟨hb, hs, hy, hcb, hcr, hcbh, hcrh⟩,
    fun ⟨hb, hs, hy, hcb, hcr, hcbh, hcrh⟩ => ⟨hb, hs, hy, hcb, hcr, hcbh, hcrh⟩⟩

/-- Between the two states memories stay canonical and reals stay values of binary64. -/
structure State.KeepsData (s t : State) : Prop where
  memories : s.CanonicalMemories → t.CanonicalMemories
  reals : s.HoldsBinary64 → t.HoldsBinary64

/-- The second state is the first with results written: neither `STATUS` nor the sequencer has moved. -/
structure State.Writes (s t : State) : Prop extends s.KeepsData t where
  status : t.status = s.status := by rfl
  errinfo : t.errinfo = s.errinfo := by rfl
  opidx : t.opidx = s.opidx := by rfl
  pending : t.pending = s.pending := by rfl
  inbox : t.inbox = s.inbox := by rfl

/-- R32: results are written and the operation ends. -/
def State.Completes (s t : State) : Prop := ∃ r, s.Writes r ∧ r.complete = t

/-- R226: results are marked as holding no value and a fault is taken. -/
def State.TakesFault (s t : State) : Prop := ∃ r e info, s.Writes r ∧ r.raise e info = t

theorem State.KeepsData.refl (s : State) : s.KeepsData s := ⟨id, id⟩

theorem State.KeepsData.trans {s r t : State} (h : s.KeepsData r) (h' : r.KeepsData t) : s.KeepsData t :=
  ⟨h'.memories ∘ h.memories, h'.reals ∘ h.reals⟩

theorem State.Writes.refl (s : State) : s.Writes s := { State.KeepsData.refl s with }

theorem State.keepsData_raise (s : State) (e : ErrCode) (info : Nat) : s.KeepsData (s.raise e info) where
  memories h := { h with }
  reals h := { h with }

theorem State.Completes.keepsData {s t : State} (h : s.Completes t) : s.KeepsData t := by
  obtain ⟨r, hr, rfl⟩ := h
  exact ⟨fun hs => { hr.memories hs with }, fun hs => { hr.reals hs with }⟩

theorem State.TakesFault.keepsData {s t : State} (h : s.TakesFault t) : s.KeepsData t := by
  obtain ⟨r, e, info, hr, rfl⟩ := h
  exact hr.toKeepsData.trans (r.keepsData_raise e info)

/-! ### Writes of one result -/

theorem State.writes_blk (s : State) {b : Block} (hb : s.HoldsBinary64 → blockOk b) : s.Writes { s with blk := b } where
  memories h := { h with }
  reals h := { h with blk := hb h }

theorem State.writes_seq (s : State) {v : Option Block} (hv : s.HoldsBinary64 → ∀ b, v = some b → blockOk b) (work : Work) :
    s.Writes { s with seq := v, work := work } where
  memories h := { h with }
  reals h := { h with seq := hv h }

/-- The registers and the list that are neither memories nor reals. -/
theorem State.writes_registers (s : State) (sym : Record) (cmd : Byte) (width height : Option Half) (len : Option Nat)
    (work : Work) (blkList : Option (List Record)) :
    s.Writes { s with sym := sym, cmd := cmd, width := width, height := height, len := len, work := work, blkList := blkList }
    where
  memories h := { h with }
  reals h := { h with }

theorem State.writes_raster (s : State) {raster : ByteMem} (hr : Mem.wf raster) : s.Writes { s with raster := raster } where
  memories h := { h with raster := hr }
  reals h := { h with }

theorem State.writes_stream (s : State) {stream : ByteMem} (hs : Mem.wf stream) (len : Option Nat) (work : Work) :
    s.Writes { s with stream := stream, len := len, work := work } where
  memories h := { h with stream := hs }
  reals h := { h with }

/-! ### Loops that raise nothing -/

/-- An attempt that comes to a value or is refused. -/
def Attempt.RaisesNothing {α : Type} (x : Attempt α) : Prop := ∀ e info, x ≠ .raised e info

section
variable {α β : Type}

theorem Attempt.RaisesNothing.ok (a : α) : (Attempt.ok a).RaisesNothing := fun _ _ h => by cases h

theorem Attempt.RaisesNothing.bind {x : Attempt α} (hx : x.RaisesNothing) {f : α → Attempt β}
    (hf : ∀ a, (f a).RaisesNothing) : (x.bind f).RaisesNothing := by
  cases x with
  | ok a => exact hf a
  | raised e info => exact absurd rfl (hx e info)
  | refused r => exact fun _ _ h => by cases h

theorem Attempt.RaisesNothing.map {x : Attempt α} (hx : x.RaisesNothing) (f : α → β) : (x.map f).RaisesNothing :=
  hx.bind fun _ => .ok _

theorem Attempt.RaisesNothing.forEach {f : Nat → Attempt α} (hf : ∀ i, (f i).RaisesNothing) (start n : Nat) :
    (forEach f start n).RaisesNothing := by
  induction n generalizing start with
  | zero => exact .ok []
  | succ n ih => exact (hf start).bind fun _ => (ih (start + 1)).map _

theorem readReal_raisesNothing (place : Place) (m : Mem Real64) (i : Nat) : (readReal place m i).RaisesNothing := by
  unfold readReal
  split <;> exact fun _ _ h => by cases h

theorem readByte_raisesNothing (place : Place) (m : ByteMem) (i : Nat) : (readByte place m i).RaisesNothing := by
  unfold readByte
  split <;> exact fun _ _ h => by cases h

theorem readPixel_raisesNothing (m : ByteMem) (i : Nat) : (readPixel m i).RaisesNothing :=
  (readByte_raisesNothing _ _ _).bind fun _ => (readByte_raisesNothing _ _ _).bind fun _ =>
    (readByte_raisesNothing _ _ _).map _

theorem decimate_raisesNothing (place : Place) (m : Mem Real64) (w h : Nat) : (decimate place m w h).RaisesNothing :=
  .forEach (fun _ => readReal_raisesNothing _ _ _) _ _

theorem replicate_raisesNothing (P : Params) (place : Place) (m : Mem Real64) (w h : Nat) :
    (replicate P place m w h).RaisesNothing := by
  refine .forEach (fun i => ?_) _ _
  split
  · exact .ok none
  · exact (readReal_raisesNothing _ _ _).map _

/-! ### The end of an operation -/

/-- The end of an operation whose loop may raise. -/
theorem Attempt.settle_cases {s t void : State} {x : Attempt α} {result : α → State} (h : x.settle void result = .next t)
    (hvoid : s.Writes void) (hresult : ∀ a, x = .ok a → s.Writes (result a)) : s.Completes t ∨ s.TakesFault t := by
  rcases Attempt.settle_eq_next.mp h with ⟨a, ha, rfl⟩ | ⟨e, info, -, rfl⟩
  · exact .inl ⟨_, hresult a ha, rfl⟩
  · exact .inr ⟨_, e, info, hvoid, rfl⟩

/-- The end of an operation whose loop raises nothing. -/
theorem Attempt.settle_completes {s t void : State} {x : Attempt α} {result : α → State} (h : x.settle void result = .next t)
    (hx : x.RaisesNothing) (hresult : ∀ a, x = .ok a → s.Writes (result a)) : s.Completes t := by
  rcases Attempt.settle_eq_next.mp h with ⟨a, ha, rfl⟩ | ⟨e, info, hr, -⟩
  · exact ⟨_, hresult a ha, rfl⟩
  · exact absurd hr (hx e info)

end

/-! ### The operations -/

/-- The transforms and the quantizers, which replace `BLK` by a function of it. -/
theorem withBlk_completes {s t : State} {f : Block → Block} (hf : ∀ b, blockOk b → blockOk (f b))
    (h : (s.withBlk fun b => .next { s with blk := f b }.complete) = .next t) : s.Completes t := by
  obtain ⟨-, h⟩ := State.withBlk_next h
  exact ⟨_, s.writes_blk fun hs => hf _ hs.blk, Host.Outcome.next.inj h⟩

theorem unitRgb2ycc_completes {s t : State} (h : unitRgb2ycc machineSetting s = .next t) : s.Completes t := by
  obtain ⟨w, k, -, -, h⟩ := State.withDims_next h
  refine Attempt.settle_completes h (.forEach (readPixel_raisesNothing _) _ _) fun pixels _ => ?_
  exact {
    memories := fun hs => { hs with planeY := Mem.wf_ofList _, planeCb := Mem.wf_ofList _, planeCr := Mem.wf_ofList _ }
    reals := fun hs => { hs with
      planeY := realsOk_channelPlane _ _, planeCb := realsOk_channelPlane _ _, planeCr := realsOk_channelPlane _ _ } }

theorem unitYcc2rgb_cases {M : Setting} {s t : State} (h : unitYcc2rgb M s = .next t) : s.Completes t ∨ s.TakesFault t := by
  obtain ⟨w, k, -, -, h⟩ := State.withDims_next h
  obtain ⟨-, h⟩ := withPlane_next h
  obtain ⟨-, h⟩ := withPlane_next h
  obtain ⟨-, h⟩ := withPlane_next h
  exact Attempt.settle_cases h (s.writes_raster Mem.wf_nil) fun _ _ => s.writes_raster (Mem.wf_ofList _)

theorem unitCdown2_completes {s t : State} (h : unitCdown2 s = .next t) : s.Completes t := by
  obtain ⟨w, k, -, -, h⟩ := State.withDims_next h
  obtain ⟨-, h⟩ := withPlane_next h
  obtain ⟨-, h⟩ := withPlane_next h
  refine Attempt.settle_completes h ?_ fun halves hh => ?_
  · exact (decimate_raisesNothing _ _ _ _).bind fun _ => (decimate_raisesNothing _ _ _ _).map _
  · obtain ⟨cb, hcb, hh⟩ := Attempt.bind_eq_ok.mp hh
    obtain ⟨cr, hcr, rfl⟩ := Attempt.map_eq_ok.mp hh
    exact {
      memories := fun hs => { hs with planeCbh := Mem.wf_ofList _, planeCrh := Mem.wf_ofList _ }
      reals := fun hs => { hs with
        planeCbh := realsOk_decimate hs.planeCb hcb, planeCrh := realsOk_decimate hs.planeCr hcr } }

theorem unitCup2_completes {P : Params} {s t : State} (h : unitCup2 P s = .next t) : s.Completes t := by
  obtain ⟨w, k, -, -, h⟩ := State.withDims_next h
  obtain ⟨-, h⟩ := withPlane_next h
  obtain ⟨-, h⟩ := withPlane_next h
  refine Attempt.settle_completes h ?_ fun fulls hf => ?_
  · exact (replicate_raisesNothing _ _ _ _ _).bind fun _ => (replicate_raisesNothing _ _ _ _ _).map _
  · obtain ⟨cb, hcb, hf⟩ := Attempt.bind_eq_ok.mp hf
    obtain ⟨cr, hcr, rfl⟩ := Attempt.map_eq_ok.mp hf
    exact {
      memories := fun hs => { hs with planeCb := Mem.wf_place _ _, planeCr := Mem.wf_place _ _ }
      reals := fun hs => { hs with
        planeCb := realsOk_replicate hs.planeCbh hcb, planeCr := realsOk_replicate hs.planeCrh hcr } }

theorem unitRlee_completes {M : Setting} {s t : State} (h : unitRlee M s = .next t) : s.Completes t := by
  obtain ⟨v, -, -, h⟩ := State.withSeq_next h
  exact ⟨_, s.writes_registers _ s.cmd s.width s.height s.len _ s.blkList, Host.Outcome.next.inj h⟩

theorem unitRled_cases {s t : State} (h : unitRled b64 s = .next t) : s.Completes t ∨ s.TakesFault t := by
  have h := Host.Outcome.next.inj h
  split at h
  case h_1 v hv =>
    refine .inl ⟨_, s.writes_seq (fun _ b hb => ?_) _, h⟩
    obtain rfl := Option.some.inj hb
    exact blockOk_decodeRuns (blockOk_replicate (wf64_ofInt 0)) hv
  case h_2 p hp => exact .inr ⟨_, _, p, s.writes_seq (fun _ b hb => by cases hb) _, h⟩

theorem unitFwr_cases {P : Params} {s t : State} (h : unitFwr P s = .next t) : s.Completes t ∨ s.TakesFault t := by
  obtain ⟨w, k, hw, hk, hdims⟩ := State.withDims_next h
  obtain ⟨l, hl, -⟩ := State.withBlkList_next hdims
  have fault {wptr : Nat} {e : ErrCode} {info : Nat} (hf : unitFwr P s = .next (s.writerFault wptr e info)) :
      s.Completes t ∨ s.TakesFault t :=
    .inr ⟨_, e, info, s.writes_stream Mem.wf_nil none _, Host.Outcome.next.inj (hf.symm.trans h)⟩
  by_cases hw0 : w = 0
  · exact fault (unitFwr_of_width_zero hw hk hl hw0)
  by_cases hk0 : k = 0
  · exact fault (unitFwr_of_height_zero hw hk hl hw0 hk0)
  cases hb : (writeRecords P 0 l).bad with
  | some b =>
    obtain ⟨wptr, hf⟩ := unitFwr_of_bad hw hk hl hw0 hk0 hb
    exact fault hf
  | none =>
    have hdone := unitFwr_of_writable hw hk hl hw0 hk0 (writable_of_writeRecords hb)
    exact .inl ⟨_, s.writes_stream (Mem.wf_ofList _) _ _, Host.Outcome.next.inj (hdone.symm.trans h)⟩

theorem unitFpr_cases {s t : State} (h : unitFpr s = .next t) : s.Completes t ∨ s.TakesFault t := by
  obtain ⟨n, -, h⟩ := State.withLen_next h
  exact Attempt.settle_cases h (s.writes_registers s.sym s.cmd none none s.len s.work none) fun _ _ =>
    s.writes_registers s.sym s.cmd _ _ s.len _ _

/-- Every operation that answers a next state has completed, or is one of the four that can fault (R221) and has taken a
fault. -/
theorem exec_cases {i : Instr} {s t : State} (h : exec i s = .next t) :
    s.Completes t ∨ (i = .ycc2rgb ∨ i = .rled ∨ i = .fwr ∨ i = .fpr) ∧ s.TakesFault t := by
  cases i with
  | rgb2ycc => exact .inl (unitRgb2ycc_completes h)
  | ycc2rgb => exact (unitYcc2rgb_cases h).imp_right fun hf => ⟨.inl rfl, hf⟩
  | cdown2 => exact .inl (unitCdown2_completes h)
  | cup2 => exact .inl (unitCup2_completes h)
  | dct8f => exact .inl (withBlk_completes (fun _ => blockOk_dct8f) h)
  | dct8i => exact .inl (withBlk_completes (fun _ => blockOk_dct8i) h)
  | qfwd p => exact .inl (withBlk_completes (fun b _ => blockOk_quantize _ _ b) h)
  | qinv p => exact .inl (withBlk_completes (fun b _ => blockOk_dequantize _ _ b) h)
  | zzf =>
    rw [exec_zzf] at h
    obtain ⟨-, h⟩ := State.withBlk_next h
    refine .inl ⟨_, s.writes_seq (fun hs b hb => ?_) s.work, Host.Outcome.next.inj h⟩
    obtain rfl := Option.some.inj hb
    exact blockOk_scan hs.blk
  | zzi =>
    rw [exec_zzi] at h
    obtain ⟨v, hv, -, h⟩ := State.withSeq_next h
    exact .inl ⟨_, s.writes_blk fun hs => blockOk_unscan (hs.seq v hv), Host.Outcome.next.inj h⟩
  | rlee => exact .inl (unitRlee_completes h)
  | rled => exact (unitRled_cases h).imp_right fun hf => ⟨.inr (.inl rfl), hf⟩
  | fwr => exact (unitFwr_cases h).imp_right fun hf => ⟨.inr (.inr (.inl rfl)), hf⟩
  | fpr => exact (unitFpr_cases h).imp_right fun hf => ⟨.inr (.inr (.inr rfl)), hf⟩

/-- Settles O10: a completion and a fault each say what becomes of `STATUS`, `OPIDX` and the steps to do. -/
theorem operationCompletesOrFaults : Obligations.OperationCompletesOrFaults := by
  intro i s t h
  rcases exec_cases h with ⟨r, hr, rfl⟩ | ⟨hi, r, e, info, hr, rfl⟩
  · exact .inl ⟨congrArg statusDone hr.status, hr.errinfo, congrArg (· + 1) hr.opidx, hr.pending⟩
  · exact .inr ⟨hi, ⟨e, rfl⟩, hr.opidx, rfl⟩

end Sys2Proof.Machine
end

section
/-! PROOF. R20, R28, R226, R251: what every step of the machine keeps, and `ResetInv`, `SequencerAdvances`, `StepKeepsInv`,
`StepKeepsRealsOk`. -/

namespace Sys2Proof.Machine

/-! ### Moves and checks -/

theorem State.CanonicalMemories.source {s : State} (hs : s.CanonicalMemories) (p : SourcePlane) : Mem.wf (s.source p) := by
  cases p with
  | y => exact hs.planeY
  | cbh => exact hs.planeCbh
  | crh => exact hs.planeCrh

theorem State.HoldsBinary64.source {s : State} (hs : s.HoldsBinary64) (p : SourcePlane) :
    Machine.realsOk (s.source p) = true := by
  cases p with
  | y => exact hs.planeY
  | cbh => exact hs.planeCbh
  | crh => exact hs.planeCrh

theorem State.writes_setSource (s : State) (p : SourcePlane) {m : Mem Real64} (hwf : s.CanonicalMemories → Mem.wf m)
    (hreals : s.HoldsBinary64 → Machine.realsOk m = true) : s.Writes (s.setSource p m) := by
  cases p with
  | y => exact { memories := fun h => { h with planeY := hwf h }, reals := fun h => { h with planeY := hreals h } }
  | cbh => exact { memories := fun h => { h with planeCbh := hwf h }, reals := fun h => { h with planeCbh := hreals h } }
  | crh => exact { memories := fun h => { h with planeCrh := hwf h }, reals := fun h => { h with planeCrh := hreals h } }

theorem wf64_of_loadElement {P : Params} {s : State} (hs : s.HoldsBinary64) {seq : Plane} {w h n k : Nat} {v : Real64}
    (hv : loadElement P s seq w h n k = .ok v) : wf64 v = true := by
  simp only [loadElement] at hv
  split at hv
  case h_1 =>
    obtain rfl := Attempt.ok.inj hv
    exact wf64_zero
  case h_2 p i _ =>
    split at hv
    case h_1 x hread =>
      obtain rfl := Attempt.ok.inj hv
      exact wf64_of_read (hs.source p) hread
    case h_2 => cases hv

theorem ldblk_writes {P : Params} {seq : Plane} {n : Nat} {s t : State} (h : ldblk P seq n s = .next t) : s.Writes t := by
  obtain ⟨w, k, vs, -, -, hvs, rfl⟩ := ldblk_next h
  exact s.writes_blk fun hs => blockOk_blockOf (forall_mem_of_forEach (fun _ _ => wf64_of_loadElement hs) hvs)

theorem State.Writes.trans {s r t : State} (h : s.Writes r) (h' : r.Writes t) : s.Writes t where
  toKeepsData := h.toKeepsData.trans h'.toKeepsData
  status := h'.status.trans h.status
  errinfo := h'.errinfo.trans h.errinfo
  opidx := h'.opidx.trans h.opidx
  pending := h'.pending.trans h.pending
  inbox := h'.inbox.trans h.inbox

theorem storeElement_writes (P : Params) (seq : Plane) (w h n : Nat) (s : State) (k : Nat) :
    s.Writes (storeElement P seq w h n s k) := by
  rcases storeElement_eq P seq w h n s k with he | ⟨p, i, -, he⟩ <;> rw [he]
  · exact .refl s
  · exact s.writes_setSource p (fun hs => Mem.wf_write (hs.source p) i _)
      fun hs => realsOk_write (hs.source p) i (wf64_elem hs.blk k)

theorem foldl_storeElement_writes (P : Params) (seq : Plane) (w h n : Nat) (ks : List Nat) (s : State) :
    s.Writes (ks.foldl (storeElement P seq w h n) s) := by
  induction ks generalizing s with
  | nil => exact .refl s
  | cons k ks ih => exact (storeElement_writes P seq w h n s k).trans (ih _)

theorem stblk_writes {P : Params} {seq : Plane} {n : Nat} {s t : State} (h : stblk P seq n s = .next t) : s.Writes t := by
  obtain ⟨w, k, -, -, rfl⟩ := stblk_next h
  exact foldl_storeElement_writes _ _ _ _ _ _ s

theorem pushsym_writes {s t : State} (h : pushsym s = .next t) : s.Writes t := by
  obtain ⟨l, -, rfl⟩ := pushsym_next h
  exact s.writes_registers s.sym s.cmd s.width s.height s.len s.work _

theorem popsym_writes {b : Nat} {s t : State} (h : popsym b s = .next t) : s.Writes t := by
  obtain ⟨l, r, -, -, rfl⟩ := popsym_next h
  exact s.writes_registers r s.cmd s.width s.height s.len s.work s.blkList

/-! ### Everything that a pending step can come to -/

/-- A fault taken in a state that holds what the first one holds. -/
def State.StepFaults (s t : State) : Prop := ∃ r e info, s.KeepsData r ∧ r.inbox = s.inbox ∧ r.raise e info = t

/-- A started operation has completed, or a fault is taken. -/
theorem issue_cases {w : Byte} {s t : State} (hf : s.faulted = false) (h : issue w s = .next t) :
    (s.start w).Completes t ∨ s.StepFaults t := by
  cases hb : busyBit s.status with
  | true => simp [issue, hf, hb] at h
  | false =>
    rw [issue_of_idle hf hb] at h
    split at h
    case h_1 =>
      have hcmd := s.writes_registers s.sym w s.width s.height s.len s.work s.blkList
      exact .inr ⟨_, _, _, hcmd.toKeepsData, rfl, Host.Outcome.next.inj h⟩
    case h_2 i _ =>
      rcases exec_cases h with hc | ⟨-, r, e, info, hr, rfl⟩
      · exact .inl hc
      · exact .inr ⟨r, e, info, ⟨fun hs => hr.memories { hs with }, fun hs => hr.reals { hs with }⟩, hr.inbox, rfl⟩

/-- R20, R28: a pending step with no fault standing has moved data or passed the dimension check, completed an operation,
taken a fault, or passed the block count check. -/
theorem seqStep_cases {x : SeqStep} {s t : State} (hf : s.faulted = false) (h : seqStep x s = .next t) :
    s.Writes t ∨ (∃ w, (s.start w).Completes t) ∨ s.StepFaults t
      ∨ x = .checkCount ∧ ∃ w k : Half, s.width = some w ∧ s.height = some k
        ∧ t = { s with pending := decompressSteps specParams w.toNat k.toNat ++ s.pending } := by
  rw [seqStep_of_not_faulted hf] at h
  cases x with
  | cmd w => exact .inr ((issue_cases hf h).imp (fun hc => ⟨w, hc⟩) .inl)
  | ldblk seq n => exact .inl (ldblk_writes h)
  | stblk seq n => exact .inl (stblk_writes h)
  | pushsym => exact .inl (pushsym_writes h)
  | popsym b => exact .inl (popsym_writes h)
  | checkDims w k =>
    obtain rfl := Host.Outcome.next.inj h
    rcases checkDims_eq w k s with ⟨-, hd⟩ | ⟨info, -, hd⟩
    · exact .inl (hd ▸ s.writes_registers s.sym s.cmd _ _ s.len s.work s.blkList)
    · exact .inr (.inr (.inl ⟨s, _, info, .refl s, rfl, hd.symm⟩))
  | checkCount =>
    obtain ⟨w, k, l, hw, hk, -, ⟨-, ht⟩ | ⟨-, rfl⟩⟩ := checkCount_next h
    · exact .inr (.inr (.inr ⟨rfl, w, k, hw, hk, ht⟩))
    · exact .inr (.inr (.inl ⟨s, _, _, .refl s, rfl, rfl⟩))
  | serialise => cases h

/-- Settles O11: of the four things that a pending step can come to, only a passed block count check puts steps in front. -/
theorem sequencerAdvances : Obligations.SequencerAdvances := by
  intro s t x rest hp hi h
  rw [step_pending hp hi] at h
  cases hf : s.faulted with
  | true =>
    obtain rfl := Host.Outcome.next.inj ((seqStep_of_faulted (s := { s with pending := rest }) hf x).symm.trans h)
    exact ⟨rfl, .inl rfl⟩
  | false =>
    rcases seqStep_cases (s := { s with pending := rest }) hf h with
      hw | ⟨w, r, hr, rfl⟩ | ⟨r, e, info, -, hinbox, rfl⟩ | ⟨hx, w, k, hw, hk, rfl⟩
    · exact ⟨hw.inbox, .inl hw.pending⟩
    · exact ⟨hr.inbox, .inl hr.pending⟩
    · exact ⟨hinbox, .inr (.inl ⟨r.raise_faulted e info, rfl⟩)⟩
    · exact ⟨rfl, .inr (.inr ⟨hx, w, k, hw, hk, rfl⟩)⟩

/-! ### Resets -/

theorem State.reset_canonicalMemories : State.reset.CanonicalMemories :=
  ⟨Mem.wf_nil, Mem.wf_nil, Mem.wf_nil, Mem.wf_nil, Mem.wf_nil, Mem.wf_nil, Mem.wf_nil⟩

theorem State.reset_holdsBinary64 : State.reset.HoldsBinary64 where
  blk := blockOk_freshBlock _
  seq _ hv := Option.some.inj hv ▸ blockOk_freshBlock _
  planeY := rfl
  planeCb := rfl
  planeCr := rfl
  planeCbh := rfl
  planeCrh := rfl

theorem State.reset_statusOk : State.reset.statusOk = true := by decide

/-- Settles O58: the memories list nothing, `STATUS` and `ERRINFO` are 0, and the free register values are of binary64. -/
theorem resetInv : Obligations.ResetInv :=
  ⟨⟨State.reset_statusOk, (State.canonicalMemories_iff _).mp State.reset_canonicalMemories⟩,
    (State.holdsBinary64_iff _).mp State.reset_holdsBinary64⟩

/-- R251: a later reset leaves the two buffers as they were or with free values of binary64. -/
theorem State.keepsData_applyReset (s : State) : s.KeepsData s.applyReset where
  memories _ := { State.reset_canonicalMemories with }
  reals h := { State.reset_holdsBinary64 with
    blk := by
      rw [State.applyReset_blk]
      rcases afterReset_cases .blk (s.resets + 1) s.blk (freshBlock (Config.resetBlk (s.resets + 1))) with he | he <;> rw [he]
      · exact h.blk
      · exact blockOk_freshBlock _
    seq := fun v hv => by
      rcases afterResetOption_cases .seq (s.resets + 1) s.seq (freshBlock (Config.resetSeq (s.resets + 1))) with
        ⟨b, hb, he⟩ | he
      · exact Option.some.inj (he.symm.trans hv) ▸ h.seq b hb
      · exact Option.some.inj (he.symm.trans hv) ▸ blockOk_freshBlock _ }

/-- R253: the inputs of a call are placed in canonical form. -/
theorem startCall_keepsData (c : HostCall) (s : State) : s.KeepsData (startCall c s) := by
  have hreset := s.keepsData_applyReset
  cases c with
  | compress w h raster =>
    exact hreset.trans ⟨fun hs => { hs with raster := Mem.wf_ofList _ }, fun hs => { hs with }⟩
  | decompress stream len =>
    exact hreset.trans ⟨fun hs => { hs with stream := Mem.wf_ofList _ }, fun hs => { hs with }⟩
  | convert w h raster =>
    exact hreset.trans ⟨fun hs => { hs with raster := Mem.wf_ofList _ }, fun hs => { hs with }⟩
  | issue steps => exact ⟨fun hs => { hs with }, fun hs => { hs with }⟩
  | reset => exact hreset

/-! ### Every step -/

theorem State.keepsData_lists (s : State) (pending : List SeqStep) (inbox : List HostCall) :
    s.KeepsData { s with pending := pending, inbox := inbox } := ⟨fun hs => { hs with }, fun hs => { hs with }⟩

theorem State.keepsData_start (s : State) (w : Byte) : s.KeepsData (s.start w) :=
  ⟨fun hs => { hs with }, fun hs => { hs with }⟩

theorem seqStep_keepsData {x : SeqStep} {s t : State} (h : seqStep x s = .next t) : s.KeepsData t := by
  cases hf : s.faulted with
  | true => exact Host.Outcome.next.inj ((seqStep_of_faulted hf x).symm.trans h) ▸ .refl s
  | false =>
    rcases seqStep_cases hf h with hw | ⟨w, hc⟩ | ⟨r, e, info, hr, -, rfl⟩ | ⟨-, w, k, -, -, rfl⟩
    · exact hw.toKeepsData
    · exact (s.keepsData_start w).trans hc.keepsData
    · exact hr.trans (r.keepsData_raise e info)
    · exact s.keepsData_lists _ _

theorem step_keepsData {s t : State} (h : step s = .next t) : s.KeepsData t := by
  rcases step_cases h with ⟨more, -, rfl⟩ | ⟨x, rest, -, h⟩ | ⟨c, more, -, -, rfl⟩ | ⟨-, -, rfl⟩
  · exact (s.keepsData_lists _ _).trans (State.keepsData_applyReset _)
  · exact (s.keepsData_lists _ _).trans (seqStep_keepsData h)
  · exact (s.keepsData_lists _ _).trans (startCall_keepsData c _)
  · exact .refl t

/-! ### `STATUS` -/

theorem State.statusOk_congr {s t : State} (hstatus : t.status = s.status) (herrinfo : t.errinfo = s.errinfo) :
    t.statusOk = s.statusOk := by
  simp only [State.statusOk, hstatus, herrinfo]

theorem State.statusOk_raise (s : State) (e : ErrCode) (info : Nat) : (s.raise e info).statusOk = true := by
  have hcode : e.code ≠ 0#4 := e.code_ne_zero
  simp [State.statusOk, statusFault, hcode, e.code_le_six]

theorem State.statusOk_of_clear {s : State} {done : Bool} (hstatus : s.status = statusOf 0 done false)
    (herrinfo : s.errinfo = 0) : s.statusOk = true := by
  simp [State.statusOk, hstatus, herrinfo]

/-- R33: with no fault recorded there is no detail of one. -/
theorem State.clear_of_not_faulted {s : State} (hok : s.statusOk = true) (hf : s.faulted = false) :
    errField s.status = 0 ∧ s.errinfo = 0 := by
  have herr : errField s.status = 0 := by simpa [State.faulted] using hf
  simp only [State.statusOk, herr, Bool.and_eq_true] at hok
  obtain ⟨-, hinfo⟩ := hok
  exact ⟨herr, by simpa using hinfo⟩

/-- R32: an operation that completes with no fault standing leaves `DONE` and nothing else in `STATUS`. -/
theorem State.Completes.statusOk {s t : State} {w : Byte} (h : (s.start w).Completes t) (hok : s.statusOk = true)
    (hf : s.faulted = false) : t.statusOk = true := by
  obtain ⟨r, hr, rfl⟩ := h
  obtain ⟨herr, hinfo⟩ := State.clear_of_not_faulted hok hf
  refine State.statusOk_of_clear (done := true) ?_ (hr.errinfo.trans hinfo)
  rw [State.complete_status, hr.status, State.start_status, statusDone, statusStart, errField_statusOf, herr]

theorem seqStep_statusOk {x : SeqStep} {s t : State} (hok : s.statusOk = true) (h : seqStep x s = .next t) :
    t.statusOk = true := by
  cases hf : s.faulted with
  | true => exact Host.Outcome.next.inj ((seqStep_of_faulted hf x).symm.trans h) ▸ hok
  | false =>
    rcases seqStep_cases hf h with hw | ⟨w, hc⟩ | ⟨r, e, info, -, -, rfl⟩ | ⟨-, w, k, -, -, rfl⟩
    · exact (State.statusOk_congr hw.status hw.errinfo).trans hok
    · exact hc.statusOk hok hf
    · exact r.statusOk_raise e info
    · exact hok

theorem startCall_statusOk (c : HostCall) {s : State} (hok : s.statusOk = true) : (startCall c s).statusOk = true := by
  cases c with
  | issue steps => exact hok
  | compress w h raster => exact State.reset_statusOk
  | decompress stream len => exact State.reset_statusOk
  | convert w h raster => exact State.reset_statusOk
  | reset => exact State.reset_statusOk

theorem step_statusOk {s t : State} (hok : s.statusOk = true) (h : step s = .next t) : t.statusOk = true := by
  rcases step_cases h with ⟨more, -, rfl⟩ | ⟨x, rest, -, h⟩ | ⟨c, more, -, -, rfl⟩ | ⟨-, -, rfl⟩
  · exact State.reset_statusOk
  · exact seqStep_statusOk (s := { s with pending := rest }) hok h
  · exact startCall_statusOk (s := { s with inbox := more }) c hok
  · exact hok

/-- Settles O59: the two parts of the invariant, each kept by everything that a step can come to. -/
theorem stepKeepsInv : Obligations.StepKeepsInv := fun s t ⟨hstatus, hmem⟩ h =>
  ⟨step_statusOk hstatus h,
    (State.canonicalMemories_iff t).mp ((step_keepsData h).memories ((State.canonicalMemories_iff s).mpr hmem))⟩

/-- Settles O60: what a step writes into a buffer or a plane is a result of the arithmetic, an element that was there, or free
but of binary64. -/
theorem stepKeepsRealsOk : Obligations.StepKeepsRealsOk := fun s t hs h =>
  (State.holdsBinary64_iff t).mp ((step_keepsData h).reals ((State.holdsBinary64_iff s).mpr hs))

end Sys2Proof.Machine
end

section
/-! PROOF. R29, R70 to R73: a command word is its three fields, and `DecodeReadsTheFields`, `DecodeOfEncode`, `WordsOfTheTable`. -/

namespace Sys2Proof.Machine

/-- R71, R73: a code and a plane kind name the operation of that code, which has the plane kind if it has one. -/
theorem decodeOp_eq_some_iff (op : BitVec 4) (plane : Plane) (i : Instr) :
    decodeOp op.toNat plane = some i ↔ op = i.op ∧ ∀ p, i.planeOperand = some p → plane = p := by
  cases i with
  | qfwd p => simp only [Instr.planeOperand, Option.some.injEq, forall_eq']; cases p <;> cases plane <;> revert op <;> decide
  | qinv p => simp only [Instr.planeOperand, Option.some.injEq, forall_eq']; cases p <;> cases plane <;> revert op <;> decide
  | _ =>
    simp only [Instr.planeOperand, reduceCtorEq, false_implies, implies_true, and_true]
    cases plane <;> revert op <;> decide

/-- R70: `decode` reads the reserved field, then the code. -/
theorem decode_eq_ok_iff (w : Byte) (i : Instr) :
    decode w = .ok i ↔ reservedField w = 0 ∧ decodeOp (opField w).toNat (planeField w) = some i := by
  rw [decode]
  by_cases hfield : reservedField w = 0#3
  · cases hop : decodeOp (opField w).toNat (planeField w) <;> simp [hfield]
  · simp [hfield]

/-- Settles O2: `decode` reads the reserved field and looks the other two up. -/
theorem decodeReadsTheFields : Obligations.DecodeReadsTheFields := fun w i => by
  rw [decode_eq_ok_iff, decodeOp_eq_some_iff]

/-- R70, R71: the fields of an operation's command word. -/
theorem fields_encode (i : Instr) :
    reservedField (encode i) = 0 ∧ opField (encode i) = i.op
      ∧ ∀ p, i.planeOperand = some p → planeField (encode i) = p := by
  cases i with
  | qfwd p => simp only [Instr.planeOperand, Option.some.injEq, forall_eq']; cases p <;> decide
  | qinv p => simp only [Instr.planeOperand, Option.some.injEq, forall_eq']; cases p <;> decide
  | _ =>
    simp only [Instr.planeOperand, reduceCtorEq, false_implies, implies_true, and_true]
    decide

theorem decode_encode (i : Instr) : decode (encode i) = .ok i :=
  (decodeReadsTheFields (encode i) i).mpr (fields_encode i)

/-- R73: a word that decodes is legal. -/
theorem commandWellFormed_of_decode {w : Byte} {i : Instr} (h : decode w = .ok i) : commandWellFormed w = true := by
  refine eq_true_of_ne_false fun hw => ?_
  obtain ⟨r, hr⟩ := (exists_decode_eq_error_iff w).mpr hw
  cases h.symm.trans hr

/-- Settles O1: the fields of the word are those that decode to the operation. -/
theorem decodeOfEncode : Obligations.DecodeOfEncode := fun i =>
  ⟨decode_encode i, commandWellFormed_of_decode (decode_encode i)⟩

/-- Settles O3: each word is the encoding of its operation, or of it with a `PLANE` bit that it ignores; the last three are
reserved words. -/
theorem wordsOfTheTable : Obligations.WordsOfTheTable :=
  ⟨decode_encode .rgb2ycc, decode_encode .cup2, decode_encode .dct8f, decode_encode (.qfwd .luma),
    decode_encode (.qfwd .chroma), decode_encode (.qinv .chroma),
    (decodeReadsTheFields 0b00010101#8 .dct8f).mpr ⟨by decide, by decide, fun p hp => by cases hp⟩,
    decode_encode .zzf, decode_encode .rled, decode_encode .fpr, rfl, rfl, rfl⟩

end Sys2Proof.Machine
end

section
/-! PROOF. R20, R29, R32, R202, R207, R226, R252, R253: what a fault, a start and an end write into `STATUS`, and
`FaultEntry`, `StepRunsTheDecodedOperation`, `BlockCountCheck`, `IdleBlockStays`, `InvocationStartsClean`. -/

namespace Sys2Proof.Machine

/-- Settles O6: the three writes of `STATUS` are made of its fields. -/
theorem faultEntry : Obligations.FaultEntry := by
  refine ⟨fun s e info => ?_, ⟨rfl, rfl, rfl, rfl, rfl, rfl⟩, fun st => ?_⟩
  · exact ⟨errField_statusOf _ _ _, rfl, busyBit_statusOf _ _ _, doneBit_statusOf _ _ _, reservedBits_statusOf _ _ _, rfl⟩
  · exact ⟨busyBit_statusOf _ _ _, doneBit_statusOf _ _ _, errField_statusOf _ _ _, reservedBits_statusOf _ _ _,
      busyBit_statusOf _ _ _, doneBit_statusOf _ _ _, errField_statusOf _ _ _, reservedBits_statusOf _ _ _⟩

/-- Settles O4: the pending step is taken and issued. -/
theorem stepRunsTheDecodedOperation : Obligations.StepRunsTheDecodedOperation := by
  intro s w rest i hp hi hf hb hw
  have hstep := step_eq_run (issue w) (seqStep_of_not_faulted · _) hp hi hf
  rw [hstep, issue_of_idle (s := { s with pending := rest }) hf hb, hw]
  rfl

theorem checkCount_of_some {P : Params} {s : State} {w h : Half} {l : List Record} (hw : s.width = some w)
    (hh : s.height = some h) (hl : s.blkList = some l) :
    checkCount P s = .next (if l.length = lumaBlocks P w.toNat h.toNat + chromaBlocks P w.toNat h.toNat then
      { s with pending := decompressSteps P w.toNat h.toNat ++ s.pending } else s.raise .malformedStream 4) := by
  rw [checkCount, State.withDims_of_some hw hh, State.withBlkList_of_some hl]

/-- Settles O54: the pending step is taken and the count compared. -/
theorem blockCountCheck : Obligations.BlockCountCheck := by
  intro s w h l rest hp hi hf hw hh hl
  rw [step_eq_run (checkCount specParams) (seqStep_of_not_faulted · _) hp hi hf,
    checkCount_of_some (s := { s with pending := rest }) hw hh hl]
  rfl

/-- Settles O9: after reset both lists are empty. -/
theorem idleBlockStays : Obligations.IdleBlockStays :=
  ⟨fun _ => step_of_idle, step_of_idle rfl rfl⟩

/-- R253: of the state before, a call other than a bare listing keeps what its reset keeps. -/
theorem startCall_frame {c : HostCall} (hc : ∀ l, c ≠ .issue l) (s s' : State) :
    startCall c s = { startCall c s' with
      blk := s.applyReset.blk
      seq := s.applyReset.seq
      sym := s.applyReset.sym
      width := s.applyReset.width
      height := s.applyReset.height
      len := (startCall c s).len
      resets := s.resets + 1
      inbox := s.inbox } := by
  cases c with
  | issue l => exact absurd rfl (hc l)
  | compress w h raster => rfl
  | decompress stream len => rfl
  | convert w h raster => rfl
  | reset => rfl

/-- Settles O57: a call begins with a reset and then places its inputs and its listing. -/
theorem invocationStartsClean : Obligations.InvocationStartsClean := by
  refine ⟨fun s w h raster more hp hi => ?_, fun s stream n more hp hi => ?_, fun s w h raster more hp hi => ?_,
    fun s rest hp hi hf => ?_, fun c s s' hc => startCall_frame hc s s'⟩
  · exact ⟨_, step_of_call hp hi, rfl, rfl, rfl, rfl, Mem.read_ofList raster, rfl, rfl⟩
  · exact ⟨_, step_of_call hp hi, rfl, rfl, rfl, rfl, Mem.read_ofList stream, rfl, rfl, rfl⟩
  · exact ⟨_, step_of_call hp hi, rfl, rfl, rfl, rfl, Mem.read_ofList raster, rfl, rfl⟩
  · exact step_eq_run (fun _ => .refused .serialisation) (seqStep_of_not_faulted · _) hp hi hf

end Sys2Proof.Machine
end

section
/-! PROOF. R15, U9, U11: operand buffers and planes that are refused, and `NonFiniteOperandIsRefused`. -/

namespace Sys2Proof.Machine

/-- A buffer with an element that is not finite has a first one. -/
theorem exists_firstNonFinite {b : Block} (h : blockFinite b = false) :
    ∃ k, k < 64 ∧ firstNonFinite b.toList = some k := by
  cases hf : firstNonFinite b.toList with
  | none => rw [blockFinite, firstNonFinite_eq_none.mp hf] at h; cases h
  | some k =>
    obtain ⟨hk, -⟩ := List.findIdx?_eq_some_iff_getElem.mp hf
    exact ⟨k, by simpa using hk, rfl⟩

theorem State.withBlk_of_not_finite {s : State} (h : blockFinite s.blk = false) :
    ∃ k, k < 64 ∧ ∀ f, s.withBlk f = .refused (.nonFinite .blk k) := by
  obtain ⟨k, hk, hf⟩ := exists_firstNonFinite h
  exact ⟨k, hk, fun f => by simp only [State.withBlk, hf]⟩

theorem State.withSeq_of_not_finite {s : State} {v : Block} (hv : s.seq = some v) (h : blockFinite v = false) :
    ∃ k, k < 64 ∧ ∀ f, s.withSeq f = .refused (.nonFinite .seq k) := by
  obtain ⟨k, hk, hf⟩ := exists_firstNonFinite h
  exact ⟨k, hk, fun f => by simp only [State.withSeq, hv, hf]⟩

theorem State.withSeq_of_none {s : State} (h : s.seq = none) (f : Block → Host.Outcome State Fault Refusal) :
    s.withSeq f = .refused (.noValue .seq 0) := by
  simp only [State.withSeq, h]

/-- R15: an operation that has no meaning because a real operand is not finite. -/
def RefusesNonFinite (o : Host.Outcome State Fault Refusal) : Prop := ∃ place j, o = .refused (.nonFinite place j)

section
variable {place : Place} {m : Mem Real64} {n : Nat} {next : Host.Outcome State Fault Refusal}

theorem refuses_withPlane {k : Nat} {v : Real64} (hk : k < n) (hv : m.read k = some v) (hfin : v.isFinite = false) :
    RefusesNonFinite (withPlane place m n next) := by
  cases hf : m.firstNonFinite n with
  | none => rw [Mem.firstNonFinite_eq_none.mp hf k hk v hv] at hfin; cases hfin
  | some j => exact ⟨place, j, by simp only [withPlane, hf]⟩

/-- A plane read before the one with the element refuses too, or passes. -/
theorem RefusesNonFinite.withPlane (h : RefusesNonFinite next) : RefusesNonFinite (withPlane place m n next) := by
  cases hf : m.firstNonFinite n with
  | none => simpa only [Machine.withPlane, hf] using h
  | some j => exact ⟨place, j, by simp only [Machine.withPlane, hf]⟩

end

/-- Settles O12: each operation reads its operand buffer, or its operand planes one after the other, before anything else. -/
theorem nonFiniteOperandIsRefused : Obligations.NonFiniteOperandIsRefused := by
  refine ⟨fun s i hi h => ?_, fun s v i hi hv h => ?_, fun s i hi h => ?_, fun s w h i k v hw hh hv hi => ?_⟩
  · obtain ⟨k, hk, hrefused⟩ := State.withBlk_of_not_finite h
    refine ⟨k, hk, ?_⟩
    rcases hi with rfl | rfl | ⟨p, rfl⟩ | ⟨p, rfl⟩ | rfl
    · rw [exec_dct8f, unitDct8f, hrefused]
    · rw [exec_dct8i, unitDct8i, hrefused]
    · rw [exec_qfwd, unitQfwd, hrefused]
    · rw [exec_qinv, unitQinv, hrefused]
    · rw [exec_zzf, hrefused]
  · obtain ⟨k, hk, hrefused⟩ := State.withSeq_of_not_finite hv h
    refine ⟨k, hk, ?_⟩
    rcases hi with rfl | rfl
    · rw [exec_zzi, hrefused]
    · rw [exec_rlee, unitRlee, hrefused]
  · rcases hi with rfl | rfl
    · rw [exec_zzi, State.withSeq_of_none h]
    · rw [exec_rlee, unitRlee, State.withSeq_of_none h]
  · change RefusesNonFinite (exec i s)
    rcases hi with ⟨rfl, hk, hy | hcb | hcr⟩ | ⟨rfl, hk, hcb | hcr⟩ | ⟨rfl, hk, hcb | hcr⟩
    · rw [exec_ycc2rgb, unitYcc2rgb, State.withDims_of_some hw hh]
      exact refuses_withPlane hk hy hv
    · rw [exec_ycc2rgb, unitYcc2rgb, State.withDims_of_some hw hh]
      exact (refuses_withPlane hk hcb hv).withPlane
    · rw [exec_ycc2rgb, unitYcc2rgb, State.withDims_of_some hw hh]
      exact (refuses_withPlane hk hcr hv).withPlane.withPlane
    · rw [exec_cdown2, unitCdown2, State.withDims_of_some hw hh]
      exact refuses_withPlane hk hcb hv
    · rw [exec_cdown2, unitCdown2, State.withDims_of_some hw hh]
      exact (refuses_withPlane hk hcr hv).withPlane
    · rw [exec_cup2, unitCup2, State.withDims_of_some hw hh]
      exact refuses_withPlane hk hcb hv
    · rw [exec_cup2, unitCup2, State.withDims_of_some hw hh]
      exact (refuses_withPlane hk hcr hv).withPlane

end Sys2Proof.Machine
end

section
/-! PROOF. R88, R200, R209: where each step of the listings stands, and `Listings`. -/

namespace Sys2Proof.Machine

/-! ### Loops written out -/

section
variable {α : Type} {f : Nat → List α} {c : Nat}

theorem length_flatMap_range (hf : ∀ n, (f n).length = c) (n : Nat) : ((List.range n).flatMap f).length = c * n := by
  simp [List.length_flatMap, hf, Nat.mul_comm]

/-- Pass `i` of a loop, between the passes before it and those after it. -/
theorem flatMap_range_split {i n : Nat} (hi : i < n) :
    ∃ after, (List.range n).flatMap f = (List.range i).flatMap f ++ (f i ++ after) := by
  obtain ⟨m, rfl⟩ := Nat.exists_eq_add_of_lt hi
  refine ⟨((List.range m).map (i + 1 + ·)).flatMap f, ?_⟩
  rw [show i + m + 1 = i + 1 + m by omega, List.range_add, List.range_succ]
  simp only [List.flatMap_append, List.flatMap_singleton, List.append_assoc]

/-- Where the steps of pass `i` stand, when each pass has `c` of them. -/
theorem take_drop_pass (hf : ∀ n, (f n).length = c) {before after l : List α} {i n k : Nat}
    (hl : l = before ++ (List.range n).flatMap f ++ after) (hk : k = before.length + c * i) (hi : i < n) :
    (l.drop k).take c = f i := by
  obtain ⟨rest, hsplit⟩ := flatMap_range_split (f := f) hi
  have hbefore : (before ++ (List.range i).flatMap f).length = k := by
    rw [List.length_append, length_flatMap_range hf, hk]
  have hl' : l = before ++ (List.range i).flatMap f ++ (f i ++ (rest ++ after)) := by
    rw [hl, hsplit]
    simp only [List.append_assoc]
  rw [hl', List.drop_left' hbefore, List.take_left' (hf i)]

end

/-! ### The listings -/

theorem length_forwardBlock (seq : Plane) (n : Nat) : (forwardBlock seq n).length = 6 := rfl

theorem length_inverseBlock (seq : Plane) (b n : Nat) : (inverseBlock seq b n).length = 6 := rfl

section
variable (P : Params) (w h : Nat)

theorem length_compressSteps :
    (compressSteps P w h).length = 6 * (lumaBlocks P w h + chromaBlocks P w h) + 3 := by
  simp only [compressSteps, List.length_append, List.length_cons, List.length_nil,
    length_flatMap_range (length_forwardBlock _)]
  omega

theorem length_decompressSteps :
    (decompressSteps P w h).length = 6 * (lumaBlocks P w h + chromaBlocks P w h) + 2 := by
  simp only [decompressSteps, List.length_append, List.length_cons, List.length_nil,
    length_flatMap_range fun n => length_inverseBlock _ _ n]
  omega

variable {P w h} {n : Nat}

theorem compressSteps_luma (hn : n < lumaBlocks P w h) :
    ((compressSteps P w h).drop (2 + 6 * n)).take 6 = forwardBlock .luma n :=
  take_drop_pass (length_forwardBlock .luma) (by rw [compressSteps, List.append_assoc]) rfl hn

theorem compressSteps_chroma (hn : n < chromaBlocks P w h) :
    ((compressSteps P w h).drop (2 + 6 * (lumaBlocks P w h + n))).take 6 = forwardBlock .chroma n := by
  refine take_drop_pass (length_forwardBlock .chroma) (by rw [compressSteps]) ?_ hn
  rw [List.length_append, length_flatMap_range (length_forwardBlock _)]
  simp only [List.length_cons, List.length_nil]
  omega

theorem compressSteps_end :
    (compressSteps P w h).drop (2 + 6 * (lumaBlocks P w h + chromaBlocks P w h)) = [.cmd (encode .fwr)] := by
  refine List.drop_left' ?_
  simp only [List.length_append, List.length_cons, List.length_nil, length_flatMap_range (length_forwardBlock _)]
  omega

theorem decompressSteps_luma (hn : n < lumaBlocks P w h) :
    ((decompressSteps P w h).drop (6 * n)).take 6 = inverseBlock .luma n n :=
  take_drop_pass (before := []) (fun m => length_inverseBlock .luma m m)
    (by rw [decompressSteps, List.append_assoc, List.nil_append]) (Nat.zero_add _).symm hn

theorem decompressSteps_chroma (hn : n < chromaBlocks P w h) :
    ((decompressSteps P w h).drop (6 * (lumaBlocks P w h + n))).take 6 = inverseBlock .chroma (lumaBlocks P w h + n) n := by
  refine take_drop_pass (fun m => length_inverseBlock .chroma (lumaBlocks P w h + m) m) (by rw [decompressSteps]) ?_ hn
  rw [length_flatMap_range fun m => length_inverseBlock _ _ m]
  omega

theorem decompressSteps_end :
    (decompressSteps P w h).drop (6 * (lumaBlocks P w h + chromaBlocks P w h))
      = [.cmd (encode .cup2), .cmd (encode .ycc2rgb)] := by
  refine List.drop_left' ?_
  simp only [List.length_append, length_flatMap_range fun m => length_inverseBlock _ _ m]
  omega

end

/-- Settles O56: each pass of a loop has six steps, so the numbers of blocks fix every place; the command words are the
encodings of the operations. -/
theorem listings : Obligations.Listings := fun w h =>
  ⟨⟨length_compressSteps specParams w h, rfl, fun _ => compressSteps_luma, fun _ => compressSteps_chroma, compressSteps_end⟩,
    length_decompressSteps specParams w h, fun _ => decompressSteps_luma, fun _ => decompressSteps_chroma,
    decompressSteps_end⟩

end Sys2Proof.Machine
end

section
/-! PROOF. R101, R104, R106: what the two converters make of gray and of pure red, and `ColourRoundTrip`. -/

namespace Sys2Proof.Machine

/-- R106 with `CAST8 = trunc`: the byte that a real lies at or above, and below the next one of. -/
theorem cast8_of_mem_Ico {n : Int} (hn : n ∈ Set.Icc (0 : Int) 255) {v : ℝ} (hv : v ∈ Set.Ico (n : ℝ) (n + 1)) :
    cast8 exactNum specParams v = n := by
  have h0 : (0 : ℝ) ≤ n := by exact_mod_cast hn.1
  have h255 : (n : ℝ) ≤ 255 := by exact_mod_cast hn.2
  rw [cast8_exactNum_trunc rfl, Int.floor_eq_iff]
  exact ⟨le_max_of_le_right (le_min h255 hv.1), max_lt (by linarith) (min_lt_of_right_lt hv.2)⟩

/-- Settles O19: gray has `Y` the gray value and chroma 128, which the inverse formulas return; pure red comes out at
(254.745, 0.35…, 0.30…). -/
theorem colourRoundTrip : Obligations.ColourRoundTrip := by
  intro expr h forward back
  obtain ⟨hforward, hinverse⟩ := colourFormulas expr h
  simp only [back, forward, hforward, hinverse]
  refine ⟨fun g hg => ?gray, ?red⟩
  case gray =>
    have hbyte : (g : Int) ∈ Set.Icc (0 : Int) 255 := ⟨by omega, by omega⟩
    refine ⟨cast8_of_mem_Ico hbyte ?_, cast8_of_mem_Ico hbyte ?_, cast8_of_mem_Ico hbyte ?_⟩ <;>
      constructor <;> push_cast <;> linarith
  case red =>
    refine ⟨cast8_of_mem_Ico (by simp) ?_, cast8_of_mem_Ico (by simp) ?_, cast8_of_mem_Ico (by simp) ?_⟩ <;>
      constructor <;> norm_num

end Sys2Proof.Machine
end

section
/-! PROOF. R121 to R125: the entries of the matrix products are the double sums of the rules, and `DctFormulas`, `DctCompletes`. -/

namespace Sys2Proof.Machine

/-- Settles O25: `A f Aᵀ` and `Aᵀ H A` written out. -/
theorem dctFormulas : Obligations.DctFormulas := by
  intro expr h f a b ha hb
  simp only [Finset.sum_range]
  constructor
  · refine ((conjugates_dct8f h).elem_eq f ⟨a, ha⟩ ⟨b, hb⟩).trans ?_
    simp only [Finset.mul_sum, dctA_apply]
    exact Finset.sum_congr rfl fun x _ => Finset.sum_congr rfl fun y _ => by ring
  · refine ((conjugates_dct8i h).elem_eq f ⟨a, ha⟩ ⟨b, hb⟩).trans ?_
    simp only [Matrix.transpose_apply, dctA_apply]
    exact Finset.sum_congr rfl fun u _ => Finset.sum_congr rfl fun v _ => by ring

/-- Settles O24: on a finite block the operations are the transforms. -/
theorem dctCompletes : Obligations.DctCompletes := fun _ h => ⟨exec_dct8f_of_finite h, exec_dct8i_of_finite h⟩

end Sys2Proof.Machine
end

section
/-! PROOF. R13, R136, R138: the quantizers on finite blocks, and `QuantizersComplete`, `QfwdGivesIntegers`. -/

namespace Sys2Proof.Machine

theorem exec_qfwd_of_finite {s : State} (h : blockFinite s.blk = true) (p : Plane) :
    exec (.qfwd p) s = .next { s with blk := quantize b64 .halfEven (forwardTable specParams p) s.blk }.complete := by
  rw [exec_qfwd, unitQfwd, State.withBlk_of_finite h]
  rfl

theorem exec_qinv_of_finite {s : State} (h : blockFinite s.blk = true) (p : Plane) :
    exec (.qinv p) s = .next { s with blk := dequantize b64 .halfEven (inverseTable specParams p) s.blk }.complete := by
  rw [exec_qinv, unitQinv, State.withBlk_of_finite h]
  rfl

/-- Settles O31: on a finite block the operations are the two element-wise functions with the table of the plane kind. -/
theorem quantizersComplete : Obligations.QuantizersComplete := by
  intro s p h
  rw [exec_qfwd_of_finite h, exec_qinv_of_finite h]
  cases p <;> exact ⟨rfl, rfl⟩

/-- R86, R87: the entries of the two tables. -/
theorem forwardTable_bounds (p : Plane) :
    ∀ k : Fin 64, 2 ≤ (forwardTable specParams p)[k] ∧ (forwardTable specParams p)[k] ≤ 255 := by
  cases p <;> decide

/-- The quotient of a finite value by a table entry does not overflow. -/
theorem exists_div64_entry {q : Rat} (hq : isBinary64 q) {n : Nat} (h2 : 2 ≤ n) (h255 : n ≤ 255) :
    ∃ r, div64 (.fin q) (ofInt64 n) = .fin r ∧ isBinary64 r := by
  have hn2 : (2 : Rat) ≤ n := by exact_mod_cast h2
  have hn0 : (0 : Rat) < n := by linarith
  have hsmall : |q / n| ≤ pow2 1023 := by
    have h1024 : pow2 1024 = pow2 1023 * 2 := by rw [← pow2_one, ← pow2_add]; rfl
    rw [abs_div, abs_of_pos hn0, div_le_iff₀ hn0]
    calc |q| ≤ pow2 1023 * 2 := h1024 ▸ hq.abs_lt.le
      _ ≤ pow2 1023 * n := mul_le_mul_of_nonneg_left hn2 (pow2_pos _).le
  obtain ⟨r, hr, -⟩ := round64_near hsmall
  refine ⟨r, ?_, isBinary64_of_round64 hr⟩
  rw [ofInt64_eq (by rw [Nat.abs_cast]; omega), Int.cast_natCast, div64_fin q hn0.ne', hr]

/-- R136: an element of a quantized block whose quotient is finite. -/
theorem quantize_getElem {tie : RoundTie} {T : Vector Nat 64} {b : Block} {k : Nat} (hk : k < 64) {r : Rat}
    (hr : isBinary64 r) (h : div64 b[k] (ofInt64 (T[k] : Nat)) = .fin r) :
    (quantize b64 tie T b)[k] = .fin (roundRat tie r) := by
  have hdiv : (quantize b64 tie T b)[k] = roundReal b64 tie (div64 b[k] (ofInt64 (T[k] : Nat))) :=
    Vector.getElem_zipWith ..
  rw [hdiv, h]
  exact ofInt64_roundRat hr tie

/-- Settles O32: the quotient is a finite value of binary64, whose rounding to an integer binary64 holds exactly. -/
theorem qfwdGivesIntegers : Obligations.QfwdGivesIntegers := by
  intro s t p hreals hnext k hk
  rw [exec_qfwd] at hnext
  obtain ⟨hfin, hnext⟩ := State.withBlk_next hnext
  obtain rfl := Host.Outcome.next.inj hnext
  have hblk := ((State.holdsBinary64_iff s).mpr hreals).blk
  obtain ⟨q, hq, hq64⟩ := blockOfBinary64_of_all hfin (blockOk_iff.mp hblk) k hk
  obtain ⟨h2, h255⟩ := forwardTable_bounds p ⟨k, hk⟩
  obtain ⟨r, hr, hr64⟩ := exists_div64_entry hq64 h2 h255
  refine ⟨q, r, hq, ?_, quantize_getElem hk hr64 (hq ▸ hr)⟩
  cases p <;> exact hr

end Sys2Proof.Machine
end
